-- ==== Sys2Proof/Word.lean ====
section
/-! DEFINITION. The machine's words (R6, R10, R50). -/

namespace Sys2Proof

/-- A register, an address, an instruction, a memory word: 32 bits (R6). -/
abbrev Word := BitVec 32

/-- One cell of memory as the model holds it (log entry 1). -/
abbrev Byte := BitVec 8

/-- A general register's index, 0 to 31 (R10). -/
abbrev Reg := BitVec 5

end Sys2Proof
end

