-- ==== Sys2Proof/Config.lean ====
section
/-! DEFINITION. What an implementation fixes (R6) and the values the spec leaves under no law. -/

namespace Sys2Proof

/-- `RESET_PC`, the entry point: a 4-byte aligned parameter whose default is 0 (R6, D4; log entry 3). -/
def Config.resetPc : Word := 0

/-- `LINK_OFFSET`: `jal` links its own address plus this (R6, D2; log entry 12). -/
def Config.linkOffset : Word := 4

/-- What a byte reads as that neither a program nor the host has written.
DESIGN CHOICE (unsafe): the spec leaves memory's contents to the host (log entry 1). -/
def Config.unlistedByte : Byte := 0

/-- The memory's answer to the `n`-th request of a run when nothing at all is assumed of the memory
(R33, D11). No body: a claim that meets it holds whatever the memory answers (log entry 4). -/
opaque Config.grant : Nat → Bool

/-- `ALU_UNLISTED(funct, op1, op2)`, under no law (R62, R85, D8; log entry 10). -/
opaque Config.aluUnlisted : BitVec 6 → Word → Word → Word

/-- The ALU's result for `ALU_op = I` under an opcode that never meets it (R85, D21; log entry 11). -/
opaque Config.aluUnreached : BitVec 6 → Word → Word → Word

end Sys2Proof
end

