-- ==== Sys2Proof/Machine/State.lean ====
section
/-! DEFINITION. Every piece of state the spec gives the machine (10_state.md), the model's three own fields, the
reasons a step can be refused, and the state right after reset (R27). -/

namespace Sys2Proof.Machine

/-! ## Control signals (R70) -/

/-- The 2-bit `ALU_op` selector, by class (R72, D7). -/
inductive AluOp where
  | add
  | sub
  | r
  | i
deriving DecidableEq, Repr

/-- The control-signal record: fifteen booleans and `ALU_op` (R70). -/
structure Control where
  regDest : Bool := false
  aluSrc : Bool := false
  regWrite : Bool := false
  memRead : Bool := false
  memWrite : Bool := false
  memToReg : Bool := false
  branch : Bool := false
  bne : Bool := false
  jump : Bool := false
  jumpReg : Bool := false
  link : Bool := false
  shift : Bool := false
  zeroExtend : Bool := false
  halfword : Bool := false
  byte : Bool := false
  aluOp : AluOp := .add
deriving DecidableEq, Repr

/-! ## Pipeline latches (R19 to R23). A latch is an `Option` of its payload: `none` is `valid = false`, an empty
slot, whose payload is never read (R23; log entry 2). -/

/-- The payload of IF/ID (R19). -/
structure IfIdPayload where
  instruction : Word
  pcPlus4 : Word
deriving DecidableEq, Repr

/-- The payload of ID/EX (R20). `bubble` is the spec's ghost flag: no rule's outcome depends on it. -/
structure IdExPayload where
  ctl : Control
  pcPlus4 : Word
  readData1 : Word
  readData2 : Word
  imm : Word
  rs : Reg
  rt : Reg
  rd : Reg
  opcode : BitVec 6
  funct : BitVec 6
  shamt : BitVec 5
  bubble : Bool
deriving DecidableEq, Repr

/-- The payload of EX/MEM (R21). -/
structure ExMemPayload where
  regWrite : Bool
  memToReg : Bool
  link : Bool
  halfword : Bool
  byte : Bool
  memRead : Bool
  memWrite : Bool
  aluResult : Word
  writeData : Word
  writeReg : Reg
  pcCommit : Word
  zero : Bool
  bubble : Bool
deriving DecidableEq, Repr

/-- The payload of MEM/WB (R22). -/
structure MemWbPayload where
  regWrite : Bool
  memToReg : Bool
  link : Bool
  aluResult : Word
  memReadData : Word
  writeReg : Reg
  pcCommit : Word
  bubble : Bool
deriving DecidableEq, Repr

/-! ## Memory and its port (20_memory.md) -/

/-- The store: addresses strictly rising, no byte equal to what an unlisted address reads as (`Memory.wf`). -/
structure Memory where
  cells : List Host.Cell
deriving DecidableEq, Repr

/-- A run of byte addresses; MEM_DOMAIN is the set of aligned addresses in any of its regions (R39, D23). -/
structure Region where
  base : Nat
  size : Nat
deriving DecidableEq, Repr

/-- The three kinds of request CORE makes (R31); a write carries its word. -/
inductive RequestKind where
  | ifetch
  | dread
  | dwrite (value : Word)
deriving DecidableEq, Repr

/-- One request at the port and the memory's answer (R31, R32). -/
structure Request where
  kind : RequestKind
  addr : Word
  granted : Bool
deriving DecidableEq, Repr

/-- What the memory answers once `State.grants` is used up (R33, R34; log entry 4). -/
inductive GrantTail where
  /-- Ideal memory: every request is granted (R33). -/
  | ideal
  /-- The unrecoverable error: every request is denied (R34). -/
  | denying
  /-- No law: `Config.grant` at the request's number (R33, D11). -/
  | free
deriving DecidableEq, Repr

/-- The execution model `initialize(opt_level)` selected (R2). -/
inductive OptLevel where
  /-- `opt_level = 0`: one instruction per `advance()` (R220). -/
  | singleCycle
  /-- `opt_level = 1`: CORE, the five-stage pipeline (R175). -/
  | pipelined
deriving DecidableEq, Repr

/-! ## The state -/

structure State where
  /-- x[0] to x[31] (R10); x[0] is read and written only through `State.reg` and `State.setReg` (R11). -/
  regs : Vector Word 32
  /-- The committed program counter (R14). -/
  pc : Word
  /-- The address IF requests (R14). -/
  fetchPc : Word
  /-- IF/ID (R19). -/
  ifid : Option IfIdPayload
  /-- ID/EX (R20). -/
  idex : Option IdExPayload
  /-- EX/MEM (R21). -/
  exmem : Option ExMemPayload
  /-- MEM/WB (R22). -/
  memwb : Option MemWbPayload
  /-- The store's contents (R32). -/
  memory : Memory
  /-- MEM_DOMAIN (R6, D23), fixed for a run. -/
  memDomain : List Region
  /-- The model `initialize` selected (R2), fixed for a run (R17). -/
  optLevel : OptLevel
  /-- The model's own: the memory's next answers, one per request (R33; log entry 4). -/
  grants : List Bool
  /-- The model's own: the answers after those (log entry 4). -/
  grantTail : GrantTail
  /-- The model's own ghost: the requests issued so far, newest first (R31; log entry 6). -/
  history : List Request
deriving DecidableEq, Repr

/-- CORE raises no exception and stops with no fault (R230, R236): the type has no constructor. -/
inductive Fault where
deriving DecidableEq, Repr

/-- The situations to which the spec gives no step (R236 c). Each is safe: nothing can be proved of a run that
reaches one. -/
inductive Refusal where
  /-- An instruction with no meaning yet, by mnemonic; raised by `exec`'s refused arms only, of which there are none.
  Safe. -/
  | notModelled (mnemonic : String)
  /-- An instruction fetch from an address that is not a multiple of 4 (R35, R151); raised by IF and by the
  single-cycle fetch. Safe. -/
  | misalignedFetch (addr : Word)
  /-- A load or store, of any width, at an address that is not a multiple of 4 (R35, R125); raised by MEM and by the
  loads and stores. Safe. -/
  | misalignedData (addr : Word)
  /-- Opcode 0 with an unlisted `funct` (R62, R170); raised by EX and by the single-cycle step. Safe. -/
  | unlistedFunct (funct : BitVec 6)
  /-- `initialize` with an `opt_level` other than 0 or 1 (D26); raised by `initialize`. Safe. -/
  | unknownOptLevel (level : Nat)
deriving DecidableEq, Repr

/-- What `exec`, `step` and every meaning answer. -/
abbrev Result := Host.Outcome State Fault Refusal

/-- Memory with nothing written and nothing loaded. -/
def Memory.empty : Memory := ⟨[]⟩

/-- The whole 32-bit address space (R30). -/
def Region.all : List Region := [⟨0, 2 ^ 32⟩]

/-- The machine bound to a memory collaborator by `new(memory)` (R250) and reset by `initialize(1)` (R27), with nothing
loaded, every address populated (log entry 5) and every request granted (log entry 4). -/
def State.reset : State :=
  { regs := Vector.replicate 32 0
    pc := Config.resetPc
    fetchPc := Config.resetPc
    ifid := none
    idex := none
    exmem := none
    memwb := none
    memory := Memory.empty
    memDomain := Region.all
    optLevel := .pipelined
    grants := []
    grantTail := .ideal
    history := [] }

end Sys2Proof.Machine
end

