-- ==== Sys2Proof/Machine/Ops.lean ====
section
/-! DEFINITION. The named operations over memory, the memory port and the registers. There is no operation that takes
an exception or returns from one: the spec gives the machine no trap entry (R233) and no trap return (R234). -/

namespace Sys2Proof.Machine

/-! ## The store, byte by byte -/

/-- What the store holds at a byte address; an unlisted address reads as `Config.unlistedByte` (log entry 1). -/
def lookupByte : List Host.Cell → Nat → Byte
  | [], _ => Config.unlistedByte
  | c :: rest, a => if c.1 = a then c.2 else lookupByte rest a

/-- Insert a cell before the first cell of a higher address. -/
def insertCell (c : Host.Cell) : List Host.Cell → List Host.Cell
  | [] => [c]
  | d :: rest => if c.1 < d.1 then c :: d :: rest else d :: insertCell c rest

def Memory.readByte (m : Memory) (a : Nat) : Byte := lookupByte m.cells a

/-- Write one byte, keeping the canonical form: a byte equal to what an unlisted address reads as is not listed. -/
def Memory.writeByte (m : Memory) (a : Nat) (v : Byte) : Memory :=
  let others := m.cells.filter (fun c => c.1 != a)
  if v = Config.unlistedByte then ⟨others⟩ else ⟨insertCell (a, v) others⟩

/-- The canonical form: addresses strictly rising and inside the address space, nothing listed that an unlisted
address would read as. -/
abbrev Memory.wf (m : Memory) : Prop :=
  (m.cells.map Prod.fst).Pairwise (· < ·) ∧ ∀ c ∈ m.cells, c.2 ≠ Config.unlistedByte ∧ c.1 < 2 ^ 32

/-! ## Words of the store (R32) -/

/-- An address is a multiple of 4: `addr[1:0] = 0` (R35). -/
abbrev Aligned (a : Word) : Prop := a.toNat % 4 = 0

/-- The cell that holds the `i`-th byte, bits `8 i + 7` to `8 i`, of the word at `a` (log entry 1). -/
def byteKey (a : Word) (i : Nat) : Nat := (a + BitVec.ofNat 32 i).toNat

/-- `MemRead(addr, 4)` (R32). -/
def Memory.readWord (m : Memory) (a : Word) : Word :=
  m.readByte (byteKey a 3) ++ m.readByte (byteKey a 2) ++ m.readByte (byteKey a 1) ++ m.readByte (byteKey a 0)

/-- `MemWrite(addr, 4, v)` (R32). -/
def Memory.writeWord (m : Memory) (a v : Word) : Memory :=
  let m0 := m.writeByte (byteKey a 0) (v.extractLsb' 0 8)
  let m1 := m0.writeByte (byteKey a 1) (v.extractLsb' 8 8)
  let m2 := m1.writeByte (byteKey a 2) (v.extractLsb' 16 8)
  m2.writeByte (byteKey a 3) (v.extractLsb' 24 8)

/-! ## The memory port (R31, R33) -/

/-- `addr` is in MEM_DOMAIN (R6, R32, D23). -/
def State.holds (s : State) (a : Word) : Bool :=
  decide (Aligned a) && s.memDomain.any (fun r => r.base ≤ a.toNat && a.toNat < r.base + r.size)

/-- The memory's answer to the `n`-th request from now (R33): the listed answers, then what the tail says. -/
def State.answerAt (s : State) (n : Nat) : Bool :=
  match s.grants[n]? with
  | some g => g
  | none =>
    match s.grantTail with
    | .ideal => true
    | .denying => false
    | .free => Config.grant (s.history.length + n)

/-- Whether a request to `a` issued now is granted: never outside MEM_DOMAIN (R34). -/
def State.grantsNow (s : State) (a : Word) : Bool := s.answerAt 0 && s.holds a

/-- The state after one request has been issued and answered; what a granted write stores is `Memory.writeWord`'s
business, not this one's. -/
def State.asked (s : State) (kind : RequestKind) (a : Word) : State :=
  { s with
    grants := s.grants.tail
    history := ⟨kind, a, s.grantsNow a⟩ :: s.history }

/-- The port's answer to a request, or to a stage's sequence of requests. -/
inductive PortAnswer where
  /-- Granted, with the word read (for a write, the word written). -/
  | granted (word : Word) (s : State)
  /-- Denied: nothing read, nothing written (R31). -/
  | denied (s : State)
  /-- The address is not a multiple of 4: the spec gives no step (R35). -/
  | misaligned

/-- `Req(IFETCH, a, _)` and `Req(DREAD, a, _)` (R31, R32). -/
def State.readPort (s : State) (kind : RequestKind) (a : Word) : PortAnswer :=
  if Aligned a then
    if s.grantsNow a then .granted (s.memory.readWord a) (s.asked kind a) else .denied (s.asked kind a)
  else .misaligned

/-- `Req(DWRITE, a, v)` (R31, R32). -/
def State.writePort (s : State) (a v : Word) : PortAnswer :=
  if Aligned a then
    if s.grantsNow a then
      .granted v { s.asked (.dwrite v) a with memory := s.memory.writeWord a v }
    else .denied (s.asked (.dwrite v) a)
  else .misaligned

/-- The low 8 bits of a word: what a byte load gives (R129, R165). -/
def maskByte (w : Word) : Word := w &&& 0x000000FF

/-- The low 16 bits of a word: what a halfword load gives (R127, R165). -/
def maskHalf (w : Word) : Word := w &&& 0x0000FFFF

/-- The word a byte store writes back (R133, R167). -/
def mergeByte (old v : Word) : Word := (old &&& 0xFFFFFF00) ||| (v &&& 0x000000FF)

/-- The word a halfword store writes back (R132, R167). -/
def mergeHalf (old v : Word) : Word := (old &&& 0xFFFF0000) ||| (v &&& 0x0000FFFF)

/-- The read-modify-write pair of a partial store: a DREAD, and if it is granted a DWRITE of the merged word
(R38, R167). -/
def State.updatePort (s : State) (a : Word) (merge : Word → Word) : PortAnswer :=
  match s.readPort .dread a with
  | .granted old s1 => s1.writePort a (merge old)
  | .denied s1 => .denied s1
  | .misaligned => .misaligned

/-! ## Registers -/

/-- Read of a general register: x[0] reads as zero (R11). -/
def State.reg (s : State) (r : Reg) : Word := if r = 0#5 then 0#32 else s.regs[r.toNat]'(r.isLt)

/-- Write of a general register: a write of x[0] is discarded (R11). -/
def State.setReg (s : State) (r : Reg) (v : Word) : State :=
  if r = 0#5 then s else { s with regs := s.regs.set r.toNat v r.isLt }

/-- Write of the committed program counter. -/
def State.setPc (s : State) (target : Word) : State := { s with pc := target }

/-- The address of the next word: `pc + 4` modulo 2^32 (R15, D17). -/
def State.pcPlus4 (s : State) : Word := s.pc + 4

/-- The common end of an instruction that writes one register: the write, then `pc <- pc + 4` (R90, R110). -/
def State.writeAndAdvance (s : State) (r : Reg) (v : Word) : State := (s.setReg r v).setPc s.pcPlus4

end Sys2Proof.Machine
end

