-- ==== Sys2Proof/Machine/HostInterface.lean ====
section
/-! DEFINITION. The host's calls (R250): `initialize` and `get_pc`. `advance()` is `step`. -/

namespace Sys2Proof.Machine

/-- The reset state of R27 for an execution model and an entry point, over what is behind the port: registers zero,
both pointers at the entry point, four empty latches, memory untouched. -/
def State.initialized (level : OptLevel) (entry : Word) (s : State) : State :=
  { s with
    regs := Vector.replicate 32 0
    pc := entry
    fetchPc := entry
    ifid := none
    idex := none
    exmem := none
    memwb := none
    optLevel := level }

/-- `initialize(opt_level)`: the reset, whatever the core was doing; memory keeps what was stored (R250, R252). Any
other argument is refused (D26). -/
def hostInitialize (level : Nat) (s : State) : Result :=
  match level with
  | 0 => .next (s.initialized .singleCycle Config.resetPc)
  | 1 => .next (s.initialized .pipelined Config.resetPc)
  | n => .refused (.unknownOptLevel n)

/-- `get_pc()` (R14, R223). -/
def getPc (s : State) : Word := s.pc

end Sys2Proof.Machine
end

