-- ==== Sys2Proof/Syntax.lean ====
section
/-! DEFINITION. The 32 instructions of spec/opcode_table.json, one constructor per row. A constructor carries
every field of its row, the don't-care ones (R60) too: the hazard unit compares them (R196). -/

namespace Sys2Proof

inductive Instr where
  -- R format (R51): register ALU instructions and shifts
  | add (rs rt rd : Reg) (shamt : BitVec 5)
  | sub (rs rt rd : Reg) (shamt : BitVec 5)
  | and (rs rt rd : Reg) (shamt : BitVec 5)
  | or (rs rt rd : Reg) (shamt : BitVec 5)
  | xor (rs rt rd : Reg) (shamt : BitVec 5)
  | nor (rs rt rd : Reg) (shamt : BitVec 5)
  | slt (rs rt rd : Reg) (shamt : BitVec 5)
  | sltu (rs rt rd : Reg) (shamt : BitVec 5)
  | sll (rs rt rd : Reg) (shamt : BitVec 5)
  | srl (rs rt rd : Reg) (shamt : BitVec 5)
  | sra (rs rt rd : Reg) (shamt : BitVec 5)
  | jr (rs rt rd : Reg) (shamt : BitVec 5)
  -- I format (R52): immediate ALU instructions
  | addi (rs rt : Reg) (imm : BitVec 16)
  | addiu (rs rt : Reg) (imm : BitVec 16)
  | slti (rs rt : Reg) (imm : BitVec 16)
  | sltiu (rs rt : Reg) (imm : BitVec 16)
  | andi (rs rt : Reg) (imm : BitVec 16)
  | ori (rs rt : Reg) (imm : BitVec 16)
  | xori (rs rt : Reg) (imm : BitVec 16)
  | lui (rs rt : Reg) (imm : BitVec 16)
  -- I format: loads and stores
  | lw (rs rt : Reg) (imm : BitVec 16)
  | lh (rs rt : Reg) (imm : BitVec 16)
  | lhu (rs rt : Reg) (imm : BitVec 16)
  | lb (rs rt : Reg) (imm : BitVec 16)
  | lbu (rs rt : Reg) (imm : BitVec 16)
  | sw (rs rt : Reg) (imm : BitVec 16)
  | sh (rs rt : Reg) (imm : BitVec 16)
  | sb (rs rt : Reg) (imm : BitVec 16)
  -- I format: branches
  | beq (rs rt : Reg) (imm : BitVec 16)
  | bne (rs rt : Reg) (imm : BitVec 16)
  -- J format (R53)
  | j (jaddr : BitVec 26)
  | jal (jaddr : BitVec 26)
deriving DecidableEq, Repr

end Sys2Proof
end

