-- ==== Sys2Proof/Decode.lean ====
section
/-! DEFINITION. The fields of a word (R50), the decoder (R58 to R64), and the encoder written from the same tables. -/

namespace Sys2Proof

/-! The eight fields, extracted from every word (R50). -/

def opcodeOf (w : Word) : BitVec 6 := w.extractLsb' 26 6
def rsOf (w : Word) : Reg := w.extractLsb' 21 5
def rtOf (w : Word) : Reg := w.extractLsb' 16 5
def rdOf (w : Word) : Reg := w.extractLsb' 11 5
def shamtOf (w : Word) : BitVec 5 := w.extractLsb' 6 5
def functOf (w : Word) : BitVec 6 := w.extractLsb' 0 6
def immOf (w : Word) : BitVec 16 := w.extractLsb' 0 16
def jaddrOf (w : Word) : BitVec 26 := w.extractLsb' 0 26

/-- Why a word is none of the 32 instructions. Neither stops the machine here: an unrecognized opcode is a no-op
(R61), an unlisted `funct` is refused where it would be executed (R62, R170). -/
inductive Reject where
  /-- The opcode is not in R58. -/
  | unrecognizedOpcode (opcode : BitVec 6)
  /-- Opcode 0 with a `funct` not in R59. -/
  | unlistedFunct (funct : BitVec 6)
  /-- Fewer than four bytes are left of a byte string; a fetched word is never truncated (R50). -/
  | truncated
deriving DecidableEq, Repr

/-- The twelve `funct` codes under opcode 0 (R59, D6). -/
def decodeFunct (w : Word) : Except Reject Instr :=
  let rs := rsOf w
  let rt := rtOf w
  let rd := rdOf w
  let shamt := shamtOf w
  match functOf w with
  | 0x00 => .ok (.sll rs rt rd shamt)
  | 0x02 => .ok (.srl rs rt rd shamt)
  | 0x03 => .ok (.sra rs rt rd shamt)
  | 0x08 => .ok (.jr rs rt rd shamt)
  | 0x20 => .ok (.add rs rt rd shamt)
  | 0x22 => .ok (.sub rs rt rd shamt)
  | 0x24 => .ok (.and rs rt rd shamt)
  | 0x25 => .ok (.or rs rt rd shamt)
  | 0x26 => .ok (.xor rs rt rd shamt)
  | 0x27 => .ok (.nor rs rt rd shamt)
  | 0x2A => .ok (.slt rs rt rd shamt)
  | 0x2B => .ok (.sltu rs rt rd shamt)
  | f => .error (.unlistedFunct f)

/-- The decoder, total on every word (R64): the opcode map of R58, opcode 0 by `funct`, don't-care bits kept (R60). -/
def decode (w : Word) : Except Reject Instr :=
  let rs := rsOf w
  let rt := rtOf w
  let imm := immOf w
  match opcodeOf w with
  | 0x00 => decodeFunct w
  | 0x02 => .ok (.j (jaddrOf w))
  | 0x03 => .ok (.jal (jaddrOf w))
  | 0x04 => .ok (.beq rs rt imm)
  | 0x05 => .ok (.bne rs rt imm)
  | 0x08 => .ok (.addi rs rt imm)
  | 0x09 => .ok (.addiu rs rt imm)
  | 0x0A => .ok (.slti rs rt imm)
  | 0x0B => .ok (.sltiu rs rt imm)
  | 0x0C => .ok (.andi rs rt imm)
  | 0x0D => .ok (.ori rs rt imm)
  | 0x0E => .ok (.xori rs rt imm)
  | 0x0F => .ok (.lui rs rt imm)
  | 0x20 => .ok (.lb rs rt imm)
  | 0x21 => .ok (.lh rs rt imm)
  | 0x23 => .ok (.lw rs rt imm)
  | 0x24 => .ok (.lbu rs rt imm)
  | 0x25 => .ok (.lhu rs rt imm)
  | 0x28 => .ok (.sb rs rt imm)
  | 0x29 => .ok (.sh rs rt imm)
  | 0x2B => .ok (.sw rs rt imm)
  | op => .error (.unrecognizedOpcode op)

/-- R format (R51), opcode 0. -/
def encodeR (rs rt rd : Reg) (shamt : BitVec 5) (funct : BitVec 6) : Word :=
  0#6 ++ rs ++ rt ++ rd ++ shamt ++ funct

/-- I format (R52). -/
def encodeI (opcode : BitVec 6) (rs rt : Reg) (imm : BitVec 16) : Word :=
  opcode ++ rs ++ rt ++ imm

/-- J format (R53). -/
def encodeJ (opcode : BitVec 6) (jaddr : BitVec 26) : Word :=
  opcode ++ jaddr

/-- The one word of an instruction, from R51 to R53, R58 and R59. -/
def encode : Instr → Word
  | .add rs rt rd shamt => encodeR rs rt rd shamt 0x20
  | .sub rs rt rd shamt => encodeR rs rt rd shamt 0x22
  | .and rs rt rd shamt => encodeR rs rt rd shamt 0x24
  | .or rs rt rd shamt => encodeR rs rt rd shamt 0x25
  | .xor rs rt rd shamt => encodeR rs rt rd shamt 0x26
  | .nor rs rt rd shamt => encodeR rs rt rd shamt 0x27
  | .slt rs rt rd shamt => encodeR rs rt rd shamt 0x2A
  | .sltu rs rt rd shamt => encodeR rs rt rd shamt 0x2B
  | .sll rs rt rd shamt => encodeR rs rt rd shamt 0x00
  | .srl rs rt rd shamt => encodeR rs rt rd shamt 0x02
  | .sra rs rt rd shamt => encodeR rs rt rd shamt 0x03
  | .jr rs rt rd shamt => encodeR rs rt rd shamt 0x08
  | .addi rs rt imm => encodeI 0x08 rs rt imm
  | .addiu rs rt imm => encodeI 0x09 rs rt imm
  | .slti rs rt imm => encodeI 0x0A rs rt imm
  | .sltiu rs rt imm => encodeI 0x0B rs rt imm
  | .andi rs rt imm => encodeI 0x0C rs rt imm
  | .ori rs rt imm => encodeI 0x0D rs rt imm
  | .xori rs rt imm => encodeI 0x0E rs rt imm
  | .lui rs rt imm => encodeI 0x0F rs rt imm
  | .lw rs rt imm => encodeI 0x23 rs rt imm
  | .lh rs rt imm => encodeI 0x21 rs rt imm
  | .lhu rs rt imm => encodeI 0x25 rs rt imm
  | .lb rs rt imm => encodeI 0x20 rs rt imm
  | .lbu rs rt imm => encodeI 0x24 rs rt imm
  | .sw rs rt imm => encodeI 0x2B rs rt imm
  | .sh rs rt imm => encodeI 0x29 rs rt imm
  | .sb rs rt imm => encodeI 0x28 rs rt imm
  | .beq rs rt imm => encodeI 0x04 rs rt imm
  | .bne rs rt imm => encodeI 0x05 rs rt imm
  | .j jaddr => encodeJ 0x02 jaddr
  | .jal jaddr => encodeJ 0x03 jaddr

/-- The four bytes of a word in the order memory holds them, bits 7:0 first (log entry 1). -/
def wordBytes (w : Word) : List Byte :=
  [w.extractLsb' 0 8, w.extractLsb' 8 8, w.extractLsb' 16 8, w.extractLsb' 24 8]

/-- The word four bytes make, the inverse of `wordBytes` (log entry 1). -/
def wordOfBytes (b0 b1 b2 b3 : Byte) : Word := b3 ++ b2 ++ b1 ++ b0

/-- The decoder on a byte string: one instruction and the rest. -/
def decodeBytes : List Byte → Except Reject (Instr × List Byte)
  | b0 :: b1 :: b2 :: b3 :: rest =>
    match decode (wordOfBytes b0 b1 b2 b3) with
    | .ok i => .ok (i, rest)
    | .error r => .error r
  | _ => .error .truncated

/-- A word given as the opcode table numbers bits: the low `nbits` bits of `w`, the bits above them zero. -/
def tableWord (nbits w : Nat) : Word := BitVec.ofNat 32 (w % 2 ^ nbits)

/-- What the decoder reads from a table word laid out as memory holds it. -/
def decodeTableWord (nbits w : Nat) : Option Instr :=
  match decodeBytes (wordBytes (tableWord nbits w)) with
  | .ok (i, _) => some i
  | .error _ => none

end Sys2Proof
end

