-- ==== Sys2Proof/Machine/Flags.lean ====
section
/-! DEFINITION. Every flag-like computation: the ALU's `zero` (R16, R84), the set-less-than results (R97, R98), and
the branch condition (R197). The machine has no architectural flag (R16). -/

namespace Sys2Proof.Machine

/-- `zero := (result == 0)` (R84). -/
def zeroFlag (result : Word) : Bool := result == 0

/-- 1 if `signed(a) < signed(b)` else 0: the comparison is of the integers, right across overflow (R97). -/
def setLess (a b : Word) : Word := if a.toInt < b.toInt then 1 else 0

/-- 1 if `a < b` as unsigned integers else 0 (R98). -/
def setLessUnsigned (a b : Word) : Word := if a.toNat < b.toNat then 1 else 0

/-- "Take branch iff (branch ∧ ¬bne ∧ zero) ∨ (branch ∧ bne ∧ ¬zero)" (R197). -/
def takenBranch (c : Control) (zero : Bool) : Bool := (c.branch && !c.bne && zero) || (c.branch && c.bne && !zero)

end Sys2Proof.Machine
end

