-- ==== Sys2Proof/Machine/Operands.lean ====
section
/-! DEFINITION. Every operand form the spec gives: extended immediates (R54), shift amounts (R55), branch and jump
targets (R56, R57), the effective address (R125). -/

namespace Sys2Proof.Machine

/-- `sext_32` of a 16-bit immediate (R54). -/
def sext32 (imm : BitVec 16) : Word := imm.signExtend 32

/-- `zext_32` of a 16-bit immediate (R54). -/
def zext32 (imm : BitVec 16) : Word := imm.setWidth 32

/-- The immediate in the upper half, zeros below: `lui`'s operand (R118). -/
def upperHalf (imm : BitVec 16) : Word := imm ++ 0#16

/-- `zext_32` of the 26-bit jump field, as ID carries it (R54, D16). -/
def zextJaddr (jaddr : BitVec 26) : Word := jaddr.setWidth 32

/-- `zext_32(shamt)`, ALU operand 1 of a shift (R55). -/
def zextShamt (shamt : BitVec 5) : Word := shamt.setWidth 32

/-- A branch's target from its `pc_plus_4` and its extended immediate (R56). -/
def branchTarget (pcPlus4 imm : Word) : Word := pcPlus4 + (imm <<< 2)

/-- A jump's target as the pipeline computes it, the two parts combined with OR (R57, R170). -/
def jumpTarget (pcPlus4 imm : Word) : Word := (pcPlus4 &&& 0xF0000000) ||| ((imm &&& 0x03FFFFFF) <<< 2)

/-- A jump's target as R57 writes it in full: the top four bits of `A + 4`, the 26-bit field, two zero bits. -/
def jumpAddress (pcPlus4 : Word) (jaddr : BitVec 26) : Word := pcPlus4.extractLsb' 28 4 ++ jaddr ++ 0#2

/-- `ea = (x[rs] + sext_32(imm)) mod 2^32` (R125). -/
def State.effectiveAddress (s : State) (rs : Reg) (imm : BitVec 16) : Word := s.reg rs + sext32 imm

end Sys2Proof.Machine
end

