-- ==== Sys2Proof/Machine/Control.lean ====
section
/-! DEFINITION. The control word of every word (R70 to R81), the immediate (R82), the destination register (R83) and
the resolver's choice of a redirect (R171, R197), shared by the pipeline and the reference datapath. -/

namespace Sys2Proof.Machine

/-- Every boolean false, `ALU_op = ADD`: an unrecognized opcode (R80) and the bubble (R195). -/
def Control.inert : Control := {}

/-- Opcode 0 (R73). -/
def Control.rType : Control := { regDest := true, regWrite := true, aluOp := .r }

/-- sll, srl, sra (R73). -/
def Control.shiftType : Control := { Control.rType with shift := true }

/-- jr (R73). -/
def Control.jumpRegister : Control := { regDest := true, jumpReg := true, aluOp := .r }

/-- addi, addiu, slti, sltiu (R74). -/
def Control.immediate : Control := { aluSrc := true, regWrite := true, aluOp := .i }

/-- andi, ori, xori, lui (R75). -/
def Control.immediateZext : Control := { Control.immediate with zeroExtend := true }

/-- The loads (R76). -/
def Control.load : Control := { aluSrc := true, regWrite := true, memRead := true, memToReg := true }

/-- The stores (R77). -/
def Control.store : Control := { aluSrc := true, memWrite := true }

/-- The full control word of every instruction (R81). -/
def controlOfInstr : Instr → Control
  | .add _ _ _ _ => Control.rType
  | .sub _ _ _ _ => Control.rType
  | .and _ _ _ _ => Control.rType
  | .or _ _ _ _ => Control.rType
  | .xor _ _ _ _ => Control.rType
  | .nor _ _ _ _ => Control.rType
  | .slt _ _ _ _ => Control.rType
  | .sltu _ _ _ _ => Control.rType
  | .sll _ _ _ _ => Control.shiftType
  | .srl _ _ _ _ => Control.shiftType
  | .sra _ _ _ _ => Control.shiftType
  | .jr _ _ _ _ => Control.jumpRegister
  | .addi _ _ _ => Control.immediate
  | .addiu _ _ _ => Control.immediate
  | .slti _ _ _ => Control.immediate
  | .sltiu _ _ _ => Control.immediate
  | .andi _ _ _ => Control.immediateZext
  | .ori _ _ _ => Control.immediateZext
  | .xori _ _ _ => Control.immediateZext
  | .lui _ _ _ => Control.immediateZext
  | .lw _ _ _ => Control.load
  | .lh _ _ _ => { Control.load with halfword := true }
  | .lhu _ _ _ => { Control.load with halfword := true }
  | .lb _ _ _ => { Control.load with byte := true }
  | .lbu _ _ _ => { Control.load with byte := true }
  | .sw _ _ _ => Control.store
  | .sh _ _ _ => { Control.store with halfword := true }
  | .sb _ _ _ => { Control.store with byte := true }
  | .beq _ _ _ => { branch := true, aluOp := .sub }
  | .bne _ _ _ => { branch := true, bne := true, aluOp := .sub }
  | .j _ => { jump := true }
  | .jal _ => { jump := true, link := true, regWrite := true }

/-- The control word the decoder produces for any word: an opcode-0 word with an unlisted `funct` gets the common
R-type one (R62, R73), an unrecognized opcode the inert one (R80). -/
def controlWord (w : Word) : Control :=
  match decode w with
  | .ok i => controlOfInstr i
  | .error (.unlistedFunct _) => Control.rType
  | .error (.unrecognizedOpcode _) => Control.inert
  | .error .truncated => Control.inert

/-- The immediate the decoder hands to ID/EX (R54, R82). -/
def imm32 (w : Word) (c : Control) : Word :=
  if c.zeroExtend then zext32 (immOf w) else if c.jump then zextJaddr (jaddrOf w) else sext32 (immOf w)

/-- "31 if `link`; else `rd` if `reg_dest`; else `rt`" (R83). -/
def destination (c : Control) (rt rd : Reg) : Reg := if c.link then 31 else if c.regDest then rd else rt

/-- The resolver's redirect, tested in the source's order: branch taken, else `jump`, else `jump_reg`, else none
(R171, R197). -/
def redirect (c : Control) (zero : Bool) (pcPlus4 imm op1 : Word) : Option Word :=
  if takenBranch c zero then some (branchTarget pcPlus4 imm)
  else if c.jump then some (jumpTarget pcPlus4 imm)
  else if c.jumpReg then some op1
  else none

end Sys2Proof.Machine
end

