-- ==== Sys2Proof/Machine/Hazards.lean ====
section
/-! DEFINITION. The hazard units (46_pipeline_hazards.md): operand forwarding (R190), the load-use interlock (R194) and
its bubble (R195). All read the latches as they stood at the start of the cycle (R161). -/

namespace Sys2Proof.Machine

/-- The forwarding function (R190): EX/MEM first, then MEM/WB, then the value ID read; register 0 is never
forwarded. -/
def fwd (exmem : Option ExMemPayload) (memwb : Option MemWbPayload) (src : Reg) (v : Word) : Word :=
  let older :=
    match memwb with
    | some m => if src ≠ 0#5 ∧ m.regWrite ∧ m.writeReg = src then (if m.memToReg then m.memReadData else m.aluResult) else v
    | none => v
  match exmem with
  | some e => if src ≠ 0#5 ∧ e.regWrite ∧ e.writeReg = src then e.aluResult else older
  | none => older

/-- Load-use detection: the load in ID/EX against both register fields of the word in IF/ID, used or not
(R194, R196). -/
def loadUse (idex : Option IdExPayload) (w : Word) : Bool :=
  match idex with
  | some d => d.ctl.memRead && d.rt != 0#5 && (d.rt == rsOf w || d.rt == rtOf w)
  | none => false

/-- The hazard unit asks for a stall: evaluated only when IF/ID is valid (R194). -/
def State.loadUseStall (s : State) : Bool :=
  match s.ifid with
  | some f => loadUse s.idex f.instruction
  | none => false

/-- The bubble: every signal off, the load's own `pc_plus_4`, everything else 0 (R195, D3). -/
def bubblePayload (pcPlus4 : Word) : IdExPayload :=
  { ctl := Control.inert
    pcPlus4 := pcPlus4
    readData1 := 0
    readData2 := 0
    imm := 0
    rs := 0
    rt := 0
    rd := 0
    opcode := 0
    funct := 0
    shamt := 0
    bubble := true }

end Sys2Proof.Machine
end

