-- ==== Sys2Proof/Machine/Alu.lean ====
section
/-! DEFINITION. The ALU (R84, R85). -/

namespace Sys2Proof.Machine

/-- `ALU_op = R`: the operation `funct` selects; the result for `jr` is unused and 0 (R85, D14). -/
def aluR (funct : BitVec 6) (op1 op2 : Word) : Word :=
  match funct with
  | 0x20 => op1 + op2
  | 0x22 => op1 - op2
  | 0x24 => op1 &&& op2
  | 0x25 => op1 ||| op2
  | 0x26 => op1 ^^^ op2
  | 0x27 => ~~~(op1 ||| op2)
  | 0x2A => setLess op1 op2
  | 0x2B => setLessUnsigned op1 op2
  | 0x00 => op2 <<< (op1.extractLsb' 0 5).toNat
  | 0x02 => op2 >>> (op1.extractLsb' 0 5).toNat
  | 0x03 => op2.sshiftRight (op1.extractLsb' 0 5).toNat
  | 0x08 => 0
  | f => Config.aluUnlisted f op1 op2

/-- `ALU_op = I`: the operation `opcode` selects (R85). -/
def aluI (opcode : BitVec 6) (op1 op2 : Word) : Word :=
  match opcode with
  | 0x08 => op1 + op2
  | 0x09 => op1 + op2
  | 0x0A => setLess op1 op2
  | 0x0B => setLessUnsigned op1 op2
  | 0x0C => op1 &&& op2
  | 0x0D => op1 ||| op2
  | 0x0E => op1 ^^^ op2
  | 0x0F => op2 <<< 16
  | o => Config.aluUnreached o op1 op2

/-- `ALU(ALU_op, funct, opcode, op1, op2)`; its `zero` output is `zeroFlag` of this (R84, R85). -/
def alu (op : AluOp) (funct opcode : BitVec 6) (op1 op2 : Word) : Word :=
  match op with
  | .add => op1 + op2
  | .sub => op1 - op2
  | .r => aluR funct op1 op2
  | .i => aluI opcode op1 op2

/-- The twelve `funct` codes of R59. -/
def listedFunct (funct : BitVec 6) : Bool :=
  [0x00, 0x02, 0x03, 0x08, 0x20, 0x22, 0x24, 0x25, 0x26, 0x27, 0x2A, 0x2B].contains funct

/-- The ALU is asked for an operation the spec refuses: `ALU_op = R` with an unlisted `funct` (R62, R170). -/
def aluRefuses (op : AluOp) (funct : BitVec 6) : Bool := op == .r && !listedFunct funct

end Sys2Proof.Machine
end

