-- ==== Sys2Proof/Machine/AluImmediate.lean ====
section
/-! DEFINITION. Immediate ALU instructions (42_alu_immediate.md): the architectural meaning. Operand 2 is the extended
immediate; the result goes to `rt`; then `pc <- pc + 4` (R110). -/

namespace Sys2Proof.Machine

/-- R110, with the 32-bit immediate already extended. -/
def immediateOp (f : Word → Word → Word) (rs rt : Reg) (imm : Word) (s : State) : Result :=
  .next (s.writeAndAdvance rt (f (s.reg rs) imm))

/-- R111: wraps, no overflow trap (D5). -/
def execAddi (rs rt : Reg) (imm : BitVec 16) (s : State) : Result := immediateOp (· + ·) rs rt (sext32 imm) s

/-- R112: as `addi`; the immediate is sign-extended despite the "u". -/
def execAddiu (rs rt : Reg) (imm : BitVec 16) (s : State) : Result := immediateOp (· + ·) rs rt (sext32 imm) s

/-- R113. -/
def execSlti (rs rt : Reg) (imm : BitVec 16) (s : State) : Result := immediateOp setLess rs rt (sext32 imm) s

/-- R114: sign-extended first, then compared unsigned. -/
def execSltiu (rs rt : Reg) (imm : BitVec 16) (s : State) : Result :=
  immediateOp setLessUnsigned rs rt (sext32 imm) s

/-- R115. -/
def execAndi (rs rt : Reg) (imm : BitVec 16) (s : State) : Result := immediateOp (· &&& ·) rs rt (zext32 imm) s

/-- R116. -/
def execOri (rs rt : Reg) (imm : BitVec 16) (s : State) : Result := immediateOp (· ||| ·) rs rt (zext32 imm) s

/-- R117. -/
def execXori (rs rt : Reg) (imm : BitVec 16) (s : State) : Result := immediateOp (· ^^^ ·) rs rt (zext32 imm) s

/-- R118: the immediate in the upper half; `rs` is ignored. -/
def execLui (rs rt : Reg) (imm : BitVec 16) (s : State) : Result :=
  immediateOp (fun _ upper => upper) rs rt (upperHalf imm) s

end Sys2Proof.Machine
end

