-- ==== Sys2Proof/Machine/AluRegister.lean ====
section
/-! DEFINITION. Register-register ALU and shift instructions (41_alu_register.md): the architectural meaning. `shamt`
of the first eight and `rs` of the shifts are ignored (R60). None writes a flag, touches memory or raises anything
(R90, R102). -/

namespace Sys2Proof.Machine

/-- Both sources are read before `rd` is written; then `pc <- pc + 4` (R90). -/
def registerOp (f : Word → Word → Word) (rs rt rd : Reg) (s : State) : Result :=
  .next (s.writeAndAdvance rd (f (s.reg rs) (s.reg rt)))

/-- The shifts take `x[rt]` and the 5-bit amount (R55, R99). -/
def shiftOp (f : Word → Nat → Word) (rt rd : Reg) (shamt : BitVec 5) (s : State) : Result :=
  .next (s.writeAndAdvance rd (f (s.reg rt) shamt.toNat))

/-- R91: the sum modulo 2^32, no overflow trap (D5). -/
def execAdd (rs rt rd : Reg) (_shamt : BitVec 5) (s : State) : Result := registerOp (· + ·) rs rt rd s

/-- R92. -/
def execSub (rs rt rd : Reg) (_shamt : BitVec 5) (s : State) : Result := registerOp (· - ·) rs rt rd s

/-- R93. -/
def execAnd (rs rt rd : Reg) (_shamt : BitVec 5) (s : State) : Result := registerOp (· &&& ·) rs rt rd s

/-- R94. -/
def execOr (rs rt rd : Reg) (_shamt : BitVec 5) (s : State) : Result := registerOp (· ||| ·) rs rt rd s

/-- R95. -/
def execXor (rs rt rd : Reg) (_shamt : BitVec 5) (s : State) : Result := registerOp (· ^^^ ·) rs rt rd s

/-- R96. -/
def execNor (rs rt rd : Reg) (_shamt : BitVec 5) (s : State) : Result :=
  registerOp (fun a b => ~~~(a ||| b)) rs rt rd s

/-- R97. -/
def execSlt (rs rt rd : Reg) (_shamt : BitVec 5) (s : State) : Result := registerOp setLess rs rt rd s

/-- R98. -/
def execSltu (rs rt rd : Reg) (_shamt : BitVec 5) (s : State) : Result := registerOp setLessUnsigned rs rt rd s

/-- R99. -/
def execSll (_rs rt rd : Reg) (shamt : BitVec 5) (s : State) : Result := shiftOp (fun a n => a <<< n) rt rd shamt s

/-- R100: zeros enter at the top. -/
def execSrl (_rs rt rd : Reg) (shamt : BitVec 5) (s : State) : Result := shiftOp (fun a n => a >>> n) rt rd shamt s

/-- R101: copies of bit 31 enter at the top. -/
def execSra (_rs rt rd : Reg) (shamt : BitVec 5) (s : State) : Result :=
  shiftOp (fun a n => a.sshiftRight n) rt rd shamt s

end Sys2Proof.Machine
end

