-- ==== Sys2Proof/Machine/BranchJump.lean ====
section
/-! DEFINITION. Branches and jumps (44_branch_jump.md): the architectural meaning. `A` of the spec is `pc`. There are
no delay slots (R145). -/

namespace Sys2Proof.Machine

/-- `pc` becomes the branch target if the condition holds, else `A + 4` (R146, R147). -/
def branchOp (taken : Bool) (imm : BitVec 16) (s : State) : Result :=
  .next (s.setPc (if taken then branchTarget s.pcPlus4 (sext32 imm) else s.pcPlus4))

/-- R146. -/
def execBeq (rs rt : Reg) (imm : BitVec 16) (s : State) : Result := branchOp (s.reg rs == s.reg rt) imm s

/-- R147. -/
def execBne (rs rt : Reg) (imm : BitVec 16) (s : State) : Result := branchOp (s.reg rs != s.reg rt) imm s

/-- R148. -/
def execJ (jaddr : BitVec 26) (s : State) : Result := .next (s.setPc (jumpAddress s.pcPlus4 jaddr))

/-- R149: x[31] takes `A + LINK_OFFSET`, the address of the instruction after the `jal` (C1, D2). -/
def execJal (jaddr : BitVec 26) (s : State) : Result :=
  .next ((s.setReg 31 (s.pc + Config.linkOffset)).setPc (jumpAddress s.pcPlus4 jaddr))

/-- R150: all 32 bits of `x[rs]`, no check. -/
def execJr (rs _rt _rd : Reg) (_shamt : BitVec 5) (s : State) : Result := .next (s.setPc (s.reg rs))

end Sys2Proof.Machine
end

