-- ==== Sys2Proof/Machine/LoadStore.lean ====
section
/-! DEFINITION. Loads and stores (43_load_store.md): the architectural meaning. Every width moves the whole aligned
word (R125); a misaligned address is refused for every width (R35); a denied request leaves the call without effect
(R221, D18). -/

namespace Sys2Proof.Machine

/-- A load: DREAD at the effective address, the part of the word to `rt`, `pc <- pc + 4` (R125 to R130). A denied call
leaves only the memory's answer consumed and logged. -/
def loadOp (part : Word → Word) (rs rt : Reg) (imm : BitVec 16) (s : State) : Result :=
  match s.readPort .dread (s.effectiveAddress rs imm) with
  | .granted w s1 => .next (s1.writeAndAdvance rt (part w))
  | .denied s1 => .next s1
  | .misaligned => .refused (.misalignedData (s.effectiveAddress rs imm))

/-- The end of a store, from the port's answer: nothing but `pc` is left to write (R131 to R133). -/
def storeEnd (a : Word) (answer : PortAnswer) : Result :=
  match answer with
  | .granted _ s1 => .next (s1.setPc s1.pcPlus4)
  | .denied s1 => .next s1
  | .misaligned => .refused (.misalignedData a)

/-- A partial store: read, merge, write back (R132, R133). -/
def partialStoreOp (merge : Word → Word → Word) (rs rt : Reg) (imm : BitVec 16) (s : State) : Result :=
  storeEnd (s.effectiveAddress rs imm)
    (s.updatePort (s.effectiveAddress rs imm) (fun old => merge old (s.reg rt)))

/-- R126. -/
def execLw (rs rt : Reg) (imm : BitVec 16) (s : State) : Result := loadOp (fun w => w) rs rt imm s

/-- R127: zero-extended, not sign-extended (C2). -/
def execLh (rs rt : Reg) (imm : BitVec 16) (s : State) : Result := loadOp maskHalf rs rt imm s

/-- R128. -/
def execLhu (rs rt : Reg) (imm : BitVec 16) (s : State) : Result := loadOp maskHalf rs rt imm s

/-- R129: zero-extended, not sign-extended (C2). -/
def execLb (rs rt : Reg) (imm : BitVec 16) (s : State) : Result := loadOp maskByte rs rt imm s

/-- R130. -/
def execLbu (rs rt : Reg) (imm : BitVec 16) (s : State) : Result := loadOp maskByte rs rt imm s

/-- R131: one DWRITE of `x[rt]`. -/
def execSw (rs rt : Reg) (imm : BitVec 16) (s : State) : Result :=
  storeEnd (s.effectiveAddress rs imm) (s.writePort (s.effectiveAddress rs imm) (s.reg rt))

/-- R132: the upper halfword is preserved. -/
def execSh (rs rt : Reg) (imm : BitVec 16) (s : State) : Result := partialStoreOp mergeHalf rs rt imm s

/-- R133: the upper three bytes are preserved. -/
def execSb (rs rt : Reg) (imm : BitVec 16) (s : State) : Result := partialStoreOp mergeByte rs rt imm s

end Sys2Proof.Machine
end

