-- ==== Sys2Proof/Machine/Dispatch.lean ====
section
/-! DEFINITION. One arm per instruction: the architectural meaning of files 41 to 44. -/

namespace Sys2Proof.Machine

def exec (i : Instr) (s : State) : Host.Outcome State Fault Refusal :=
  match i with
  | .add rs rt rd shamt => Sys2Proof.Machine.execAdd rs rt rd shamt s
  | .sub rs rt rd shamt => Sys2Proof.Machine.execSub rs rt rd shamt s
  | .and rs rt rd shamt => Sys2Proof.Machine.execAnd rs rt rd shamt s
  | .or rs rt rd shamt => Sys2Proof.Machine.execOr rs rt rd shamt s
  | .xor rs rt rd shamt => Sys2Proof.Machine.execXor rs rt rd shamt s
  | .nor rs rt rd shamt => Sys2Proof.Machine.execNor rs rt rd shamt s
  | .slt rs rt rd shamt => Sys2Proof.Machine.execSlt rs rt rd shamt s
  | .sltu rs rt rd shamt => Sys2Proof.Machine.execSltu rs rt rd shamt s
  | .sll rs rt rd shamt => Sys2Proof.Machine.execSll rs rt rd shamt s
  | .srl rs rt rd shamt => Sys2Proof.Machine.execSrl rs rt rd shamt s
  | .sra rs rt rd shamt => Sys2Proof.Machine.execSra rs rt rd shamt s
  | .jr rs rt rd shamt => Sys2Proof.Machine.execJr rs rt rd shamt s
  | .addi rs rt imm => Sys2Proof.Machine.execAddi rs rt imm s
  | .addiu rs rt imm => Sys2Proof.Machine.execAddiu rs rt imm s
  | .slti rs rt imm => Sys2Proof.Machine.execSlti rs rt imm s
  | .sltiu rs rt imm => Sys2Proof.Machine.execSltiu rs rt imm s
  | .andi rs rt imm => Sys2Proof.Machine.execAndi rs rt imm s
  | .ori rs rt imm => Sys2Proof.Machine.execOri rs rt imm s
  | .xori rs rt imm => Sys2Proof.Machine.execXori rs rt imm s
  | .lui rs rt imm => Sys2Proof.Machine.execLui rs rt imm s
  | .lw rs rt imm => Sys2Proof.Machine.execLw rs rt imm s
  | .lh rs rt imm => Sys2Proof.Machine.execLh rs rt imm s
  | .lhu rs rt imm => Sys2Proof.Machine.execLhu rs rt imm s
  | .lb rs rt imm => Sys2Proof.Machine.execLb rs rt imm s
  | .lbu rs rt imm => Sys2Proof.Machine.execLbu rs rt imm s
  | .sw rs rt imm => Sys2Proof.Machine.execSw rs rt imm s
  | .sh rs rt imm => Sys2Proof.Machine.execSh rs rt imm s
  | .sb rs rt imm => Sys2Proof.Machine.execSb rs rt imm s
  | .beq rs rt imm => Sys2Proof.Machine.execBeq rs rt imm s
  | .bne rs rt imm => Sys2Proof.Machine.execBne rs rt imm s
  | .j jaddr => Sys2Proof.Machine.execJ jaddr s
  | .jal jaddr => Sys2Proof.Machine.execJal jaddr s

end Sys2Proof.Machine
end

