-- ==== Sys2Proof/Machine/SingleCycle.lean ====
section
/-! DEFINITION. The single-cycle reference model (47_reference_model.md), `opt_level = 0`: one call of `advance()`
commits one instruction. `singleCycleStep` fetches, decodes and runs the meaning of files 41 to 44; `datapathStep` is
R220's own pseudocode over control words and the ALU, the same machine written the other way. -/

namespace Sys2Proof.Machine

/-- A word whose opcode is not in the map: `pc <- pc + 4` and nothing else (R61). -/
def execUnrecognized (s : State) : Result := .next (s.setPc s.pcPlus4)

/-- What a fetched word does: the decoded instruction's meaning, a no-op for an unrecognized opcode (R61), no step for
an unlisted `funct` (R62, R220). A fetched word is never truncated. -/
def execWord (w : Word) (s : State) : Result :=
  match decode w with
  | .ok i => exec i s
  | .error (.unrecognizedOpcode _) => execUnrecognized s
  | .error (.unlistedFunct f) => .refused (.unlistedFunct f)
  | .error .truncated => execUnrecognized s

/-- One IFETCH at `pc`, then the word (R220). A denied fetch leaves the call without effect (R221). -/
def fetchThen (run : Word → State → Result) (s : State) : Result :=
  match s.readPort .ifetch s.pc with
  | .granted w s1 => run w s1
  | .denied s1 => .next s1
  | .misaligned => .refused (.misalignedFetch s.pc)

/-- `advance()` with `opt_level = 0`. -/
def singleCycleStep (s : State) : Result := fetchThen execWord s

/-- The data requests a control word makes at `a` and the value they leave for the register: nothing and 0 without an
access (R164, D14), the masked word for a load (R165), the merged or plain write for a store (R166, R167). Shared by
the reference datapath and the MEM stage. DESIGN CHOICE (log entry 20): a record with both `mem_read` and `mem_write`,
which the decoder never makes and to which the spec gives no meaning (R71, D21), makes the read and drops the write. -/
def dataAccess (memRead memWrite byte halfword : Bool) (a data : Word) (s : State) : PortAnswer :=
  if memRead then
    match s.readPort .dread a with
    | .granted w s1 => .granted (if byte then maskByte w else if halfword then maskHalf w else w) s1
    | .denied s1 => .denied s1
    | .misaligned => .misaligned
  else if memWrite then
    let answer :=
      if byte then s.updatePort a (fun old => mergeByte old data)
      else if halfword then s.updatePort a (fun old => mergeHalf old data)
      else s.writePort a data
    match answer with
    | .granted _ s1 => .granted 0 s1
    | .denied s1 => .denied s1
    | .misaligned => .misaligned
  else .granted 0 s

/-- R220's body after the fetch: the pipeline's stage rules with the latches removed. -/
def datapathWord (w : Word) (s : State) : Result :=
  let c := controlWord w
  let p4 := s.pcPlus4
  let a := s.reg (rsOf w)
  let b := s.reg (rtOf w)
  let op1 := if c.shift then zextShamt (shamtOf w) else a
  let op2 := if c.aluSrc then imm32 w c else b
  let r := alu c.aluOp (functOf w) (opcodeOf w) op1 op2
  let next := (redirect c (zeroFlag r) p4 (imm32 w c) op1).getD p4
  let writeReg := destination c (rtOf w) (rdOf w)
  if aluRefuses c.aluOp (functOf w) then .refused (.unlistedFunct (functOf w))
  else
    match dataAccess c.memRead c.memWrite c.byte c.halfword r b s with
    | .misaligned => .refused (.misalignedData r)
    | .denied s1 => .next s1
    | .granted d s1 =>
      let v := if c.link then p4 else if c.memToReg then d else r
      .next ((if c.regWrite then s1.setReg writeReg v else s1).setPc next)

/-- `step_sc()` of R220. -/
def datapathStep (s : State) : Result := fetchThen datapathWord s

end Sys2Proof.Machine
end

