-- ==== Sys2Proof/Machine/Stages.lean ====
section
/-! DEFINITION. The five stage functions (45_pipeline_stages.md). -/

namespace Sys2Proof.Machine

/-! ## WB (R163) -/

/-- The value WB writes; a `jal`'s link value is in `alu_result` (R163, D2). -/
def MemWbPayload.value (m : MemWbPayload) : Word :=
  if m.link then m.aluResult else if m.memToReg then m.memReadData else m.aluResult

/-- WB: the register write, if any, then `pc <- pc_commit`, for every valid MEM/WB, bubbles included (R163). -/
def writeBack (s : State) : State :=
  match s.memwb with
  | none => s
  | some m => (if m.regWrite then s.setReg m.writeReg m.value else s).setPc m.pcCommit

/-! ## MEM (R164 to R168) -/

/-- MEM's requests, on the state WB left. -/
def memStage (e : ExMemPayload) (s : State) : PortAnswer :=
  dataAccess e.memRead e.memWrite e.byte e.halfword e.aluResult e.writeData s

/-- The MEM/WB record MEM produces when it completes (R164). -/
def memOut (e : ExMemPayload) (d : Word) : MemWbPayload :=
  { regWrite := e.regWrite
    memToReg := e.memToReg
    link := e.link
    aluResult := e.aluResult
    memReadData := d
    writeReg := e.writeReg
    pcCommit := e.pcCommit
    bubble := e.bubble }

/-! ## EX (R169 to R171) -/

/-- EX's outcome: the EX/MEM record and the resolver's redirect. -/
structure ExOut where
  exmem : ExMemPayload
  redirect : Option Word
deriving DecidableEq, Repr

/-- EX on one ID/EX record, with forwarding from the snapshot. An unlisted `funct` is refused here (R170). -/
def execute (d : IdExPayload) (exmem : Option ExMemPayload) (memwb : Option MemWbPayload) : Except Refusal ExOut :=
  let a := fwd exmem memwb d.rs d.readData1
  let b := fwd exmem memwb d.rt d.readData2
  let op1 := if d.ctl.shift then zextShamt d.shamt else a
  let op2 := if d.ctl.aluSrc then d.imm else b
  let r := alu d.ctl.aluOp d.funct d.opcode op1 op2
  let z := zeroFlag r
  let target := redirect d.ctl z d.pcPlus4 d.imm op1
  if aluRefuses d.ctl.aluOp d.funct then .error (.unlistedFunct d.funct)
  else .ok
    { exmem :=
        { regWrite := d.ctl.regWrite
          memToReg := d.ctl.memToReg
          link := d.ctl.link
          halfword := d.ctl.halfword
          byte := d.ctl.byte
          memRead := d.ctl.memRead
          memWrite := d.ctl.memWrite
          aluResult := if d.ctl.link then d.pcPlus4 else r
          writeData := b
          writeReg := destination d.ctl d.rt d.rd
          pcCommit := target.getD d.pcPlus4
          zero := z
          bubble := d.bubble }
      redirect := target }

/-- EX runs only if ID/EX is valid (R171). -/
def exStage (s : State) : Except Refusal (Option ExMemPayload × Option Word) :=
  match s.idex with
  | none => .ok (none, none)
  | some d =>
    match execute d s.exmem s.memwb with
    | .ok out => .ok (some out.exmem, out.redirect)
    | .error r => .error r

/-! ## ID (R172, R173) -/

/-- The ID/EX record of a fetched word: fields, control word, immediate, and both registers as the register file
stands (R172, R173). -/
def decodeOut (f : IfIdPayload) (s : State) : IdExPayload :=
  let w := f.instruction
  let c := controlWord w
  { ctl := c
    pcPlus4 := f.pcPlus4
    readData1 := s.reg (rsOf w)
    readData2 := s.reg (rtOf w)
    imm := imm32 w c
    rs := rsOf w
    rt := rtOf w
    rd := rdOf w
    opcode := opcodeOf w
    funct := functOf w
    shamt := shamtOf w
    bubble := false }

/-- ID on the snapshot, with the register file as WB of this cycle left it (R12, R162): the bubble on a load-use stall
(it carries the `pc_plus_4` of the load in ID/EX), else the decoded record, else an empty slot. -/
def idStage (snapshot written : State) : Option IdExPayload :=
  match snapshot.ifid with
  | none => none
  | some f =>
    if snapshot.loadUseStall then snapshot.idex.map (fun d => bubblePayload d.pcPlus4)
    else some (decodeOut f written)

/-! ## IF (R174) -/

/-- IF's outcome: the state after its request and the new IF/ID and fetch pointer. -/
structure IfOut where
  state : State
  ifid : Option IfIdPayload
  fetchPc : Word

/-- IF: no request on a load-use stall (R195, D12); else one IFETCH at `fetch_pc` (R174). -/
def ifStage (stall : Bool) (s : State) : Except Refusal IfOut :=
  if stall then .ok ⟨s, s.ifid, s.fetchPc⟩
  else
    match s.readPort .ifetch s.fetchPc with
    | .granted w s1 => .ok ⟨s1, some ⟨w, s.fetchPc + 4⟩, s.fetchPc + 4⟩
    | .denied s1 => .ok ⟨s1, none, s.fetchPc⟩
    | .misaligned => .error (.misalignedFetch s.fetchPc)

end Sys2Proof.Machine
end

