-- ==== Sys2Proof/Machine/Pipeline.lean ====
section
/-! DEFINITION. The cycle function `advance()` of CORE, `opt_level = 1` (R175). -/

namespace Sys2Proof.Machine

/-- The end of a cycle: all latches change together (R161), a redirect overriding what ID and IF produced
(R198, R199). -/
def commit (target : Option Word) (fetched : IfOut) (idex : Option IdExPayload) (exmem : Option ExMemPayload)
    (memwb : Option MemWbPayload) : State :=
  match target with
  | some t => { fetched.state with fetchPc := t, ifid := none, idex := none, exmem := exmem, memwb := memwb }
  | none =>
    { fetched.state with
      fetchPc := fetched.fetchPc, ifid := fetched.ifid, idex := idex, exmem := exmem, memwb := memwb }

/-- EX, ID and IF of a cycle in which MEM did not stall, and the commit (R175 steps 3 to 6). `snapshot` is the state at
the start of the cycle, `s` the state after WB and MEM. -/
def advanceFront (snapshot s : State) (memwb : Option MemWbPayload) : Result :=
  match exStage snapshot with
  | .error r => .refused r
  | .ok (exmem, target) =>
    match ifStage snapshot.loadUseStall s with
    | .error r => .refused r
    | .ok fetched => .next (commit target fetched (idStage snapshot s) exmem memwb)

/-- One cycle (R175): WB, MEM, and, unless MEM stalls, EX, ID and IF. In a memory-stall cycle WB alone has run and
MEM/WB is left empty (R168). -/
def advance (s : State) : Result :=
  match s.exmem with
  | none => advanceFront s (writeBack s) none
  | some e =>
    match memStage e (writeBack s) with
    | .misaligned => .refused (.misalignedData e.aluResult)
    | .denied s1 => .next { s1 with memwb := none }
    | .granted d s1 => advanceFront s s1 (some (memOut e d))

end Sys2Proof.Machine
end

