-- ==== Sys2Proof/Machine/Step.lean ====
section
/-! DEFINITION. One step is one call of `advance()`, on the execution model `initialize` selected (R2, R160). -/

namespace Sys2Proof.Machine

/-- The mode dispatcher (R9). -/
def step (s : State) : Host.Outcome State Fault Refusal :=
  match s.optLevel with
  | .singleCycle => singleCycleStep s
  | .pipelined => advance s

/-- The word stored where the next step fetches, with all it takes for that very step to fetch AND run it: the
single-cycle model selected (the one in which a call runs one instruction, R220), the fetch address populated, and the
requests of one instruction (IFETCH, DREAD, DWRITE) granted (log entries 8 and 9). -/
def State.withFetchWord (s : State) (nbits w : Nat) : State :=
  { s with
    optLevel := .singleCycle
    memory := s.memory.writeWord s.pc (tableWord nbits w)
    memDomain := if s.holds s.pc then s.memDomain else ⟨s.pc.toNat, 4⟩ :: s.memDomain
    grants := true :: true :: true :: s.grants }

end Sys2Proof.Machine
end

