-- ==== Sys2Proof/Safety.lean ====
section
/-! DEFINITION. The terms statements are made in: what an instruction leaves unchanged, the invariant of every step,
retirements, and the single-cycle run the pipeline is compared with (R222). -/

namespace Sys2Proof.Machine

/-! ## Frames -/

/-- Everything but the registers, `pc`, memory and the port's record: the fetch pointer, the four latches, MEM_DOMAIN,
the execution model and what the memory answers last. -/
structure SameOutside (s t : State) : Prop where
  fetchPc : t.fetchPc = s.fetchPc
  ifid : t.ifid = s.ifid
  idex : t.idex = s.idex
  exmem : t.exmem = s.exmem
  memwb : t.memwb = s.memwb
  memDomain : t.memDomain = s.memDomain
  optLevel : t.optLevel = s.optLevel
  grantTail : t.grantTail = s.grantTail

/-- No request was issued. -/
def NoRequest (s t : State) : Prop := t.grants = s.grants ∧ t.history = s.history

/-- Every byte of memory reads as before. -/
def SameMemory (s t : State) : Prop := ∀ a, t.memory.readByte a = s.memory.readByte a

/-- Every register reads as before. -/
def SameRegisters (s t : State) : Prop := ∀ r, t.reg r = s.reg r

/-- Every register but `d` reads as before. -/
def SameRegistersBut (d : Reg) (s t : State) : Prop := ∀ r, r ≠ d → t.reg r = s.reg r

/-- Every byte outside the word at `a` reads as before. -/
def SameMemoryOutside (a : Word) (s t : State) : Prop :=
  ∀ k, (∀ i, i < 4 → k ≠ byteKey a i) → t.memory.readByte k = s.memory.readByte k

/-- The frame of an instruction whose only effect is on the register `d` and `pc`. Register 0 reads as zero after it,
whatever `d` is. -/
structure WritesOnly (d : Reg) (s t : State) : Prop where
  registers : SameRegistersBut d s t
  zero : t.reg 0 = 0
  memory : SameMemory s t
  noRequest : NoRequest s t
  outside : SameOutside s t

/-- The frame of an instruction whose only effect is on `pc`. -/
structure WritesOnlyPc (s t : State) : Prop where
  registers : SameRegisters s t
  memory : SameMemory s t
  noRequest : NoRequest s t
  outside : SameOutside s t

/-- The frame of a completed load to `rt` from the word at `a`: one granted DREAD, no byte of memory changed. -/
structure LoadsOnly (rt : Reg) (a : Word) (s t : State) : Prop where
  registers : SameRegistersBut rt s t
  zero : t.reg 0 = 0
  memory : SameMemory s t
  history : t.history = ⟨.dread, a, true⟩ :: s.history
  outside : SameOutside s t

/-- The frame of a completed store to the word at `a`: no register changed, no byte outside the word changed. -/
structure StoresOnly (a : Word) (s t : State) : Prop where
  registers : SameRegisters s t
  memory : SameMemoryOutside a s t
  outside : SameOutside s t

/-- An instruction's row: its opcode and its control word (R58, R81). -/
def HasRow (i : Instr) (opcode : BitVec 6) (c : Control) : Prop := opcodeOf (encode i) = opcode ∧ controlWord (encode i) = c

/-- The call changed nothing but what the memory's answers and the log say (R221). -/
def UnchangedButPort (s t : State) : Prop := ∃ grants history, t = { s with grants := grants, history := history }

/-! ## The invariant of every step -/

/-- The laws of every control word the decoder makes (R71), on the signals alone. -/
structure Control.Legal (c : Control) : Prop where
  oneTransfer : (c.branch && c.jump) = false ∧ (c.branch && c.jumpReg) = false ∧ (c.jump && c.jumpReg) = false
  oneAccess : (c.memRead && c.memWrite) = false
  oneWidth : (c.halfword && c.byte) = false
  widthNeedsAccess : (c.halfword = true ∨ c.byte = true) → (c.memRead = true ∨ c.memWrite = true)
  loadIffMemToReg : c.memToReg = c.memRead
  bneIsBranch : c.bne = true → c.branch = true
  linkIsJump : c.link = true → c.jump = true ∧ c.regWrite = true
  regDest : (c.shift = true ∨ c.jumpReg = true) → c.regDest = true
  noWrite : (c.memWrite = true ∨ c.branch = true ∨ c.jumpReg = true) → c.regWrite = false

/-- ID/EX holds what ID makes of the word `w` (R173), its two register values aside. -/
structure IdExPayload.FromWord (d : IdExPayload) (w : Word) : Prop where
  ctl : d.ctl = controlWord w
  imm : d.imm = imm32 w d.ctl
  rs : d.rs = rsOf w
  rt : d.rt = rtOf w
  rd : d.rd = rdOf w
  opcode : d.opcode = opcodeOf w
  funct : d.funct = functOf w
  shamt : d.shamt = shamtOf w
  bubble : d.bubble = false

/-- Legal contents of EX/MEM (R21, R71): at most one access, at most one width, a load and only a load hands memory
data to WB, a store writes no register, a bubble does nothing. -/
structure ExMemPayload.Legal (e : ExMemPayload) : Prop where
  oneAccess : (e.memRead && e.memWrite) = false
  oneWidth : (e.halfword && e.byte) = false
  loadIffMemToReg : e.memToReg = e.memRead
  storeWritesNothing : e.memWrite = true → e.regWrite = false
  linkTarget : e.link = true → e.regWrite = true ∧ e.writeReg = 31 ∧ e.memRead = false ∧ e.memWrite = false
  bubble : e.bubble = true → e.regWrite = false ∧ e.memRead = false ∧ e.memWrite = false

/-- Legal contents of MEM/WB (R22). -/
structure MemWbPayload.Legal (m : MemWbPayload) : Prop where
  linkTarget : m.link = true → m.regWrite = true ∧ m.writeReg = 31 ∧ m.memToReg = false
  bubble : m.bubble = true → m.regWrite = false

/-- All four latches empty (R27). -/
structure State.Drained (s : State) : Prop where
  ifid : s.ifid = none
  idex : s.idex = none
  exmem : s.exmem = none
  memwb : s.memwb = none

/-- What every step keeps: the memory's canonical form, the stored x[0], no latch in use in the single-cycle model
(R220), latch contents that the stages can make (R71, R173), and the chain by which a bubble's retirement rewrites `pc`
with the value it already has (R195, C8). -/
structure State.Inv (s : State) : Prop where
  memory : s.memory.wf
  zero : s.regs[0] = 0
  noLatches : s.optLevel = .singleCycle → s.Drained
  idex : ∀ d, s.idex = some d → (∃ p, d = bubblePayload p) ∨ ∃ w, d.FromWord w
  exmem : ∀ e, s.exmem = some e → e.Legal
  memwb : ∀ m, s.memwb = some m → m.Legal
  bubbleInEx : ∀ d, s.idex = some d → d.bubble = true →
    ∃ e, s.exmem = some e ∧ e.memRead = true ∧ e.pcCommit = d.pcPlus4
  bubbleInMem : ∀ e, s.exmem = some e → e.bubble = true → ∃ m, s.memwb = some m ∧ m.pcCommit = e.pcCommit
  bubbleInWb : ∀ m, s.memwb = some m → m.bubble = true → m.pcCommit = s.pc

/-! ## Requests -/

/-- The order in which a cycle issues its requests (R41): DREAD, DWRITE, IFETCH. -/
def RequestKind.rank : RequestKind → Nat
  | .dread => 0
  | .dwrite _ => 1
  | .ifetch => 2

def RequestKind.isFetch : RequestKind → Bool
  | .ifetch => true
  | .dread => false
  | .dwrite _ => false

/-- The IFETCH requests of a log. -/
def fetches (log : List Request) : List Request := log.filter (fun r => r.kind.isFetch)

/-- The record in EX/MEM is a load or a store. -/
def ExMemPayload.accesses (e : ExMemPayload) : Bool := e.memRead || e.memWrite

/-- The record in EX/MEM makes two requests: a partial store (R167). -/
def ExMemPayload.isPartialStore (e : ExMemPayload) : Bool := !e.memRead && e.memWrite && (e.byte || e.halfword)

/-- MEM's requests of this cycle are all granted (R168): the first, and the second of a partial store. -/
def State.memGranted (s : State) (e : ExMemPayload) : Bool :=
  !e.accesses || (s.grantsNow e.aluResult && (!e.isPartialStore || s.answerAt 1))

/-- MEM does not stall in this cycle: EX/MEM is empty or all its requests are granted. -/
def State.memCompletes (s : State) : Prop := ∀ e, s.exmem = some e → s.memGranted e = true

/-! ## Retirement (R177) -/

/-- WB retires a record in this cycle, a bubble or an instruction. -/
def State.retires (s : State) : Bool := s.memwb.isSome

/-- WB retires an instruction in this cycle. -/
def State.retiresInstr (s : State) : Bool :=
  match s.memwb with
  | some m => !m.bubble
  | none => false

/-- How many of the first `k` cycles retire an instruction (R177's instruction retirement count). -/
def instrRetirements : Nat → State → Nat
  | 0, _ => 0
  | k + 1, s =>
    (if s.retiresInstr then 1 else 0) +
      match step s with
      | .next t => instrRetirements k t
      | .fault _ => 0
      | .refused _ => 0

/-! ## The single-cycle run (R222) -/

/-- The state with the requests of one instruction granted and an empty log. -/
def State.withAnswers (s : State) : State := { s with grants := [true, true, true], grantTail := .ideal, history := [] }

/-- One step of the single-cycle model: a call in which every request was granted (R221); none where it is refused or
a request is denied (an address outside MEM_DOMAIN). The log of the result is that call's requests. -/
def referenceStep (s : State) : Option State :=
  match singleCycleStep s.withAnswers with
  | .next t => if t.history.all (fun r => r.granted) then some t else none
  | .fault _ => none
  | .refused _ => none

/-- `n` steps of the single-cycle model. -/
def referenceRun : Nat → State → Option State
  | 0, s => some s
  | n + 1, s => (referenceRun n s).bind referenceStep

/-- Assumption 1 of R222: no step of the single-cycle run is refused or denied. -/
def ReferenceRuns (s : State) : Prop := ∀ n, (referenceRun n s).isSome = true

/-- Assumption 3 of R222: no instruction is fetched from a word that one of the two instructions before it stored to
(R44). -/
def NoNearSelfModification (s : State) : Prop :=
  ∀ n d t u, 1 ≤ d → d ≤ 2 → referenceRun (n + 1) s = some t → referenceRun (n + d) s = some u →
    ∀ r ∈ t.history, ∀ v, r.kind = .dwrite v → r.addr ≠ u.pc

/-- The word the `n`-th instruction of the dynamic stream is (from 0). -/
def streamWord (s : State) (n : Nat) : Option Word := (referenceRun n s).map (fun t => t.memory.readWord t.pc)

/-- The second alternative of assumption 4 of R222: no three consecutive instructions of which the first writes a
register r other than 0, the second is a load or store, and the third has r in its rs or rt field (R206, R259). -/
def NoForwardingLossPattern (s : State) : Prop :=
  ∀ n w0 w1 w2, streamWord s n = some w0 → streamWord s (n + 1) = some w1 → streamWord s (n + 2) = some w2 →
    (controlWord w0).regWrite = true → destination (controlWord w0) (rtOf w0) (rdOf w0) ≠ 0 →
    ((controlWord w1).memRead = true ∨ (controlWord w1).memWrite = true) →
    rsOf w2 ≠ destination (controlWord w0) (rtOf w0) (rdOf w0) ∧ rtOf w2 ≠ destination (controlWord w0) (rtOf w0) (rdOf w0)

/-- The first alternative of assumption 4: every DREAD and DWRITE of the log was granted. -/
def DataRequestsGranted (log : List Request) : Prop := ∀ r ∈ log, r.kind.isFetch = false → r.granted = true

end Sys2Proof.Machine
end

