-- ==== Sys2Proof/Certificates/Slice0/Obligations.lean ====
section
/-! DEFINITION. The statements for the provers, from the spec's numbered rules. -/

open Sys2Proof Sys2Proof.Machine

/-! ## Encoding and decoding (30_encoding.md, 40_decoder.md) -/

/-- No bit of an instruction is lost by its encoding: every operand, don't-care fields included, at every value
(the funct values are the spec's decision D6, log entry 15). -/
def Obligations.DecodeOfEncodeIsIdentity : Prop := ∀ i : Instr, decode (encode i) = .ok i

/-- A word that decodes is the encoding of what it decodes to: each listed word has one meaning (the funct
values are the spec's decision D6, log entry 15). -/
def Obligations.EncodeOfDecodeIsIdentity : Prop := ∀ (w : Word) (i : Instr), decode w = .ok i → encode i = w

/-- Every word is a listed instruction, an unrecognized opcode or an unlisted `funct`, by R58 and R59 alone (R63, which
the spec marks as derived; the funct values are its decision D6, log entry 15). -/
def Obligations.EveryWordHasOneOfThreeOutcomes : Prop :=
  ∀ w : Word,
    let listed : List (BitVec 6) :=
      [0x00, 0x02, 0x03, 0x04, 0x05, 0x08, 0x09, 0x0A, 0x0B, 0x0C, 0x0D, 0x0E, 0x0F, 0x20, 0x21, 0x23, 0x24, 0x25,
        0x28, 0x29, 0x2B]
    let functs : List (BitVec 6) := [0x00, 0x02, 0x03, 0x08, 0x20, 0x22, 0x24, 0x25, 0x26, 0x27, 0x2A, 0x2B]
    ((∃ i, decode w = .ok i) ∧ opcodeOf w ∈ listed ∧ (opcodeOf w = 0 → functOf w ∈ functs)) ∨
    (decode w = .error (.unrecognizedOpcode (opcodeOf w)) ∧ opcodeOf w ∉ listed) ∨
    (decode w = .error (.unlistedFunct (functOf w)) ∧ opcodeOf w = 0 ∧ functOf w ∉ functs)

/-- Words written out from R50 to R59 decode to the instruction they stand for, one of each family and one of each kind
of word outside the map (the funct values are the spec's decision D6, log entry 15). -/
def Obligations.SampleWordsDecode : Prop :=
  decode 0b000000_00001_00010_00011_00000_100000 = .ok (.add 1 2 3 0) ∧
  decode 0b000000_00000_00010_00011_11111_000011 = .ok (.sra 0 2 3 31) ∧
  decode 0b000000_11111_00000_00000_00000_001000 = .ok (.jr 31 0 0 0) ∧
  decode 0b001000_00001_00001_1111111111111111 = .ok (.addi 1 1 0xFFFF) ∧
  decode 0b100011_00001_00010_1111111111111100 = .ok (.lw 1 2 0xFFFC) ∧
  decode 0b101000_00001_00010_0000000000000000 = .ok (.sb 1 2 0) ∧
  decode 0b000101_00001_00000_1111111111111101 = .ok (.bne 1 0 0xFFFD) ∧
  decode 0b000011_00000000000000000000001000 = .ok (.jal 8) ∧
  decode 0b011100_00000_00000_0000000000000000 = .error (.unrecognizedOpcode 0x1C) ∧
  decode 0b000000_00001_00010_00011_00000_100001 = .error (.unlistedFunct 0x21)

/-- The host's entry to the decoder, on the word's bytes as memory holds them, is the decoder (log entry 1: the byte
order is the model's choice). -/
def Obligations.TableWordDecoderIsTheDecoder : Prop :=
  ∀ (w : Word) (i : Instr), decodeTableWord 32 w.toNat = some i ↔ decode w = .ok i

/-- The laws of every control word the decoder makes (R71). -/
def Obligations.ControlWordsObeyTheirLaws : Prop :=
  ∀ w : Word, (controlWord w).Legal ∧
    ((controlWord w).link = true → destination (controlWord w) (rtOf w) (rdOf w) = 31) ∧
    ((controlWord w).zeroExtend = true → imm32 w (controlWord w) = (immOf w).setWidth 32)

/-- The decode table, row by row (R73 to R80; the classes of `ALU_op` are the spec's decision D7, the funct values its
decision D6, log entry 15, and the unnamed signals of the last row its decision D20). -/
def Obligations.DecodeTableRows : Prop :=
  ∀ w : Word,
    (opcodeOf w = 0x00 → (functOf w = 0x00 ∨ functOf w = 0x02 ∨ functOf w = 0x03) →
      controlWord w = { regDest := true, regWrite := true, shift := true, aluOp := .r }) ∧
    (opcodeOf w = 0x00 → functOf w = 0x08 → controlWord w = { regDest := true, jumpReg := true, aluOp := .r }) ∧
    (opcodeOf w = 0x00 → functOf w ≠ 0x00 → functOf w ≠ 0x02 → functOf w ≠ 0x03 → functOf w ≠ 0x08 →
      controlWord w = { regDest := true, regWrite := true, aluOp := .r }) ∧
    (opcodeOf w ∈ ([0x08, 0x09, 0x0A, 0x0B] : List (BitVec 6)) →
      controlWord w = { aluSrc := true, regWrite := true, aluOp := .i }) ∧
    (opcodeOf w ∈ ([0x0C, 0x0D, 0x0E, 0x0F] : List (BitVec 6)) →
      controlWord w = { aluSrc := true, regWrite := true, zeroExtend := true, aluOp := .i }) ∧
    (opcodeOf w ∈ ([0x23, 0x21, 0x25, 0x20, 0x24] : List (BitVec 6)) →
      controlWord w = { aluSrc := true, memRead := true, memToReg := true, regWrite := true,
                        halfword := opcodeOf w == 0x21 || opcodeOf w == 0x25,
                        byte := opcodeOf w == 0x20 || opcodeOf w == 0x24 }) ∧
    (opcodeOf w ∈ ([0x2B, 0x29, 0x28] : List (BitVec 6)) →
      controlWord w = { aluSrc := true, memWrite := true, halfword := opcodeOf w == 0x29, byte := opcodeOf w == 0x28 }) ∧
    (opcodeOf w = 0x04 → controlWord w = { branch := true, aluOp := .sub }) ∧
    (opcodeOf w = 0x05 → controlWord w = { branch := true, bne := true, aluOp := .sub }) ∧
    (opcodeOf w = 0x02 → controlWord w = { jump := true }) ∧
    (opcodeOf w = 0x03 → controlWord w = { jump := true, link := true, regWrite := true }) ∧
    (opcodeOf w ∉ ([0x00, 0x02, 0x03, 0x04, 0x05, 0x08, 0x09, 0x0A, 0x0B, 0x0C, 0x0D, 0x0E, 0x0F, 0x20, 0x21, 0x23,
        0x24, 0x25, 0x28, 0x29, 0x2B] : List (BitVec 6)) → controlWord w = {})

/-- The destination register (R83): `jal` names 31, the opcode-0 words name `rd`, every other word `rt`, and the choice
is what EX puts in `write_reg`. -/
def Obligations.DestinationRegisterChoice : Prop :=
  (∀ w : Word, destination (controlWord w) (rtOf w) (rdOf w) =
    if opcodeOf w = 0x03 then 31 else if opcodeOf w = 0x00 then rdOf w else rtOf w) ∧
  ∀ (d : IdExPayload) (em : Option ExMemPayload) (mw : Option MemWbPayload) (out : ExOut),
    execute d em mw = .ok out →
    out.exmem.writeReg = if d.ctl.link then 31 else if d.ctl.regDest then d.rd else d.rt

/-- The 32-bit immediate, as the integer it stands for (R54; that a jump carries its field zero-extended is the spec's
decision D16). -/
def Obligations.ImmediateExtension : Prop :=
  ∀ w : Word,
    let imm := imm32 w (controlWord w)
    (opcodeOf w ∈ ([0x0C, 0x0D, 0x0E, 0x0F] : List (BitVec 6)) → imm.toNat = (immOf w).toNat) ∧
    (opcodeOf w ∈ ([0x02, 0x03] : List (BitVec 6)) → imm.toNat = (jaddrOf w).toNat) ∧
    (opcodeOf w ∉ ([0x02, 0x03, 0x0C, 0x0D, 0x0E, 0x0F] : List (BitVec 6)) → imm.toInt = (immOf w).toInt)

/-- The fields a format does not use have no architectural effect (R60, which the spec marks as derived). -/
def Obligations.DontCareFieldsHaveNoEffect : Prop :=
  ∀ (rs rs' rt rt' rd rd' : Reg) (sh sh' : BitVec 5) (imm : BitVec 16) (s : State),
    exec (.add rs rt rd sh) s = exec (.add rs rt rd sh') s ∧ exec (.sub rs rt rd sh) s = exec (.sub rs rt rd sh') s ∧
    exec (.and rs rt rd sh) s = exec (.and rs rt rd sh') s ∧ exec (.or rs rt rd sh) s = exec (.or rs rt rd sh') s ∧
    exec (.xor rs rt rd sh) s = exec (.xor rs rt rd sh') s ∧ exec (.nor rs rt rd sh) s = exec (.nor rs rt rd sh') s ∧
    exec (.slt rs rt rd sh) s = exec (.slt rs rt rd sh') s ∧
    exec (.sltu rs rt rd sh) s = exec (.sltu rs rt rd sh') s ∧
    exec (.sll rs rt rd sh) s = exec (.sll rs' rt rd sh) s ∧ exec (.srl rs rt rd sh) s = exec (.srl rs' rt rd sh) s ∧
    exec (.sra rs rt rd sh) s = exec (.sra rs' rt rd sh) s ∧
    exec (.jr rs rt rd sh) s = exec (.jr rs rt' rd' sh') s ∧ exec (.lui rs rt imm) s = exec (.lui rs' rt imm) s

/-! ## Registers and memory (10_state.md, 20_memory.md) -/

/-- Register 0 reads as zero and discards writes, at the register file and in WB; any other register holds what was
last written to it (R11). -/
def Obligations.RegisterZeroIsHardwired : Prop :=
  ∀ (s : State) (r q : Reg) (v : Word),
    s.reg 0 = 0 ∧ s.setReg 0 v = s ∧ (s.setReg r v).reg q = (if q = r ∧ r ≠ 0 then v else s.reg q) ∧
    (∀ m, s.memwb = some m → m.writeReg = 0 → (writeBack s).regs = s.regs)

/-- A word read gives the latest word written to the address, or what stood there before; a word write changes no byte
outside the word, and keeps memory's canonical form (R32, R36; the canonical form is the model's own, log entry 1). -/
def Obligations.MemoryReadAfterWrite : Prop :=
  ∀ (m : Memory) (a b v : Word), Aligned a → Aligned b →
    (m.writeWord a v).readWord b = (if b = a then v else m.readWord b) ∧
    (∀ k, (∀ i, i < 4 → k ≠ byteKey a i) → (m.writeWord a v).readByte k = m.readByte k) ∧
    (m.wf → (m.writeWord a v).wf)

/-! ## Register ALU instructions and shifts (41_alu_register.md). The operations' definitions are the spec's own, which
it marks as general knowledge (R85, G2), and the wrap its decision D5. -/

/-- add and sub complete for every state and operands: sum and difference modulo 2^32, nothing else changed (R91,
R92). -/
def Obligations.AddSubWrap : Prop :=
  ∀ (rs rt rd : Reg) (sh : BitVec 5) (s : State),
    (∃ t, exec (.add rs rt rd sh) s = .next t ∧ WritesOnly rd s t ∧ t.pc = s.pc + 4 ∧
      (rd ≠ 0 → (t.reg rd).toNat = ((s.reg rs).toNat + (s.reg rt).toNat) % 2 ^ 32)) ∧
    (∃ t, exec (.sub rs rt rd sh) s = .next t ∧ WritesOnly rd s t ∧ t.pc = s.pc + 4 ∧
      (rd ≠ 0 → ((t.reg rd).toNat : Int) = (((s.reg rs).toNat : Int) - ((s.reg rt).toNat : Int)) % 2 ^ 32))

/-- and, or, xor, nor complete and are bitwise (R93 to R96). -/
def Obligations.RegisterLogicIsBitwise : Prop :=
  ∀ (rs rt rd : Reg) (sh : BitVec 5) (s : State),
    let a := s.reg rs
    let b := s.reg rt
    (∃ t, exec (.and rs rt rd sh) s = .next t ∧ WritesOnly rd s t ∧ t.pc = s.pc + 4 ∧
      (rd ≠ 0 → ∀ k, k < 32 → (t.reg rd).getLsbD k = (a.getLsbD k && b.getLsbD k))) ∧
    (∃ t, exec (.or rs rt rd sh) s = .next t ∧ WritesOnly rd s t ∧ t.pc = s.pc + 4 ∧
      (rd ≠ 0 → ∀ k, k < 32 → (t.reg rd).getLsbD k = (a.getLsbD k || b.getLsbD k))) ∧
    (∃ t, exec (.xor rs rt rd sh) s = .next t ∧ WritesOnly rd s t ∧ t.pc = s.pc + 4 ∧
      (rd ≠ 0 → ∀ k, k < 32 → (t.reg rd).getLsbD k = (a.getLsbD k ^^ b.getLsbD k))) ∧
    (∃ t, exec (.nor rs rt rd sh) s = .next t ∧ WritesOnly rd s t ∧ t.pc = s.pc + 4 ∧
      (rd ≠ 0 → ∀ k, k < 32 → (t.reg rd).getLsbD k = !(a.getLsbD k || b.getLsbD k)))

/-- slt, sltu, slti, sltiu complete and give 0 or 1 by the integer comparison, signed or unsigned; the immediate is
sign-extended in both immediate forms (R97, R98, R113, R114). -/
def Obligations.SetLessThanCompares : Prop :=
  ∀ (rs rt rd : Reg) (sh : BitVec 5) (imm : BitVec 16) (s : State),
    (∃ t, exec (.slt rs rt rd sh) s = .next t ∧ WritesOnly rd s t ∧ t.pc = s.pc + 4 ∧
      (rd ≠ 0 → (t.reg rd).toNat = if (s.reg rs).toInt < (s.reg rt).toInt then 1 else 0)) ∧
    (∃ t, exec (.sltu rs rt rd sh) s = .next t ∧ WritesOnly rd s t ∧ t.pc = s.pc + 4 ∧
      (rd ≠ 0 → (t.reg rd).toNat = if (s.reg rs).toNat < (s.reg rt).toNat then 1 else 0)) ∧
    (∃ t, exec (.slti rs rt imm) s = .next t ∧ WritesOnly rt s t ∧ t.pc = s.pc + 4 ∧
      (rt ≠ 0 → (t.reg rt).toNat = if (s.reg rs).toInt < imm.toInt then 1 else 0)) ∧
    (∃ t, exec (.sltiu rs rt imm) s = .next t ∧ WritesOnly rt s t ∧ t.pc = s.pc + 4 ∧
      (rt ≠ 0 → (t.reg rt).toNat = if ((s.reg rs).toNat : Int) < imm.toInt % 2 ^ 32 then 1 else 0))

/-- sll, srl, sra complete: product modulo 2^32, unsigned and signed quotient by the power of two (R99 to R101). -/
def Obligations.ShiftsScaleByPowersOfTwo : Prop :=
  ∀ (rs rt rd : Reg) (sh : BitVec 5) (s : State),
    (∃ t, exec (.sll rs rt rd sh) s = .next t ∧ WritesOnly rd s t ∧ t.pc = s.pc + 4 ∧
      (rd ≠ 0 → (t.reg rd).toNat = (s.reg rt).toNat * 2 ^ sh.toNat % 2 ^ 32)) ∧
    (∃ t, exec (.srl rs rt rd sh) s = .next t ∧ WritesOnly rd s t ∧ t.pc = s.pc + 4 ∧
      (rd ≠ 0 → (t.reg rd).toNat = (s.reg rt).toNat / 2 ^ sh.toNat)) ∧
    (∃ t, exec (.sra rs rt rd sh) s = .next t ∧ WritesOnly rd s t ∧ t.pc = s.pc + 4 ∧
      (rd ≠ 0 → (t.reg rd).toInt = (s.reg rt).toInt / 2 ^ sh.toNat))

/-! ## Immediate ALU instructions (42_alu_immediate.md). As above, the operations are the spec's general knowledge
(R85, R118, G2), and the wrap its decision D5. -/

/-- addi and addiu complete, alike in every respect: the sum with the sign-extended immediate modulo 2^32 (R111,
R112). -/
def Obligations.AddImmediateWraps : Prop :=
  ∀ (rs rt : Reg) (imm : BitVec 16) (s : State),
    ∃ t, exec (.addi rs rt imm) s = .next t ∧ exec (.addiu rs rt imm) s = .next t ∧ WritesOnly rt s t ∧
      t.pc = s.pc + 4 ∧ (rt ≠ 0 → ((t.reg rt).toNat : Int) = (((s.reg rs).toNat : Int) + imm.toInt) % 2 ^ 32)

/-- andi, ori, xori complete and are bitwise with the zero-extended immediate; lui is the immediate times 2^16 (R115 to
R118). -/
def Obligations.ImmediateLogicAndUpper : Prop :=
  ∀ (rs rt : Reg) (imm : BitVec 16) (s : State),
    let a := s.reg rs
    (∃ t, exec (.andi rs rt imm) s = .next t ∧ WritesOnly rt s t ∧ t.pc = s.pc + 4 ∧
      (rt ≠ 0 → ∀ k, k < 32 → (t.reg rt).getLsbD k = (decide (k < 16) && (a.getLsbD k && imm.getLsbD k)))) ∧
    (∃ t, exec (.ori rs rt imm) s = .next t ∧ WritesOnly rt s t ∧ t.pc = s.pc + 4 ∧
      (rt ≠ 0 → ∀ k, k < 32 → (t.reg rt).getLsbD k = (a.getLsbD k || (decide (k < 16) && imm.getLsbD k)))) ∧
    (∃ t, exec (.xori rs rt imm) s = .next t ∧ WritesOnly rt s t ∧ t.pc = s.pc + 4 ∧
      (rt ≠ 0 → ∀ k, k < 32 → (t.reg rt).getLsbD k = (a.getLsbD k ^^ (decide (k < 16) && imm.getLsbD k)))) ∧
    (∃ t, exec (.lui rs rt imm) s = .next t ∧ WritesOnly rt s t ∧ t.pc = s.pc + 4 ∧
      (rt ≠ 0 → (t.reg rt).toNat = imm.toNat * 2 ^ 16))

/-! ## Loads and stores (43_load_store.md) -/

/-- The effective address: base plus sign-extended displacement modulo 2^32 (R125). -/
def Obligations.EffectiveAddressSum : Prop :=
  ∀ (rs : Reg) (imm : BitVec 16) (s : State),
    ((s.effectiveAddress rs imm).toNat : Int) = (((s.reg rs).toNat : Int) + imm.toInt) % 2 ^ 32

/-- The loads complete whenever the address is aligned and the DREAD granted: the word, or its low 16 or 8 bits
zero-extended (lh and lb too), to `rt`; memory unchanged (R126 to R130). -/
def Obligations.LoadsComplete : Prop :=
  ∀ (rs rt : Reg) (imm : BitVec 16) (s : State),
    let a := s.effectiveAddress rs imm
    let w := s.memory.readWord a
    let load : Control := { aluSrc := true, memRead := true, memToReg := true, regWrite := true }
    (HasRow (.lw rs rt imm) 0x23 load ∧ HasRow (.lh rs rt imm) 0x21 { load with halfword := true } ∧
      HasRow (.lhu rs rt imm) 0x25 { load with halfword := true } ∧
      HasRow (.lb rs rt imm) 0x20 { load with byte := true } ∧
      HasRow (.lbu rs rt imm) 0x24 { load with byte := true }) ∧
    (Aligned a → s.grantsNow a = true →
      (∃ t, exec (.lw rs rt imm) s = .next t ∧ LoadsOnly rt a s t ∧ t.pc = s.pc + 4 ∧ (rt ≠ 0 → t.reg rt = w)) ∧
      (∃ t, exec (.lh rs rt imm) s = .next t ∧ LoadsOnly rt a s t ∧ t.pc = s.pc + 4 ∧
        (rt ≠ 0 → (t.reg rt).toNat = w.toNat % 2 ^ 16)) ∧
      (∃ t, exec (.lhu rs rt imm) s = .next t ∧ LoadsOnly rt a s t ∧ t.pc = s.pc + 4 ∧
        (rt ≠ 0 → (t.reg rt).toNat = w.toNat % 2 ^ 16)) ∧
      (∃ t, exec (.lb rs rt imm) s = .next t ∧ LoadsOnly rt a s t ∧ t.pc = s.pc + 4 ∧
        (rt ≠ 0 → (t.reg rt).toNat = w.toNat % 2 ^ 8)) ∧
      (∃ t, exec (.lbu rs rt imm) s = .next t ∧ LoadsOnly rt a s t ∧ t.pc = s.pc + 4 ∧
        (rt ≠ 0 → (t.reg rt).toNat = w.toNat % 2 ^ 8)))

/-- The stores complete whenever the address is aligned and their requests granted (one for sw, two for sh and sb): the
word, its low half or its low byte becomes the register's, the rest of the word is kept (R131 to R133). -/
def Obligations.StoresComplete : Prop :=
  ∀ (rs rt : Reg) (imm : BitVec 16) (s : State),
    let a := s.effectiveAddress rs imm
    let old := s.memory.readWord a
    let v := s.reg rt
    (HasRow (.sw rs rt imm) 0x2B { aluSrc := true, memWrite := true } ∧
      HasRow (.sh rs rt imm) 0x29 { aluSrc := true, memWrite := true, halfword := true } ∧
      HasRow (.sb rs rt imm) 0x28 { aluSrc := true, memWrite := true, byte := true }) ∧
    (Aligned a → s.grantsNow a = true →
      (∃ t, exec (.sw rs rt imm) s = .next t ∧ StoresOnly a s t ∧ t.pc = s.pc + 4 ∧ t.memory.readWord a = v ∧
        t.history = ⟨.dwrite v, a, true⟩ :: s.history) ∧
      (s.answerAt 1 = true →
        (∃ t, exec (.sh rs rt imm) s = .next t ∧ StoresOnly a s t ∧ t.pc = s.pc + 4 ∧
          t.memory.readWord a = old.extractLsb' 16 16 ++ v.extractLsb' 0 16 ∧
          t.history = ⟨.dwrite (t.memory.readWord a), a, true⟩ :: ⟨.dread, a, true⟩ :: s.history) ∧
        (∃ t, exec (.sb rs rt imm) s = .next t ∧ StoresOnly a s t ∧ t.pc = s.pc + 4 ∧
          t.memory.readWord a = old.extractLsb' 8 24 ++ v.extractLsb' 0 8 ∧
          t.history = ⟨.dwrite (t.memory.readWord a), a, true⟩ :: ⟨.dread, a, true⟩ :: s.history)))

/-- A load or store of any width at a misaligned address is refused (R35, R125; the refusal is the spec's decision
D10). -/
def Obligations.MisalignedDataIsRefused : Prop :=
  ∀ (rs rt : Reg) (imm : BitVec 16) (s : State), ¬ Aligned (s.effectiveAddress rs imm) →
    ∀ i ∈ [Instr.lw rs rt imm, .lh rs rt imm, .lhu rs rt imm, .lb rs rt imm, .lbu rs rt imm, .sw rs rt imm,
        .sh rs rt imm, .sb rs rt imm],
      exec i s = .refused (.misalignedData (s.effectiveAddress rs imm))

/-- "`sb rX, a; lbu rY, a` yields `rY == rX & 0xFF`" and the same for halfwords, with the signed spellings too, when
the address is formed again from an unchanged base; and the load directly behind a store needs no stall (R134). -/
def Obligations.StoreThenLoadRoundTrip : Prop :=
  ∀ (rs rx ry : Reg) (imm : BitVec 16) (s t : State), ry ≠ 0 → Aligned (s.effectiveAddress rs imm) →
    (∀ n, n < 3 → s.answerAt n = true) → s.holds (s.effectiveAddress rs imm) = true →
    (exec (.sb rs rx imm) s = .next t →
      ∃ u v, exec (.lbu rs ry imm) t = .next u ∧ exec (.lb rs ry imm) t = .next v ∧
        u.reg ry = s.reg rx &&& 0xFF ∧ v.reg ry = s.reg rx &&& 0xFF) ∧
    (exec (.sh rs rx imm) s = .next t →
      ∃ u v, exec (.lhu rs ry imm) t = .next u ∧ exec (.lh rs ry imm) t = .next v ∧
        u.reg ry = s.reg rx &&& 0xFFFF ∧ v.reg ry = s.reg rx &&& 0xFFFF) ∧
    (∀ (d : IdExPayload) (w : Word), d.ctl.memWrite = true → d.ctl.Legal → loadUse (some d) w = false)

/-! ## Branches and jumps (44_branch_jump.md) -/

/-- beq and bne complete: `pc` takes the target, the offset counted in instructions from the next one, exactly when the
operands are equal (different); no register and no byte of memory changes (R146, R147). -/
def Obligations.BranchesComplete : Prop :=
  ∀ (rs rt : Reg) (imm : BitVec 16) (s : State),
    (HasRow (.beq rs rt imm) 0x04 { branch := true, aluOp := .sub } ∧
      HasRow (.bne rs rt imm) 0x05 { branch := true, bne := true, aluOp := .sub }) ∧
    (∃ t, exec (.beq rs rt imm) s = .next t ∧ WritesOnlyPc s t ∧
      (s.reg rs = s.reg rt → (t.pc.toNat : Int) = ((s.pc.toNat : Int) + 4 + imm.toInt * 4) % 2 ^ 32) ∧
      (s.reg rs ≠ s.reg rt → t.pc = s.pc + 4)) ∧
    (∃ t, exec (.bne rs rt imm) s = .next t ∧ WritesOnlyPc s t ∧
      (s.reg rs ≠ s.reg rt → (t.pc.toNat : Int) = ((s.pc.toNat : Int) + 4 + imm.toInt * 4) % 2 ^ 32) ∧
      (s.reg rs = s.reg rt → t.pc = s.pc + 4))

/-- j, jal and jr complete: j and jal go to the 26-bit field within the 256 MiB region of `A + 4`, jal links `A + 4` in
x[31] (the value is the spec's resolution C1, D2), jr goes to all 32 bits of its register (R148 to R150; the funct of
jr's row is the spec's decision D6, log entry 15). -/
def Obligations.JumpsComplete : Prop :=
  ∀ (rs rt rd : Reg) (sh : BitVec 5) (jaddr : BitVec 26) (s : State),
    (HasRow (.j jaddr) 0x02 { jump := true } ∧
      HasRow (.jal jaddr) 0x03 { jump := true, link := true, regWrite := true } ∧
      HasRow (.jr rs rt rd sh) 0x00 { regDest := true, jumpReg := true, aluOp := .r }) ∧
    (∃ t, exec (.j jaddr) s = .next t ∧ WritesOnlyPc s t ∧
      t.pc.toNat = (s.pc + 4).toNat / 2 ^ 28 * 2 ^ 28 + jaddr.toNat * 4) ∧
    (∃ t, exec (.jal jaddr) s = .next t ∧ WritesOnly 31 s t ∧ t.reg 31 = s.pc + 4 ∧
      t.pc.toNat = (s.pc + 4).toNat / 2 ^ 28 * 2 ^ 28 + jaddr.toNat * 4) ∧
    (∃ t, exec (.jr rs rt rd sh) s = .next t ∧ WritesOnlyPc s t ∧ t.pc = s.reg rs)

/-- Branch and jump targets are multiples of 4 whenever the transfer's own address is, and the pipeline's jump target,
two parts combined with OR, is the concatenation R57 writes in full (R56, R57, R151). -/
def Obligations.TransferTargetsStayAligned : Prop :=
  ∀ (p4 imm : Word) (jaddr : BitVec 26), Aligned p4 →
    Aligned (branchTarget p4 imm) ∧ Aligned (jumpTarget p4 imm) ∧ Aligned (jumpAddress p4 jaddr) ∧
    jumpTarget p4 (zextJaddr jaddr) = jumpAddress p4 jaddr

/-! ## The single-cycle model (47_reference_model.md) -/

/-- A step of the single-cycle model runs the instruction whose bytes stand at `pc`, on the state after its IFETCH:
the model moves `pc` inside the instruction's meaning and adds nothing else. -/
def Obligations.StepRunsTheDecodedInstruction : Prop :=
  ∀ (s : State) (i : Instr) (rest : List Byte), s.optLevel = .singleCycle → Aligned s.pc → s.grantsNow s.pc = true →
    decodeBytes [s.memory.readByte (byteKey s.pc 0), s.memory.readByte (byteKey s.pc 1),
      s.memory.readByte (byteKey s.pc 2), s.memory.readByte (byteKey s.pc 3)] = .ok (i, rest) →
    step s = exec i (s.asked .ifetch s.pc)

/-- A word placed with `withFetchWord` is what the very next step runs (log entries 8 and 9: placing the word and
selecting the single-cycle model are the model's own). -/
def Obligations.PlacedWordIsRunNext : Prop :=
  ∀ (s : State) (nbits w : Nat) (i : Instr), Aligned s.pc → decodeTableWord nbits w = some i →
    step (s.withFetchWord nbits w) = exec i ((s.withFetchWord nbits w).asked .ifetch s.pc)

/-- R220's body over control words, the shared ALU and the shared target and destination rules is the same machine as
the meanings of files 41 to 44, on every state: every register, memory word, request and refusal. -/
def Obligations.ReferenceDatapathEqualsMeanings : Prop := ∀ s : State, datapathStep s = singleCycleStep s

/-- A single-cycle call with a denied request changes nothing, whatever the instruction and whichever of its requests
was denied (R221, the spec's decision D18; what moves on is the memory's answers and the log, log entry 4). -/
def Obligations.DeniedCallChangesNothing : Prop :=
  ∀ (s t : State) (new : List Request), s.optLevel = .singleCycle → step s = .next t → t.history = new ++ s.history →
    (∃ r ∈ new, r.granted = false) → UnchangedButPort s t

/-- The single-cycle model has no fetch pointer and no latches: no call touches them (R220). -/
def Obligations.SingleCycleLeavesThePipelineAlone : Prop :=
  ∀ s t : State, s.optLevel = .singleCycle → step s = .next t → SameOutside s t

/-- An unrecognized opcode is a no-op that moves `pc` by 4; in the pipeline its control word is inert, it asks for no
redirect, and it carries `pc_plus_4` to retirement (R61). -/
def Obligations.UnrecognizedOpcodeIsNoOp : Prop :=
  ∀ (w : Word),
    opcodeOf w ∉ ([0x00, 0x02, 0x03, 0x04, 0x05, 0x08, 0x09, 0x0A, 0x0B, 0x0C, 0x0D, 0x0E, 0x0F, 0x20, 0x21, 0x23,
      0x24, 0x25, 0x28, 0x29, 0x2B] : List (BitVec 6)) →
    (∀ s : State, s.optLevel = .singleCycle → Aligned s.pc → s.grantsNow s.pc = true → s.memory.readWord s.pc = w →
      ∃ t, step s = .next t ∧ t.pc = s.pc + 4 ∧ SameRegisters s t ∧ SameMemory s t ∧ SameOutside s t ∧
        t.history = ⟨.ifetch, s.pc, true⟩ :: s.history) ∧
    (∀ (p4 : Word) (s : State) (em : Option ExMemPayload) (mw : Option MemWbPayload),
      ∃ out, execute (decodeOut ⟨w, p4⟩ s) em mw = .ok out ∧ out.redirect = none ∧ out.exmem.pcCommit = p4 ∧
        out.exmem.regWrite = false ∧ out.exmem.memRead = false ∧ out.exmem.memWrite = false)

/-- An opcode-0 word with an unlisted `funct` is refused where it would be executed: by the single-cycle step, and in
the pipeline by EX, not before (R62, R170; the refusal is the spec's decision D8, the twelve listed values, R59, its
decision D6, log entry 15). -/
def Obligations.UnlistedFunctIsRefusedAtExecution : Prop :=
  ∀ (w : Word), opcodeOf w = 0 →
    functOf w ∉ ([0x00, 0x02, 0x03, 0x08, 0x20, 0x22, 0x24, 0x25, 0x26, 0x27, 0x2A, 0x2B] : List (BitVec 6)) →
    (∀ s : State, s.optLevel = .singleCycle → Aligned s.pc → s.grantsNow s.pc = true → s.memory.readWord s.pc = w →
      step s = .refused (.unlistedFunct (functOf w))) ∧
    (∀ (s : State) (d : IdExPayload), s.optLevel = .pipelined → s.memCompletes → s.idex = some d → d.FromWord w →
      step s = .refused (.unlistedFunct (functOf w)))

/-! ## The five stages (45_pipeline_stages.md) -/

/-- WB runs in every cycle, memory stalls included, and is the only writer of `x` and `pc`: a valid MEM/WB writes its
register, unless that is x[0], and sets `pc` to its `pc_commit`; an empty one changes neither; MEM/WB is then empty unless
MEM refills it (R163; that a link writes `alu_result` is the spec's resolution C1 and decision D2, against the source's
`pc_commit + 4`, log entry 12). -/
def Obligations.WriteBackIsTheOnlyCommit : Prop :=
  ∀ s t : State, s.optLevel = .pipelined → step s = .next t →
    (∀ m, s.memwb = some m → t.pc = m.pcCommit ∧
      ∀ r, t.reg r =
        if m.regWrite = true ∧ m.writeReg ≠ 0 ∧ r = m.writeReg then
          (if m.link = false ∧ m.memToReg = true then m.memReadData else m.aluResult)
        else s.reg r) ∧
    (s.memwb = none → t.pc = s.pc ∧ SameRegisters s t) ∧
    (∀ m, t.memwb = some m → ∃ e, s.exmem = some e ∧ m.writeReg = e.writeReg ∧ m.pcCommit = e.pcCommit)

/-- Memory is changed only by the store in EX/MEM, and only in the word it names (R24). -/
def Obligations.OnlyMemWritesMemory : Prop :=
  ∀ s t : State, s.optLevel = .pipelined → step s = .next t →
    (∀ e, s.exmem = some e → SameMemoryOutside e.aluResult s t) ∧
    ((∀ e, s.exmem = some e → e.memWrite = false) → SameMemory s t)

/-- A denied data request makes a memory-stall cycle: WB has run, MEM/WB is empty, EX/MEM, ID/EX, IF/ID and `fetch_pc`
are held, memory is unchanged and no IFETCH is issued (R168). -/
def Obligations.MemoryStallHoldsThePipeline : Prop :=
  ∀ (s : State) (e : ExMemPayload), s.optLevel = .pipelined → s.exmem = some e → Aligned e.aluResult →
    s.memGranted e = false →
    ∃ t, step s = .next t ∧ t.memwb = none ∧ t.exmem = s.exmem ∧ t.idex = s.idex ∧ t.ifid = s.ifid ∧
      t.fetchPc = s.fetchPc ∧ t.pc = (writeBack s).pc ∧ (∀ r, t.reg r = (writeBack s).reg r) ∧ SameMemory s t ∧
      fetches t.history = fetches s.history

/-- A record that is no load or store passes MEM with no request, memory unchanged, and 0 for the memory data; a load
hands on the word, or its low 16 or 8 bits, not sign-extended (R164, R165; the 0 is the spec's decision D14). -/
def Obligations.LoadsAndNonAccessesPassMem : Prop :=
  ∀ (s t : State) (e : ExMemPayload), s.optLevel = .pipelined → s.exmem = some e → e.memWrite = false →
    s.memGranted e = true → step s = .next t →
    ∃ m, t.memwb = some m ∧ m.regWrite = e.regWrite ∧ m.memToReg = e.memToReg ∧ m.link = e.link ∧
      m.aluResult = e.aluResult ∧ m.writeReg = e.writeReg ∧ m.pcCommit = e.pcCommit ∧ m.bubble = e.bubble ∧
      SameMemory s t ∧
      (e.memRead = false → m.memReadData = 0) ∧
      (e.memRead = true → m.memReadData.toNat =
        (s.memory.readWord e.aluResult).toNat % (if e.byte then 2 ^ 8 else if e.halfword then 2 ^ 16 else 2 ^ 32))

/-- A store completes in MEM: the word, or its low 16 or 8 bits, becomes the store data, the rest of the word is kept
(R166, R167; the 0 for the memory data is the spec's decision D14). -/
def Obligations.StoresWriteInMem : Prop :=
  ∀ (s t : State) (e : ExMemPayload), s.optLevel = .pipelined → s.exmem = some e → e.memRead = false →
    e.memWrite = true → s.memGranted e = true → step s = .next t →
    let old := s.memory.readWord e.aluResult
    (∃ m, t.memwb = some m ∧ m.regWrite = e.regWrite ∧ m.writeReg = e.writeReg ∧ m.pcCommit = e.pcCommit ∧
      m.memReadData = 0) ∧
    SameMemoryOutside e.aluResult s t ∧
    t.memory.readWord e.aluResult =
      (if e.byte then old.extractLsb' 8 24 ++ e.writeData.extractLsb' 0 8
       else if e.halfword then old.extractLsb' 16 16 ++ e.writeData.extractLsb' 0 16
       else e.writeData)

/-- EX computes what the instruction means: with the operands of an architectural state `a`, whose `pc` is the
instruction's address, the EX/MEM record carries the next `pc` and the register write of the instruction's meaning, or,
for a load or store, its address and its data (R169 to R171). -/
def Obligations.ExecuteAgreesWithMeaning : Prop :=
  ∀ (a : State) (w : Word) (i : Instr) (d : IdExPayload) (em : Option ExMemPayload) (mw : Option MemWbPayload),
    decode w = .ok i → d.FromWord w → d.pcPlus4 = a.pc + 4 → fwd em mw d.rs d.readData1 = a.reg (rsOf w) →
    fwd em mw d.rt d.readData2 = a.reg (rtOf w) →
    ∃ out, execute d em mw = .ok out ∧
      (out.exmem.accesses = false →
        ∃ b, exec i a = .next b ∧ out.exmem.pcCommit = b.pc ∧
          ∀ r, b.reg r =
            if out.exmem.regWrite = true ∧ out.exmem.writeReg = r ∧ r ≠ 0 then out.exmem.aluResult else a.reg r) ∧
      (out.exmem.accesses = true →
        out.exmem.aluResult = a.effectiveAddress (rsOf w) (immOf w) ∧ out.exmem.writeData = a.reg (rtOf w) ∧
          out.exmem.pcCommit = a.pc + 4)

/-- ID decodes the word in IF/ID and reads both registers, whatever the format, after this cycle's write-back: the
values in ID/EX are the registers' values at the end of the cycle (R172, R173). -/
def Obligations.DecodeReadsAfterWriteBack : Prop :=
  ∀ (s t : State) (f : IfIdPayload), s.optLevel = .pipelined → s.memCompletes → s.ifid = some f →
    s.loadUseStall = false → (∀ em target, exStage s = .ok (em, target) → target = none) → step s = .next t →
    ∃ d, t.idex = some d ∧ d.FromWord f.instruction ∧ d.pcPlus4 = f.pcPlus4 ∧
      d.readData1 = t.reg (rsOf f.instruction) ∧ d.readData2 = t.reg (rtOf f.instruction)

/-- IF, in a cycle with no memory stall, no load-use stall and no redirect, issues its IFETCH at `fetch_pc` last: if
granted, IF/ID takes the word memory holds after this cycle's store and `fetch_pc` moves by 4; if denied, IF/ID is
empty and `fetch_pc` stays (R174; that a store of the same cycle is seen is R41 and R44, the spec's decision D12). -/
def Obligations.FetchFillsOrEmptiesIfId : Prop :=
  ∀ s t : State, s.optLevel = .pipelined → s.memCompletes → s.loadUseStall = false →
    (∀ em target, exStage s = .ok (em, target) → target = none) → step s = .next t →
    ∃ granted older, t.history = ⟨.ifetch, s.fetchPc, granted⟩ :: older ∧
      (granted = true →
        t.ifid = some ⟨t.memory.readWord s.fetchPc, s.fetchPc + 4⟩ ∧ t.fetchPc = s.fetchPc + 4) ∧
      (granted = false → t.ifid = none ∧ t.fetchPc = s.fetchPc)

/-- Empty slots move down one latch a cycle and do nothing (R23; R176, which the spec marks as derived). -/
def Obligations.EmptySlotsMoveDown : Prop :=
  ∀ s t : State, s.optLevel = .pipelined → step s = .next t →
    (s.exmem = none → t.memwb = none) ∧
    (s.memCompletes → s.idex = none → t.exmem = none) ∧
    (s.memCompletes → s.ifid = none → t.idex = none)

/-- A cycle makes at most one DREAD, one DWRITE and one IFETCH, in that order; the data requests are the EX/MEM record's
own, at its address, and the fetch is at `fetch_pc`; every address is a multiple of 4 (R31, R35, R37; the order is the
spec's decision D12). -/
def Obligations.RequestsOfOneCycle : Prop :=
  ∀ s t : State, s.optLevel = .pipelined → step s = .next t →
    ∃ new, t.history = new ++ s.history ∧ new.Pairwise (fun later earlier => earlier.kind.rank < later.kind.rank) ∧
      ∀ r ∈ new, Aligned r.addr ∧
        (r.kind = .ifetch → r.addr = s.fetchPc) ∧
        (r.kind ≠ .ifetch → ∃ e, s.exmem = some e ∧ e.accesses = true ∧ r.addr = e.aluResult ∧
          (r.kind = .dread → e.memRead = true ∨ e.isPartialStore = true) ∧
          (∀ v, r.kind = .dwrite v → e.memWrite = true))

/-- The pipeline refuses a cycle in three situations only: a misaligned data address in MEM, an unlisted `funct` in EX,
a misaligned `fetch_pc` in IF; in every other state the cycle completes (R236; the refusals are
the spec's decisions D8 and D10; that a record with both `mem_read` and `mem_write` has a step is the model's choice,
log entry 20). -/
def Obligations.PipelineRefusesOnlyThese : Prop :=
  ∀ s : State, s.optLevel = .pipelined →
    (∃ t, step s = .next t) ∨
    (∃ e, s.exmem = some e ∧ e.accesses = true ∧ ¬ Aligned e.aluResult ∧
      step s = .refused (.misalignedData e.aluResult)) ∨
    (∃ d, s.idex = some d ∧ d.ctl.aluOp = .r ∧ listedFunct d.funct = false ∧
      step s = .refused (.unlistedFunct d.funct)) ∨
    (¬ Aligned s.fetchPc ∧ step s = .refused (.misalignedFetch s.fetchPc))

/-! ## Hazards (46_pipeline_hazards.md) -/

/-- The forwarding priority: EX/MEM's result, else MEM/WB's loaded value or result, else the value ID read; never for
register 0 (R190). -/
def Obligations.ForwardingPriority : Prop :=
  ∀ (em : Option ExMemPayload) (mw : Option MemWbPayload) (src : Reg) (v : Word),
    let fromMem := ∃ e, em = some e ∧ e.regWrite = true ∧ e.writeReg = src
    let fromWb := ∃ m, mw = some m ∧ m.regWrite = true ∧ m.writeReg = src
    (src = 0 → fwd em mw src v = v) ∧
    (∀ e, src ≠ 0 → em = some e → e.regWrite = true → e.writeReg = src → fwd em mw src v = e.aluResult) ∧
    (∀ m, src ≠ 0 → ¬ fromMem → mw = some m → m.regWrite = true → m.writeReg = src →
      fwd em mw src v = if m.memToReg then m.memReadData else m.aluResult) ∧
    (¬ fromMem → ¬ fromWb → fwd em mw src v = v)

/-- Load-use detection: exactly when ID/EX holds a load whose `rt` is not 0 and equals bits [25:21] or [20:16] of the
word, whatever its format; evaluated only when IF/ID is valid; a bubble never causes a stall, so a stall lasts one
cycle (R194). -/
def Obligations.LoadUseDetection : Prop :=
  (∀ (idex : Option IdExPayload) (w : Word),
    loadUse idex w = true ↔
      ∃ d, idex = some d ∧ d.ctl.memRead = true ∧ d.rt ≠ 0 ∧
        (d.rt = w.extractLsb' 21 5 ∨ d.rt = w.extractLsb' 16 5)) ∧
  (∀ s : State, s.loadUseStall = true ↔ ∃ f, s.ifid = some f ∧ loadUse s.idex f.instruction = true) ∧
  (∀ (p4 w : Word), loadUse (some (bubblePayload p4)) w = false) ∧
  ∀ s t : State, s.optLevel = .pipelined → s.memCompletes → s.loadUseStall = true → step s = .next t →
    t.loadUseStall = false

/-- A load-use stall: a bubble enters ID/EX with every signal off and the load's `pc_plus_4`, IF/ID and `fetch_pc` are
held, no IFETCH is issued, and the load itself moves on to EX/MEM (R195; the bubble's payload is the spec's decision D3
and the missing request D12). -/
def Obligations.LoadUseStallInsertsBubble : Prop :=
  ∀ s t : State, s.Inv → s.optLevel = .pipelined → s.memCompletes → s.loadUseStall = true → step s = .next t →
    ∃ d e b, s.idex = some d ∧ t.exmem = some e ∧ t.idex = some b ∧
      e.memRead = true ∧ e.writeReg = d.rt ∧ e.pcCommit = d.pcPlus4 ∧
      b.bubble = true ∧ b.ctl = {} ∧ b.pcPlus4 = d.pcPlus4 ∧
      t.ifid = s.ifid ∧ t.fetchPc = s.fetchPc ∧ fetches t.history = fetches s.history

/-- A retiring bubble changes no register and rewrites `pc` with the value it has (R23, R195; the spec's decision D3 and
resolution C8). -/
def Obligations.BubbleRetirementChangesNothing : Prop :=
  ∀ (s t : State) (m : MemWbPayload), s.Inv → s.optLevel = .pipelined → s.memwb = some m → m.bubble = true →
    step s = .next t → t.pc = s.pc ∧ SameRegisters s t

/-- The resolver's rule, in EX, on this cycle's `zero`, computed from the forwarded operands: branch taken, else jump,
else jump register, else none; the same target becomes the record's `pc_commit` (R197, R198). -/
def Obligations.ResolverRule : Prop :=
  ∀ (d : IdExPayload) (em : Option ExMemPayload) (mw : Option MemWbPayload) (out : ExOut),
    execute d em mw = .ok out →
    let taken := (d.ctl.branch = true ∧ d.ctl.bne = false ∧ out.exmem.zero = true) ∨
      (d.ctl.branch = true ∧ d.ctl.bne = true ∧ out.exmem.zero = false)
    let op1 := if d.ctl.shift then zextShamt d.shamt else fwd em mw d.rs d.readData1
    let op2 := if d.ctl.aluSrc then d.imm else fwd em mw d.rt d.readData2
    (out.exmem.zero = true ↔ alu d.ctl.aluOp d.funct d.opcode op1 op2 = 0) ∧
    (taken → out.redirect = some (d.pcPlus4 + (d.imm <<< 2))) ∧
    (¬ taken → d.ctl.jump = true →
      out.redirect = some ((d.pcPlus4 &&& 0xF0000000) ||| ((d.imm &&& 0x03FFFFFF) <<< 2))) ∧
    (¬ taken → d.ctl.jump = false → d.ctl.jumpReg = true → out.redirect = some op1) ∧
    (¬ taken → d.ctl.jump = false → d.ctl.jumpReg = false → out.redirect = none) ∧
    (∀ target, out.redirect = some target → out.exmem.pcCommit = target) ∧
    (out.redirect = none → out.exmem.pcCommit = d.pcPlus4)

/-- A taken transfer writes `fetch_pc` and empties IF/ID and ID/EX, whatever ID and IF did in the cycle; the transfer
itself proceeds to EX/MEM with the target as its `pc_commit`, and `pc` is left to WB (R198, R199). -/
def Obligations.RedirectFlushesTwoSlots : Prop :=
  ∀ (s t : State) (d : IdExPayload) (out : ExOut) (target : Word), s.optLevel = .pipelined → s.memCompletes →
    s.idex = some d → execute d s.exmem s.memwb = .ok out → out.redirect = some target → step s = .next t →
    t.fetchPc = target ∧ t.ifid = none ∧ t.idex = none ∧ t.exmem = some out.exmem ∧ out.exmem.pcCommit = target ∧
      t.pc = (writeBack s).pc

/-- A load-use stall and a redirect never happen in the same cycle (R200, which the spec marks as derived). -/
def Obligations.StallAndRedirectExclude : Prop :=
  ∀ (s : State) (em : Option ExMemPayload) (target : Option Word), s.Inv → s.loadUseStall = true →
    exStage s = .ok (em, target) → target = none

/-- Forwarding loss: when the load or store in EX/MEM is denied while the record in MEM/WB writes the register the
record in ID/EX reads, the write retires, and after the stall cycle forwarding still gives the value ID read, not the
register's (R206, which the spec marks as derived, from R190 and R201; decision D19). -/
def Obligations.ForwardingLossUnderMemoryStall : Prop :=
  ∀ (s : State) (m : MemWbPayload) (e : ExMemPayload) (d : IdExPayload), s.optLevel = .pipelined →
    s.memwb = some m → s.exmem = some e → s.idex = some d → m.regWrite = true → m.writeReg ≠ 0 →
    Aligned e.aluResult → s.memGranted e = false → ¬ (e.regWrite = true ∧ e.writeReg = m.writeReg) →
    ∃ t, step s = .next t ∧ t.reg m.writeReg = m.value ∧ t.idex = some d ∧
      (d.rs = m.writeReg → fwd t.exmem t.memwb d.rs d.readData1 = d.readData1) ∧
      (d.rt = m.writeReg → fwd t.exmem t.memwb d.rt d.readData2 = d.readData2)

/-- A data request outside MEM_DOMAIN is never granted: once MEM/WB is empty the machine steps and nothing moves but the
memory's answers and the log (R34; that it is a denial for ever is the spec's decisions D11 and D23). -/
def Obligations.RequestOutsideDomainIsStuck : Prop :=
  ∀ (s : State) (e : ExMemPayload), s.optLevel = .pipelined → s.exmem = some e → e.accesses = true →
    Aligned e.aluResult → s.holds e.aluResult = false → s.memwb = none →
    ∃ t, step s = .next t ∧ UnchangedButPort s t

/-! ## Whole-machine rules -/

/-- Every step, of either execution model, keeps the invariant: memory's canonical form, x[0], no latch in use in the
single-cycle model, latch contents the stages can make, and the bubble's `pc` chain. -/
def Obligations.EveryStepKeepsTheInvariant : Prop := ∀ s t : State, s.Inv → step s = .next t → t.Inv

/-- The invariant holds after reset, for either execution model and any entry point, over any canonical memory. -/
def Obligations.ResetMeetsTheInvariant : Prop :=
  State.reset.Inv ∧
  ∀ (level : OptLevel) (entry : Word) (s : State), s.memory.wf → (s.initialized level entry).Inv

/-- The execution model, MEM_DOMAIN and what the memory answers last are fixed for the life of a run, and the log only
grows (R2, R17; that the model holds them in State is log entries 4, 5, 6 and 8). -/
def Obligations.ConfigurationIsFixedForARun : Prop :=
  ∀ s t : State, step s = .next t →
    t.optLevel = s.optLevel ∧ t.memDomain = s.memDomain ∧ t.grantTail = s.grantTail ∧
      ∃ new, t.history = new ++ s.history

/-- The reset state (R27: of the values of CORE's own state the spec marks the zeros of x[1..31] as derived and the rest
as its decision D4; the default entry point is log entry 3). That every byte of memory reads as an unlisted byte is the
model's own choice (log entry 1): R27 leaves memory to the host. -/
def Obligations.ResetState : Prop :=
  (∀ r, State.reset.reg r = 0) ∧ State.reset.pc = 0 ∧ State.reset.fetchPc = 0 ∧ State.reset.Drained ∧
  State.reset.optLevel = .pipelined ∧ (∀ a, State.reset.memory.readByte a = Config.unlistedByte)

/-- `initialize(0)` and `initialize(1)` select the model and give the reset state whatever the core was doing; memory
keeps what was stored; any other argument is refused (R250, R252; the spec's decisions D25 and D26). -/
def Obligations.InitializeResetsTheCore : Prop :=
  ∀ (s : State) (level : Nat),
    (level ≤ 1 → ∃ t, hostInitialize level s = .next t ∧ t.Drained ∧ (∀ r, t.reg r = 0) ∧ t.pc = Config.resetPc ∧
      t.fetchPc = Config.resetPc ∧ t.memory = s.memory ∧ t.memDomain = s.memDomain ∧
      (level = 0 → t.optLevel = .singleCycle) ∧ (level = 1 → t.optLevel = .pipelined)) ∧
    (1 < level → hostInitialize level s = .refused (.unknownOptLevel level))

/-- From an empty pipeline with every request granted, nothing retires in the first four cycles and one instruction
retires in the fifth; until then `pc` and the registers keep their values (R254, R178, which the spec marks as
derived). -/
def Obligations.FirstRetirementIsInTheFifthCycle : Prop :=
  ∀ (s t u : State) (new : List Request), s.optLevel = .pipelined → s.Drained →
    core.run 4 s = .next t → core.run 5 s = .next u → u.history = new ++ s.history →
    (∀ r ∈ new, r.granted = true) →
    instrRetirements 4 s = 0 ∧ t.pc = s.pc ∧ SameRegisters s t ∧ instrRetirements 5 s = 1

/-- The equivalence claim with its four assumptions: both models start from the same registers, memory and `pc`, with
empty latches and `fetch_pc = pc`; no step of the single-cycle run is refused or denied; no instruction is fetched
within two instructions of a store to it; and either every DREAD and DWRITE of the pipelined run was granted at once, or
the stream holds no forwarding-loss pattern. Then after any number of cycles the registers and `pc` are those of the
single-cycle model after as many steps as instructions have retired, and memory is that model's after as many steps or
one more (R222, which the spec marks as derived). -/
def Obligations.PipelineRefinesTheSingleCycleModel : Prop :=
  ∀ (s t : State) (new : List Request) (k : Nat), s.optLevel = .pipelined → s.Drained → s.fetchPc = s.pc →
    ReferenceRuns s → NoNearSelfModification s → core.run k s = .next t → t.history = new ++ s.history →
    (DataRequestsGranted new ∨ NoForwardingLossPattern s) →
    ∃ u v, referenceRun (instrRetirements k s) s = some u ∧ referenceStep u = some v ∧
      SameRegisters u t ∧ t.pc = u.pc ∧ (t.memory = u.memory ∨ t.memory = v.memory)
end

