-- ==== Sys2Proof/Laws/Encoding.lean ====
section
/-! SUPPORT. The fields of an encoded word are the fields it was made of (R50 to R53). -/

namespace Sys2Proof

theorem getLsbD_encodeR (rs rt rd : Reg) (sh : BitVec 5) (f : BitVec 6) (i : Nat) :
    (encodeR rs rt rd sh f).getLsbD i =
      if i < 6 then f.getLsbD i else if i < 11 then sh.getLsbD (i - 6) else if i < 16 then rd.getLsbD (i - 11)
      else if i < 21 then rt.getLsbD (i - 16) else if i < 26 then rs.getLsbD (i - 21) else false := by
  unfold encodeR
  simp only [BitVec.getLsbD_append, Nat.sub_sub, BitVec.getLsbD_zero]
  grind

theorem getLsbD_encodeI (op : BitVec 6) (rs rt : Reg) (imm : BitVec 16) (i : Nat) :
    (encodeI op rs rt imm).getLsbD i =
      if i < 16 then imm.getLsbD i else if i < 21 then rt.getLsbD (i - 16) else if i < 26 then rs.getLsbD (i - 21)
      else op.getLsbD (i - 26) := by
  unfold encodeI
  simp only [BitVec.getLsbD_append, Nat.sub_sub]
  grind

theorem getLsbD_encodeJ (op : BitVec 6) (jaddr : BitVec 26) (i : Nat) :
    (encodeJ op jaddr).getLsbD i = if i < 26 then jaddr.getLsbD i else op.getLsbD (i - 26) := by
  unfold encodeJ
  simp only [BitVec.getLsbD_append]

@[simp] theorem opcodeOf_encodeR (rs rt rd : Reg) (sh : BitVec 5) (f : BitVec 6) :
    opcodeOf (encodeR rs rt rd sh f) = 0#6 := by
  apply BitVec.eq_of_getLsbD_eq; intro i hi
  simp only [opcodeOf, BitVec.getLsbD_extractLsb', getLsbD_encodeR]; grind

@[simp] theorem rsOf_encodeR (rs rt rd : Reg) (sh : BitVec 5) (f : BitVec 6) : rsOf (encodeR rs rt rd sh f) = rs := by
  apply BitVec.eq_of_getLsbD_eq; intro i hi
  simp only [rsOf, BitVec.getLsbD_extractLsb', getLsbD_encodeR]; grind

@[simp] theorem rtOf_encodeR (rs rt rd : Reg) (sh : BitVec 5) (f : BitVec 6) : rtOf (encodeR rs rt rd sh f) = rt := by
  apply BitVec.eq_of_getLsbD_eq; intro i hi
  simp only [rtOf, BitVec.getLsbD_extractLsb', getLsbD_encodeR]; grind

@[simp] theorem rdOf_encodeR (rs rt rd : Reg) (sh : BitVec 5) (f : BitVec 6) : rdOf (encodeR rs rt rd sh f) = rd := by
  apply BitVec.eq_of_getLsbD_eq; intro i hi
  simp only [rdOf, BitVec.getLsbD_extractLsb', getLsbD_encodeR]; grind

@[simp] theorem shamtOf_encodeR (rs rt rd : Reg) (sh : BitVec 5) (f : BitVec 6) :
    shamtOf (encodeR rs rt rd sh f) = sh := by
  apply BitVec.eq_of_getLsbD_eq; intro i hi
  simp only [shamtOf, BitVec.getLsbD_extractLsb', getLsbD_encodeR]; grind

@[simp] theorem functOf_encodeR (rs rt rd : Reg) (sh : BitVec 5) (f : BitVec 6) :
    functOf (encodeR rs rt rd sh f) = f := by
  apply BitVec.eq_of_getLsbD_eq; intro i hi
  simp only [functOf, BitVec.getLsbD_extractLsb', getLsbD_encodeR]; grind

@[simp] theorem opcodeOf_encodeI (op : BitVec 6) (rs rt : Reg) (imm : BitVec 16) :
    opcodeOf (encodeI op rs rt imm) = op := by
  apply BitVec.eq_of_getLsbD_eq; intro i hi
  simp only [opcodeOf, BitVec.getLsbD_extractLsb', getLsbD_encodeI]; grind

@[simp] theorem rsOf_encodeI (op : BitVec 6) (rs rt : Reg) (imm : BitVec 16) : rsOf (encodeI op rs rt imm) = rs := by
  apply BitVec.eq_of_getLsbD_eq; intro i hi
  simp only [rsOf, BitVec.getLsbD_extractLsb', getLsbD_encodeI]; grind

@[simp] theorem rtOf_encodeI (op : BitVec 6) (rs rt : Reg) (imm : BitVec 16) : rtOf (encodeI op rs rt imm) = rt := by
  apply BitVec.eq_of_getLsbD_eq; intro i hi
  simp only [rtOf, BitVec.getLsbD_extractLsb', getLsbD_encodeI]; grind

@[simp] theorem immOf_encodeI (op : BitVec 6) (rs rt : Reg) (imm : BitVec 16) :
    immOf (encodeI op rs rt imm) = imm := by
  apply BitVec.eq_of_getLsbD_eq; intro i hi
  simp only [immOf, BitVec.getLsbD_extractLsb', getLsbD_encodeI]; grind

@[simp] theorem opcodeOf_encodeJ (op : BitVec 6) (jaddr : BitVec 26) : opcodeOf (encodeJ op jaddr) = op := by
  apply BitVec.eq_of_getLsbD_eq; intro i hi
  simp only [opcodeOf, BitVec.getLsbD_extractLsb', getLsbD_encodeJ]; grind

@[simp] theorem jaddrOf_encodeJ (op : BitVec 6) (jaddr : BitVec 26) : jaddrOf (encodeJ op jaddr) = jaddr := by
  apply BitVec.eq_of_getLsbD_eq; intro i hi
  simp only [jaddrOf, BitVec.getLsbD_extractLsb', getLsbD_encodeJ]; grind

/-- A word is its R-format fields; the encoder inverts the extraction. -/
theorem encodeR_fields (w : Word) (h : opcodeOf w = 0#6) :
    encodeR (rsOf w) (rtOf w) (rdOf w) (shamtOf w) (functOf w) = w := by
  have hz : ∀ i, 26 ≤ i → i < 32 → w.getLsbD i = false := by
    intro i h1 h2
    have := congrArg (fun b : BitVec 6 => b.getLsbD (i - 26)) h
    simp only [opcodeOf, BitVec.getLsbD_extractLsb'] at this
    grind
  apply BitVec.eq_of_getLsbD_eq; intro i hi
  simp only [getLsbD_encodeR, rsOf, rtOf, rdOf, shamtOf, functOf, BitVec.getLsbD_extractLsb']
  grind

theorem encodeI_fields (w : Word) : encodeI (opcodeOf w) (rsOf w) (rtOf w) (immOf w) = w := by
  apply BitVec.eq_of_getLsbD_eq; intro i hi
  simp only [getLsbD_encodeI, opcodeOf, rsOf, rtOf, immOf, BitVec.getLsbD_extractLsb']
  grind

theorem encodeJ_fields (w : Word) : encodeJ (opcodeOf w) (jaddrOf w) = w := by
  apply BitVec.eq_of_getLsbD_eq; intro i hi
  simp only [getLsbD_encodeJ, opcodeOf, jaddrOf, BitVec.getLsbD_extractLsb']
  grind

/-- Laying a word out as bytes and putting it together again is the identity. -/
@[simp] theorem wordOfBytes_wordBytes (w : Word) :
    wordOfBytes (w.extractLsb' 0 8) (w.extractLsb' 8 8) (w.extractLsb' 16 8) (w.extractLsb' 24 8) = w := by
  unfold wordOfBytes
  rw [BitVec.extractLsb'_append_extractLsb'_eq_extractLsb' (by rfl),
    BitVec.extractLsb'_append_extractLsb'_eq_extractLsb' (by rfl),
    BitVec.extractLsb'_append_extractLsb'_eq_extractLsb' (by rfl)]
  exact BitVec.extractLsb'_eq_self

/-- The decoder on bytes is the decoder on the word they make. -/
theorem decodeBytes_wordBytes (w : Word) :
    decodeBytes (wordBytes w) = (match decode w with | .ok i => .ok (i, []) | .error r => .error r) := by
  cases h : decode w <;> simp only [wordBytes, decodeBytes, wordOfBytes_wordBytes, h]

end Sys2Proof
end

