-- ==== Sys2Proof/Laws/Memory.lean ====
section
/-! SUPPORT. The store's laws: read after write, byte by byte and word by word, and the canonical form every write
keeps. -/

namespace Sys2Proof.Machine

/-! ## Cells -/

theorem lookupByte_insertCell (c : Host.Cell) (cells : List Host.Cell) (h : ∀ d ∈ cells, d.1 ≠ c.1) (a : Nat) :
    lookupByte (insertCell c cells) a = if c.1 = a then c.2 else lookupByte cells a := by
  induction cells with
  | nil => simp [insertCell, lookupByte]
  | cons d rest ih =>
    have hd : d.1 ≠ c.1 := h d (by simp)
    have hr := ih (fun x hx => h x (by simp [hx]))
    unfold insertCell
    split
    · simp [lookupByte]
    · by_cases hc : c.1 = a
      · have : d.1 ≠ a := fun e => hd (e.trans hc.symm)
        simp [lookupByte, this, hr, hc]
      · simp [lookupByte, hr, hc]

theorem lookupByte_filter (cells : List Host.Cell) (b a : Nat) :
    lookupByte (cells.filter (fun c => c.1 != b)) a = if b = a then Config.unlistedByte else lookupByte cells a := by
  induction cells with
  | nil => simp [lookupByte]
  | cons d rest ih =>
    by_cases hd : d.1 = b
    · rw [List.filter_cons_of_neg (by simp [hd]), ih]
      by_cases hb : b = a
      · simp [hb]
      · simp [lookupByte, hb, hd]
    · rw [List.filter_cons_of_pos (by simp [hd])]
      by_cases hb : b = a
      · subst hb; simp [lookupByte, hd, ih]
      · simp [lookupByte, ih, hb]

theorem mem_insertCell (c d : Host.Cell) (cells : List Host.Cell) :
    d ∈ insertCell c cells ↔ d = c ∨ d ∈ cells := by
  induction cells with
  | nil => simp [insertCell]
  | cons e rest ih =>
    unfold insertCell
    split
    · simp
    · simp [ih]; tauto

theorem insertCell_rising (c : Host.Cell) (cells : List Host.Cell) (h : (cells.map Prod.fst).Pairwise (· < ·))
    (hc : ∀ d ∈ cells, d.1 ≠ c.1) : ((insertCell c cells).map Prod.fst).Pairwise (· < ·) := by
  induction cells with
  | nil => simp [insertCell]
  | cons d rest ih =>
    simp only [List.map_cons, List.pairwise_cons] at h
    unfold insertCell
    split
    · rename_i hlt
      simp only [List.map_cons, List.pairwise_cons]
      refine ⟨?_, h.1, h.2⟩
      intro x hx
      simp only [List.mem_cons] at hx
      rcases hx with rfl | hx
      · exact hlt
      · exact lt_trans hlt (h.1 x hx)
    · rename_i hlt
      have hne := hc d (by simp)
      simp only [List.map_cons, List.pairwise_cons]
      refine ⟨?_, ih h.2 (fun x hx => hc x (by simp [hx]))⟩
      intro x hx
      obtain ⟨e, he, rfl⟩ := List.mem_map.1 hx
      rcases (mem_insertCell c e rest).1 he with rfl | he
      · omega
      · exact h.1 _ (List.mem_map.2 ⟨e, he, rfl⟩)

/-! ## Bytes -/

/-- Read after write, whatever the memory holds. -/
theorem Memory.readByte_writeByte (m : Memory) (a b : Nat) (v : Byte) :
    (m.writeByte a v).readByte b = if a = b then v else m.readByte b := by
  unfold Memory.writeByte Memory.readByte
  split
  · rename_i hv
    simp only [lookupByte_filter, hv]
  · rw [lookupByte_insertCell]
    · by_cases h : a = b
      · simp [h]
      · simp only [lookupByte_filter, h, if_false]
    · intro d hd
      simpa using (List.mem_filter.1 hd).2

/-- Every byte write keeps the canonical form. -/
theorem Memory.wf_writeByte (m : Memory) (a : Nat) (v : Byte) (ha : a < 2 ^ 32) (h : m.wf) : (m.writeByte a v).wf := by
  have hf : ((m.cells.filter (fun c => c.1 != a)).map Prod.fst).Pairwise (· < ·) :=
    h.1.sublist (List.filter_sublist.map _)
  unfold Memory.writeByte
  split
  · exact ⟨hf, fun c hc => h.2 c (List.mem_filter.1 hc).1⟩
  · rename_i hv
    refine ⟨insertCell_rising _ _ hf (fun d hd => by simpa using (List.mem_filter.1 hd).2), ?_⟩
    intro c hc
    rcases (mem_insertCell _ _ _).1 hc with rfl | hc
    · exact ⟨hv, ha⟩
    · exact h.2 c (List.mem_filter.1 hc).1

theorem Memory.wf_empty : Memory.empty.wf := by decide

/-! ## Words -/

theorem byteKey_lt (a : Word) (i : Nat) : byteKey a i < 2 ^ 32 := (a + BitVec.ofNat 32 i).isLt

/-- The bytes of an aligned word stand at four consecutive addresses. -/
theorem byteKey_aligned (a : Word) (h : Aligned a) (i : Nat) (hi : i < 4) : byteKey a i = a.toNat + i := by
  unfold byteKey
  have := a.isLt
  have h4 : a.toNat % 4 = 0 := h
  simp only [BitVec.toNat_add, BitVec.toNat_ofNat]
  omega

theorem byteKey_inj (a : Word) (i j : Nat) (hi : i < 4) (hj : j < 4) (h : byteKey a i = byteKey a j) : i = j := by
  unfold byteKey at h
  simp only [BitVec.toNat_add, BitVec.toNat_ofNat] at h
  have := a.isLt
  omega

/-- Two different aligned words share no byte. -/
theorem byteKey_disjoint (a b : Word) (ha : Aligned a) (hb : Aligned b) (h : a ≠ b) (i j : Nat) (hi : i < 4)
    (hj : j < 4) : byteKey a i ≠ byteKey b j := by
  rw [byteKey_aligned a ha i hi, byteKey_aligned b hb j hj]
  have : a.toNat ≠ b.toNat := fun e => h (BitVec.eq_of_toNat_eq e)
  have h1 : a.toNat % 4 = 0 := ha
  have h2 : b.toNat % 4 = 0 := hb
  omega

/-- A word write leaves every byte outside the word alone. -/
theorem Memory.readByte_writeWord_outside (m : Memory) (a v : Word) (k : Nat)
    (h : ∀ i, i < 4 → k ≠ byteKey a i) : (m.writeWord a v).readByte k = m.readByte k := by
  have h0 := (h 0 (by omega)).symm
  have h1 := (h 1 (by omega)).symm
  have h2 := (h 2 (by omega)).symm
  have h3 := (h 3 (by omega)).symm
  simp only [Memory.writeWord, Memory.readByte_writeByte, h0, h1, h2, h3, if_false]

/-- The four bytes a word write stores. -/
theorem Memory.readByte_writeWord_inside (m : Memory) (a v : Word) (i : Nat) (hi : i < 4) :
    (m.writeWord a v).readByte (byteKey a i) = v.extractLsb' (8 * i) 8 := by
  have ne : ∀ j, j < 4 → j ≠ i → byteKey a j ≠ byteKey a i := fun j hj hji e => hji (byteKey_inj a j i hj hi e)
  have : i = 0 ∨ i = 1 ∨ i = 2 ∨ i = 3 := by omega
  rcases this with rfl | rfl | rfl | rfl
  · simp only [Memory.writeWord, Memory.readByte_writeByte, ne 1 (by omega) (by omega), ne 2 (by omega) (by omega),
      ne 3 (by omega) (by omega), if_false, if_true]
  · simp only [Memory.writeWord, Memory.readByte_writeByte, ne 2 (by omega) (by omega), ne 3 (by omega) (by omega),
      if_false, if_true]
  · simp only [Memory.writeWord, Memory.readByte_writeByte, ne 3 (by omega) (by omega), if_false, if_true]
  · simp only [Memory.writeWord, Memory.readByte_writeByte, if_true]

/-- A word is its four bytes. -/
theorem word_of_bytes (v : Word) :
    v.extractLsb' 24 8 ++ v.extractLsb' 16 8 ++ v.extractLsb' 8 8 ++ v.extractLsb' 0 8 = v := by
  rw [BitVec.extractLsb'_append_extractLsb'_eq_extractLsb' (by rfl),
    BitVec.extractLsb'_append_extractLsb'_eq_extractLsb' (by rfl),
    BitVec.extractLsb'_append_extractLsb'_eq_extractLsb' (by rfl)]
  exact BitVec.extractLsb'_eq_self

/-- Word read after word write at the same address. -/
theorem Memory.readWord_writeWord_self (m : Memory) (a v : Word) : (m.writeWord a v).readWord a = v := by
  unfold Memory.readWord
  rw [Memory.readByte_writeWord_inside m a v 0 (by omega), Memory.readByte_writeWord_inside m a v 1 (by omega),
    Memory.readByte_writeWord_inside m a v 2 (by omega), Memory.readByte_writeWord_inside m a v 3 (by omega)]
  exact word_of_bytes v

/-- Word read after word write at another aligned address. -/
theorem Memory.readWord_writeWord_ne (m : Memory) (a b v : Word) (ha : Aligned a) (hb : Aligned b) (h : b ≠ a) :
    (m.writeWord a v).readWord b = m.readWord b := by
  have out : ∀ j, j < 4 → (m.writeWord a v).readByte (byteKey b j) = m.readByte (byteKey b j) := fun j hj =>
    Memory.readByte_writeWord_outside m a v _ (fun i hi => byteKey_disjoint b a hb ha h j i hj hi)
  unfold Memory.readWord
  rw [out 0 (by omega), out 1 (by omega), out 2 (by omega), out 3 (by omega)]

/-- Every word write keeps the canonical form. -/
theorem Memory.wf_writeWord (m : Memory) (a v : Word) (h : m.wf) : (m.writeWord a v).wf := by
  unfold Memory.writeWord
  exact Memory.wf_writeByte _ _ _ (byteKey_lt a 3) (Memory.wf_writeByte _ _ _ (byteKey_lt a 2)
    (Memory.wf_writeByte _ _ _ (byteKey_lt a 1) (Memory.wf_writeByte _ _ _ (byteKey_lt a 0) h)))

/-- A memory is determined by its listed bytes: reading the same words at the bytes of one word gives the same word. -/
theorem Memory.readWord_congr {m n : Memory} (h : ∀ k, m.readByte k = n.readByte k) (a : Word) :
    m.readWord a = n.readWord a := by
  unfold Memory.readWord; simp only [h]

end Sys2Proof.Machine
end

