-- ==== Sys2Proof/Laws/State.lean ====
section
/-! SUPPORT. One lemma per field per update of State, so that no proof unfolds a record update. -/

namespace Sys2Proof.Machine

/-! ## setPc -/

@[simp] theorem State.setPc_regs (s : State) (v : Word) : (s.setPc v).regs = s.regs := rfl
@[simp] theorem State.setPc_pc (s : State) (v : Word) : (s.setPc v).pc = v := rfl
@[simp] theorem State.setPc_fetchPc (s : State) (v : Word) : (s.setPc v).fetchPc = s.fetchPc := rfl
@[simp] theorem State.setPc_ifid (s : State) (v : Word) : (s.setPc v).ifid = s.ifid := rfl
@[simp] theorem State.setPc_idex (s : State) (v : Word) : (s.setPc v).idex = s.idex := rfl
@[simp] theorem State.setPc_exmem (s : State) (v : Word) : (s.setPc v).exmem = s.exmem := rfl
@[simp] theorem State.setPc_memwb (s : State) (v : Word) : (s.setPc v).memwb = s.memwb := rfl
@[simp] theorem State.setPc_memory (s : State) (v : Word) : (s.setPc v).memory = s.memory := rfl
@[simp] theorem State.setPc_memDomain (s : State) (v : Word) : (s.setPc v).memDomain = s.memDomain := rfl
@[simp] theorem State.setPc_optLevel (s : State) (v : Word) : (s.setPc v).optLevel = s.optLevel := rfl
@[simp] theorem State.setPc_grants (s : State) (v : Word) : (s.setPc v).grants = s.grants := rfl
@[simp] theorem State.setPc_grantTail (s : State) (v : Word) : (s.setPc v).grantTail = s.grantTail := rfl
@[simp] theorem State.setPc_history (s : State) (v : Word) : (s.setPc v).history = s.history := rfl

/-! ## setReg -/

@[simp] theorem State.setReg_zero (s : State) (v : Word) : s.setReg 0#5 v = s := rfl

@[simp] theorem State.setReg_pc (s : State) (r : Reg) (v : Word) : (s.setReg r v).pc = s.pc := by
  unfold State.setReg; split <;> rfl
@[simp] theorem State.setReg_fetchPc (s : State) (r : Reg) (v : Word) : (s.setReg r v).fetchPc = s.fetchPc := by
  unfold State.setReg; split <;> rfl
@[simp] theorem State.setReg_ifid (s : State) (r : Reg) (v : Word) : (s.setReg r v).ifid = s.ifid := by
  unfold State.setReg; split <;> rfl
@[simp] theorem State.setReg_idex (s : State) (r : Reg) (v : Word) : (s.setReg r v).idex = s.idex := by
  unfold State.setReg; split <;> rfl
@[simp] theorem State.setReg_exmem (s : State) (r : Reg) (v : Word) : (s.setReg r v).exmem = s.exmem := by
  unfold State.setReg; split <;> rfl
@[simp] theorem State.setReg_memwb (s : State) (r : Reg) (v : Word) : (s.setReg r v).memwb = s.memwb := by
  unfold State.setReg; split <;> rfl
@[simp] theorem State.setReg_memory (s : State) (r : Reg) (v : Word) : (s.setReg r v).memory = s.memory := by
  unfold State.setReg; split <;> rfl
@[simp] theorem State.setReg_memDomain (s : State) (r : Reg) (v : Word) : (s.setReg r v).memDomain = s.memDomain := by
  unfold State.setReg; split <;> rfl
@[simp] theorem State.setReg_optLevel (s : State) (r : Reg) (v : Word) : (s.setReg r v).optLevel = s.optLevel := by
  unfold State.setReg; split <;> rfl
@[simp] theorem State.setReg_grants (s : State) (r : Reg) (v : Word) : (s.setReg r v).grants = s.grants := by
  unfold State.setReg; split <;> rfl
@[simp] theorem State.setReg_grantTail (s : State) (r : Reg) (v : Word) : (s.setReg r v).grantTail = s.grantTail := by
  unfold State.setReg; split <;> rfl
@[simp] theorem State.setReg_history (s : State) (r : Reg) (v : Word) : (s.setReg r v).history = s.history := by
  unfold State.setReg; split <;> rfl

/-! ## asked: a request answered -/

@[simp] theorem State.asked_regs (s : State) (k : RequestKind) (a : Word) : (s.asked k a).regs = s.regs := rfl
@[simp] theorem State.asked_pc (s : State) (k : RequestKind) (a : Word) : (s.asked k a).pc = s.pc := rfl
@[simp] theorem State.asked_fetchPc (s : State) (k : RequestKind) (a : Word) : (s.asked k a).fetchPc = s.fetchPc := rfl
@[simp] theorem State.asked_ifid (s : State) (k : RequestKind) (a : Word) : (s.asked k a).ifid = s.ifid := rfl
@[simp] theorem State.asked_idex (s : State) (k : RequestKind) (a : Word) : (s.asked k a).idex = s.idex := rfl
@[simp] theorem State.asked_exmem (s : State) (k : RequestKind) (a : Word) : (s.asked k a).exmem = s.exmem := rfl
@[simp] theorem State.asked_memwb (s : State) (k : RequestKind) (a : Word) : (s.asked k a).memwb = s.memwb := rfl
@[simp] theorem State.asked_memory (s : State) (k : RequestKind) (a : Word) : (s.asked k a).memory = s.memory := rfl
@[simp] theorem State.asked_memDomain (s : State) (k : RequestKind) (a : Word) : (s.asked k a).memDomain = s.memDomain := rfl
@[simp] theorem State.asked_optLevel (s : State) (k : RequestKind) (a : Word) : (s.asked k a).optLevel = s.optLevel := rfl
@[simp] theorem State.asked_grants (s : State) (k : RequestKind) (a : Word) : (s.asked k a).grants = s.grants.tail := rfl
@[simp] theorem State.asked_grantTail (s : State) (k : RequestKind) (a : Word) : (s.asked k a).grantTail = s.grantTail := rfl
@[simp] theorem State.asked_history (s : State) (k : RequestKind) (a : Word) : (s.asked k a).history = ⟨k, a, s.grantsNow a⟩ :: s.history := rfl

/-! ## writeAndAdvance: the end of an instruction that writes a register -/

@[simp] theorem State.writeAndAdvance_pc (s : State) (r : Reg) (v : Word) :
    (s.writeAndAdvance r v).pc = s.pcPlus4 := rfl
@[simp] theorem State.writeAndAdvance_fetchPc (s : State) (r : Reg) (v : Word) :
    (s.writeAndAdvance r v).fetchPc = s.fetchPc := State.setReg_fetchPc s r v
@[simp] theorem State.writeAndAdvance_ifid (s : State) (r : Reg) (v : Word) :
    (s.writeAndAdvance r v).ifid = s.ifid := State.setReg_ifid s r v
@[simp] theorem State.writeAndAdvance_idex (s : State) (r : Reg) (v : Word) :
    (s.writeAndAdvance r v).idex = s.idex := State.setReg_idex s r v
@[simp] theorem State.writeAndAdvance_exmem (s : State) (r : Reg) (v : Word) :
    (s.writeAndAdvance r v).exmem = s.exmem := State.setReg_exmem s r v
@[simp] theorem State.writeAndAdvance_memwb (s : State) (r : Reg) (v : Word) :
    (s.writeAndAdvance r v).memwb = s.memwb := State.setReg_memwb s r v
@[simp] theorem State.writeAndAdvance_memory (s : State) (r : Reg) (v : Word) :
    (s.writeAndAdvance r v).memory = s.memory := State.setReg_memory s r v
@[simp] theorem State.writeAndAdvance_memDomain (s : State) (r : Reg) (v : Word) :
    (s.writeAndAdvance r v).memDomain = s.memDomain := State.setReg_memDomain s r v
@[simp] theorem State.writeAndAdvance_optLevel (s : State) (r : Reg) (v : Word) :
    (s.writeAndAdvance r v).optLevel = s.optLevel := State.setReg_optLevel s r v
@[simp] theorem State.writeAndAdvance_grants (s : State) (r : Reg) (v : Word) :
    (s.writeAndAdvance r v).grants = s.grants := State.setReg_grants s r v
@[simp] theorem State.writeAndAdvance_grantTail (s : State) (r : Reg) (v : Word) :
    (s.writeAndAdvance r v).grantTail = s.grantTail := State.setReg_grantTail s r v
@[simp] theorem State.writeAndAdvance_history (s : State) (r : Reg) (v : Word) :
    (s.writeAndAdvance r v).history = s.history := State.setReg_history s r v

/-! ## initialized: reset -/

@[simp] theorem State.initialized_regs (s : State) (l : OptLevel) (entry : Word) :
    (s.initialized l entry).regs = Vector.replicate 32 0 := rfl
@[simp] theorem State.initialized_pc (s : State) (l : OptLevel) (entry : Word) :
    (s.initialized l entry).pc = entry := rfl
@[simp] theorem State.initialized_fetchPc (s : State) (l : OptLevel) (entry : Word) :
    (s.initialized l entry).fetchPc = entry := rfl
@[simp] theorem State.initialized_ifid (s : State) (l : OptLevel) (entry : Word) :
    (s.initialized l entry).ifid = none := rfl
@[simp] theorem State.initialized_idex (s : State) (l : OptLevel) (entry : Word) :
    (s.initialized l entry).idex = none := rfl
@[simp] theorem State.initialized_exmem (s : State) (l : OptLevel) (entry : Word) :
    (s.initialized l entry).exmem = none := rfl
@[simp] theorem State.initialized_memwb (s : State) (l : OptLevel) (entry : Word) :
    (s.initialized l entry).memwb = none := rfl
@[simp] theorem State.initialized_memory (s : State) (l : OptLevel) (entry : Word) :
    (s.initialized l entry).memory = s.memory := rfl
@[simp] theorem State.initialized_memDomain (s : State) (l : OptLevel) (entry : Word) :
    (s.initialized l entry).memDomain = s.memDomain := rfl
@[simp] theorem State.initialized_optLevel (s : State) (l : OptLevel) (entry : Word) :
    (s.initialized l entry).optLevel = l := rfl
@[simp] theorem State.initialized_grants (s : State) (l : OptLevel) (entry : Word) :
    (s.initialized l entry).grants = s.grants := rfl
@[simp] theorem State.initialized_grantTail (s : State) (l : OptLevel) (entry : Word) :
    (s.initialized l entry).grantTail = s.grantTail := rfl
@[simp] theorem State.initialized_history (s : State) (l : OptLevel) (entry : Word) :
    (s.initialized l entry).history = s.history := rfl

end Sys2Proof.Machine
end

