-- ==== Sys2Proof/Laws/Registers.lean ====
section
/-! SUPPORT. The register file's laws (R10, R11). -/

namespace Sys2Proof.Machine

@[simp] theorem State.reg_zero (s : State) : s.reg 0#5 = 0#32 := rfl

/-- A read depends on the stored registers alone. -/
theorem State.reg_congr {s t : State} (h : t.regs = s.regs) (r : Reg) : t.reg r = s.reg r := by
  unfold State.reg; rw [h]

/-- Read after write: the written value unless the write was to register 0, every other register as before. -/
theorem State.reg_setReg (s : State) (r q : Reg) (v : Word) :
    (s.setReg r v).reg q = if q = r ∧ r ≠ 0#5 then v else s.reg q := by
  unfold State.setReg
  by_cases hr : r = 0#5
  · simp [hr]
  by_cases hq : q = 0#5
  · subst hq
    have : ¬ 0#5 = r := fun e => hr e.symm
    simp [hr, this, State.reg]
  by_cases h : q = r
  · subst h; simp [hr, State.reg]
  · have hn : r.toNat ≠ q.toNat := fun e => h (BitVec.eq_of_toNat_eq e.symm)
    simp only [State.reg, if_neg hq, if_neg hr, if_neg (fun c : q = r ∧ r ≠ 0#5 => h c.1)]
    exact Vector.getElem_set_ne _ _ hn

@[simp] theorem State.reg_setReg_self (s : State) (r : Reg) (v : Word) (h : r ≠ 0#5) : (s.setReg r v).reg r = v := by
  simp [State.reg_setReg, h]

theorem State.reg_setReg_ne (s : State) (r q : Reg) (v : Word) (h : q ≠ r) : (s.setReg r v).reg q = s.reg q := by
  simp [State.reg_setReg, h]

@[simp] theorem State.reg_setPc (s : State) (v : Word) (r : Reg) : (s.setPc v).reg r = s.reg r := rfl

@[simp] theorem State.reg_asked (s : State) (k : RequestKind) (a : Word) (r : Reg) :
    (s.asked k a).reg r = s.reg r := rfl

theorem State.reg_writeAndAdvance (s : State) (r q : Reg) (v : Word) :
    (s.writeAndAdvance r v).reg q = if q = r ∧ r ≠ 0#5 then v else s.reg q := State.reg_setReg s r q v

/-- Register 0 is never stored to: its cell keeps its value. -/
theorem State.setReg_stored_zero (s : State) (r : Reg) (v : Word) : (s.setReg r v).regs[0] = s.regs[0] := by
  unfold State.setReg
  split
  · rfl
  · rename_i h
    have hn : r.toNat ≠ 0 := fun e => h (BitVec.eq_of_toNat_eq e)
    exact Vector.getElem_set_ne r.isLt _ hn

@[simp] theorem State.pcPlus4_asked (s : State) (k : RequestKind) (a : Word) : (s.asked k a).pcPlus4 = s.pcPlus4 := rfl

end Sys2Proof.Machine
end

