-- ==== Sys2Proof/Laws/Port.lean ====
section
/-! SUPPORT. The memory port: everything each of its operations can answer, said once. -/

namespace Sys2Proof.Machine

/-! ## The memory's answers -/

/-- What the answer to the next request depends on. -/
theorem State.answerAt_congr {s t : State} (hg : t.grants = s.grants) (ht : t.grantTail = s.grantTail)
    (hh : t.history = s.history) (n : Nat) : t.answerAt n = s.answerAt n := by
  unfold State.answerAt; rw [hg, ht, hh]

/-- After a request the answers move up by one. -/
theorem State.answerAt_asked (s : State) (k : RequestKind) (a : Word) (n : Nat) :
    (s.asked k a).answerAt n = s.answerAt (n + 1) := by
  unfold State.answerAt
  simp only [State.asked_grants, State.asked_grantTail, State.asked_history, List.getElem?_tail, List.length_cons,
    Nat.add_assoc, Nat.add_comm 1]

theorem State.holds_congr {s t : State} (h : t.memDomain = s.memDomain) (a : Word) : t.holds a = s.holds a := by
  unfold State.holds; rw [h]

@[simp] theorem State.holds_asked (s : State) (k : RequestKind) (a b : Word) : (s.asked k a).holds b = s.holds b :=
  rfl

/-- A granted request was answered yes and lies in MEM_DOMAIN (R34). -/
theorem State.grantsNow_iff (s : State) (a : Word) :
    s.grantsNow a = true ↔ s.answerAt 0 = true ∧ s.holds a = true := by
  simp [State.grantsNow]

theorem State.grantsNow_asked (s : State) (k : RequestKind) (a b : Word) :
    (s.asked k a).grantsNow b = (s.answerAt 1 && s.holds b) := by
  simp [State.grantsNow, State.answerAt_asked]

/-! ## One request -/

theorem State.readPort_misaligned (s : State) (k : RequestKind) (a : Word) (h : ¬ Aligned a) :
    s.readPort k a = .misaligned := if_neg h

theorem State.readPort_granted (s : State) (k : RequestKind) (a : Word) (h : Aligned a) (g : s.grantsNow a = true) :
    s.readPort k a = .granted (s.memory.readWord a) (s.asked k a) := by
  unfold State.readPort; rw [if_pos h, if_pos g]

theorem State.readPort_denied (s : State) (k : RequestKind) (a : Word) (h : Aligned a) (g : s.grantsNow a = false) :
    s.readPort k a = .denied (s.asked k a) := by
  unfold State.readPort; rw [if_pos h, if_neg (by simp [g])]

/-- Everything a read request can answer. -/
theorem State.readPort_cases (s : State) (k : RequestKind) (a : Word) :
    (¬ Aligned a ∧ s.readPort k a = .misaligned) ∨
    (Aligned a ∧ s.grantsNow a = true ∧ s.readPort k a = .granted (s.memory.readWord a) (s.asked k a)) ∨
    (Aligned a ∧ s.grantsNow a = false ∧ s.readPort k a = .denied (s.asked k a)) := by
  by_cases h : Aligned a
  · cases g : s.grantsNow a
    · exact .inr (.inr ⟨h, rfl, s.readPort_denied k a h g⟩)
    · exact .inr (.inl ⟨h, rfl, s.readPort_granted k a h g⟩)
  · exact .inl ⟨h, s.readPort_misaligned k a h⟩

theorem State.writePort_misaligned (s : State) (a v : Word) (h : ¬ Aligned a) : s.writePort a v = .misaligned :=
  if_neg h

theorem State.writePort_granted (s : State) (a v : Word) (h : Aligned a) (g : s.grantsNow a = true) :
    s.writePort a v = .granted v { s.asked (.dwrite v) a with memory := s.memory.writeWord a v } := by
  unfold State.writePort; rw [if_pos h, if_pos g]

theorem State.writePort_denied (s : State) (a v : Word) (h : Aligned a) (g : s.grantsNow a = false) :
    s.writePort a v = .denied (s.asked (.dwrite v) a) := by
  unfold State.writePort; rw [if_pos h, if_neg (by simp [g])]

/-- Everything a write request can answer. -/
theorem State.writePort_cases (s : State) (a v : Word) :
    (¬ Aligned a ∧ s.writePort a v = .misaligned) ∨
    (Aligned a ∧ s.grantsNow a = true ∧
      s.writePort a v = .granted v { s.asked (.dwrite v) a with memory := s.memory.writeWord a v }) ∨
    (Aligned a ∧ s.grantsNow a = false ∧ s.writePort a v = .denied (s.asked (.dwrite v) a)) := by
  by_cases h : Aligned a
  · cases g : s.grantsNow a
    · exact .inr (.inr ⟨h, rfl, s.writePort_denied a v h g⟩)
    · exact .inr (.inl ⟨h, rfl, s.writePort_granted a v h g⟩)
  · exact .inl ⟨h, s.writePort_misaligned a v h⟩

/-! ## A partial store's pair of requests (R167) -/

/-- Everything a read-modify-write pair can answer. -/
theorem State.updatePort_cases (s : State) (a : Word) (merge : Word → Word) :
    (¬ Aligned a ∧ s.updatePort a merge = .misaligned) ∨
    (Aligned a ∧ s.grantsNow a = false ∧ s.updatePort a merge = .denied (s.asked .dread a)) ∨
    (Aligned a ∧ s.grantsNow a = true ∧ s.answerAt 1 = false ∧
      s.updatePort a merge =
        .denied ((s.asked .dread a).asked (.dwrite (merge (s.memory.readWord a))) a)) ∨
    (Aligned a ∧ s.grantsNow a = true ∧ s.answerAt 1 = true ∧
      s.updatePort a merge = .granted (merge (s.memory.readWord a))
        { (s.asked .dread a).asked (.dwrite (merge (s.memory.readWord a))) a with
          memory := s.memory.writeWord a (merge (s.memory.readWord a)) }) := by
  by_cases h : Aligned a
  · cases g : s.grantsNow a
    · refine .inr (.inl ⟨h, rfl, ?_⟩)
      unfold State.updatePort; rw [s.readPort_denied _ a h g]
    · have hh := ((s.grantsNow_iff a).1 g).2
      cases g1 : s.answerAt 1
      · refine .inr (.inr (.inl ⟨h, rfl, rfl, ?_⟩))
        unfold State.updatePort
        rw [s.readPort_granted _ a h g]
        exact State.writePort_denied _ a _ h (by simp [State.grantsNow_asked, g1])
      · refine .inr (.inr (.inr ⟨h, rfl, rfl, ?_⟩))
        unfold State.updatePort
        rw [s.readPort_granted _ a h g]
        exact State.writePort_granted _ a _ h (by simp [State.grantsNow_asked, g1, hh])
  · refine .inl ⟨h, ?_⟩
    unfold State.updatePort; rw [s.readPort_misaligned _ a h]

/-! ## What no port operation touches -/

/-- Everything but memory, the answers and the log. -/
structure SameCore (s t : State) : Prop where
  regs : t.regs = s.regs
  pc : t.pc = s.pc
  fetchPc : t.fetchPc = s.fetchPc
  ifid : t.ifid = s.ifid
  idex : t.idex = s.idex
  exmem : t.exmem = s.exmem
  memwb : t.memwb = s.memwb
  memDomain : t.memDomain = s.memDomain
  optLevel : t.optLevel = s.optLevel
  grantTail : t.grantTail = s.grantTail

theorem SameCore.refl (s : State) : SameCore s s := ⟨rfl, rfl, rfl, rfl, rfl, rfl, rfl, rfl, rfl, rfl⟩

theorem SameCore.trans {s t u : State} (h : SameCore s t) (k : SameCore t u) : SameCore s u :=
  ⟨k.regs.trans h.regs, k.pc.trans h.pc, k.fetchPc.trans h.fetchPc, k.ifid.trans h.ifid, k.idex.trans h.idex,
    k.exmem.trans h.exmem, k.memwb.trans h.memwb, k.memDomain.trans h.memDomain, k.optLevel.trans h.optLevel,
    k.grantTail.trans h.grantTail⟩

theorem SameCore.asked (s : State) (k : RequestKind) (a : Word) : SameCore s (s.asked k a) :=
  ⟨rfl, rfl, rfl, rfl, rfl, rfl, rfl, rfl, rfl, rfl⟩

/-! ## MEM's requests (R164 to R168) -/

/-- What a store leaves in memory at `a`, from the old memory and the data (R131 to R133, R166, R167). -/
def storedWord (byte halfword : Bool) (old data : Word) : Word :=
  if byte then mergeByte old data else if halfword then mergeHalf old data else data

/-- What a load hands on (R165). -/
def loadedWord (byte halfword : Bool) (w : Word) : Word :=
  if byte then maskByte w else if halfword then maskHalf w else w

/-- The first request of an access: a DREAD for a load and a partial store, a DWRITE for a word store (R165 to R167). -/
def firstRequest (memRead byte halfword : Bool) (data : Word) : RequestKind :=
  if memRead || byte || halfword then .dread else .dwrite data

/-- The store's effect on the state once its DWRITE of `v` at `a` is granted. -/
def State.written (s : State) (a v : Word) : State :=
  { s.asked (.dwrite v) a with memory := s.memory.writeWord a v }

theorem SameCore.written (s : State) (a v : Word) : SameCore s (s.written a v) :=
  ⟨rfl, rfl, rfl, rfl, rfl, rfl, rfl, rfl, rfl, rfl⟩

@[simp] theorem State.written_memory (s : State) (a v : Word) :
    (s.written a v).memory = s.memory.writeWord a v := rfl

@[simp] theorem State.written_history (s : State) (a v : Word) :
    (s.written a v).history = ⟨.dwrite v, a, s.grantsNow a⟩ :: s.history := rfl

@[simp] theorem State.written_grants (s : State) (a v : Word) : (s.written a v).grants = s.grants.tail := rfl

@[simp] theorem State.reg_written (s : State) (a v : Word) (r : Reg) : (s.written a v).reg r = s.reg r := rfl

/-- A partial store's requests through `dataAccess` (R167). -/
theorem dataAccess_partial (byte half : Bool) (a data : Word) (s : State) (h : (byte || half) = true) :
    dataAccess false true byte half a data s =
      match s.updatePort a (fun old => storedWord byte half old data) with
      | .granted _ t => .granted 0 t
      | .denied t => .denied t
      | .misaligned => .misaligned := by
  cases byte <;> cases half <;> first | (simp at h; done) | rfl

/-- A word store's request through `dataAccess` (R166). -/
theorem dataAccess_word (a data : Word) (s : State) :
    dataAccess false true false false a data s =
      match s.writePort a data with
      | .granted _ t => .granted 0 t
      | .denied t => .denied t
      | .misaligned => .misaligned := rfl

/-- A load's request through `dataAccess` (R165). -/
theorem dataAccess_load (mw byte half : Bool) (a data : Word) (s : State) :
    dataAccess true mw byte half a data s =
      match s.readPort .dread a with
      | .granted w t => .granted (loadedWord byte half w) t
      | .denied t => .denied t
      | .misaligned => .misaligned := rfl

/-- Everything `dataAccess` can answer, in this order: no access; a misaligned address; the first request denied; the
second request of a partial store denied; a load; a word store; a partial store. -/
theorem dataAccess_cases (mr mw byte half : Bool) (a data : Word) (s : State) :
    (mr = false ∧ mw = false ∧ dataAccess mr mw byte half a data s = .granted 0 s) ∨
    ((mr = true ∨ mw = true) ∧ ¬ Aligned a ∧ dataAccess mr mw byte half a data s = .misaligned) ∨
    ((mr = true ∨ mw = true) ∧ Aligned a ∧ s.grantsNow a = false ∧
      dataAccess mr mw byte half a data s = .denied (s.asked (firstRequest mr byte half data) a)) ∨
    (mr = false ∧ mw = true ∧ (byte || half) = true ∧ Aligned a ∧ s.grantsNow a = true ∧ s.answerAt 1 = false ∧
      dataAccess mr mw byte half a data s =
        .denied ((s.asked .dread a).asked (.dwrite (storedWord byte half (s.memory.readWord a) data)) a)) ∨
    (mr = true ∧ Aligned a ∧ s.grantsNow a = true ∧
      dataAccess mr mw byte half a data s =
        .granted (loadedWord byte half (s.memory.readWord a)) (s.asked .dread a)) ∨
    (mr = false ∧ mw = true ∧ byte = false ∧ half = false ∧ Aligned a ∧ s.grantsNow a = true ∧
      dataAccess mr mw byte half a data s = .granted 0 (s.written a data)) ∨
    (mr = false ∧ mw = true ∧ (byte || half) = true ∧ Aligned a ∧ s.grantsNow a = true ∧ s.answerAt 1 = true ∧
      dataAccess mr mw byte half a data s =
        .granted 0 ((s.asked .dread a).written a (storedWord byte half (s.memory.readWord a) data))) := by
  cases mr
  · cases mw
    · exact .inl ⟨rfl, rfl, rfl⟩
    · by_cases hp : (byte || half) = true
      · rw [dataAccess_partial byte half a data s hp]
        have hk : firstRequest false byte half data = .dread := by simp [firstRequest, hp]
        rcases s.updatePort_cases a (fun old => storedWord byte half old data) with
          ⟨h, e⟩ | ⟨h, g, e⟩ | ⟨h, g, g1, e⟩ | ⟨h, g, g1, e⟩
        · rw [e]; exact .inr (.inl ⟨.inr rfl, h, rfl⟩)
        · rw [e, hk]; exact .inr (.inr (.inl ⟨.inr rfl, h, g, rfl⟩))
        · rw [e]; exact .inr (.inr (.inr (.inl ⟨rfl, rfl, hp, h, g, g1, rfl⟩)))
        · rw [e]; exact .inr (.inr (.inr (.inr (.inr (.inr ⟨rfl, rfl, hp, h, g, g1, rfl⟩)))))
      · obtain ⟨rfl, rfl⟩ : byte = false ∧ half = false := by simpa using hp
        rw [dataAccess_word]
        rcases s.writePort_cases a data with ⟨h, e⟩ | ⟨h, g, e⟩ | ⟨h, g, e⟩
        · rw [e]; exact .inr (.inl ⟨.inr rfl, h, rfl⟩)
        · rw [e]; exact .inr (.inr (.inr (.inr (.inr (.inl ⟨rfl, rfl, rfl, rfl, h, g, rfl⟩)))))
        · rw [e]; exact .inr (.inr (.inl ⟨.inr rfl, h, g, rfl⟩))
  · rw [dataAccess_load]
    rcases s.readPort_cases .dread a with ⟨h, e⟩ | ⟨h, g, e⟩ | ⟨h, g, e⟩
    · rw [e]; exact .inr (.inl ⟨.inl rfl, h, rfl⟩)
    · rw [e]; exact .inr (.inr (.inr (.inr (.inl ⟨rfl, h, g, rfl⟩))))
    · rw [e]; exact .inr (.inr (.inl ⟨.inl rfl, h, g, rfl⟩))

/-- A request sequence never reaches past memory, the answers and the log. -/
theorem dataAccess_granted_core (mr mw byte half : Bool) (a data : Word) (s : State) {d : Word} {t : State}
    (h : dataAccess mr mw byte half a data s = .granted d t) : SameCore s t := by
  rcases dataAccess_cases mr mw byte half a data s with ⟨_, _, e⟩ | ⟨_, _, e⟩ | ⟨_, _, _, e⟩ | ⟨_, _, _, _, _, _, e⟩ |
    ⟨_, _, _, e⟩ | ⟨_, _, _, _, _, _, e⟩ | ⟨_, _, _, _, _, _, e⟩ <;> rw [e] at h <;> cases h
  · exact SameCore.refl s
  · exact SameCore.asked _ _ _
  · exact SameCore.written _ _ _
  · exact (SameCore.asked _ _ _).trans (SameCore.written _ _ _)

/-- A denied request sequence leaves memory alone too. -/
theorem dataAccess_denied_core (mr mw byte half : Bool) (a data : Word) (s : State) {t : State}
    (h : dataAccess mr mw byte half a data s = .denied t) : SameCore s t ∧ t.memory = s.memory := by
  rcases dataAccess_cases mr mw byte half a data s with ⟨_, _, e⟩ | ⟨_, _, e⟩ | ⟨_, _, _, e⟩ | ⟨_, _, _, _, _, _, e⟩ |
    ⟨_, _, _, e⟩ | ⟨_, _, _, _, _, _, e⟩ | ⟨_, _, _, _, _, _, e⟩ <;> rw [e] at h <;> cases h
  · exact ⟨SameCore.asked _ _ _, rfl⟩
  · exact ⟨(SameCore.asked _ _ _).trans (SameCore.asked _ _ _), rfl⟩

/-- Every request sequence keeps memory's canonical form. -/
theorem dataAccess_granted_wf (mr mw byte half : Bool) (a data : Word) (s : State) {d : Word} {t : State}
    (h : dataAccess mr mw byte half a data s = .granted d t) (hw : s.memory.wf) : t.memory.wf := by
  rcases dataAccess_cases mr mw byte half a data s with ⟨_, _, e⟩ | ⟨_, _, e⟩ | ⟨_, _, _, e⟩ | ⟨_, _, _, _, _, _, e⟩ |
    ⟨_, _, _, e⟩ | ⟨_, _, _, _, _, _, e⟩ | ⟨_, _, _, _, _, _, e⟩ <;> rw [e] at h <;> cases h
  · exact hw
  · exact hw
  · exact Memory.wf_writeWord _ _ _ hw
  · exact Memory.wf_writeWord _ _ _ hw

end Sys2Proof.Machine
end

