-- ==== Sys2Proof/Laws/Exec.lean ====
section
/-! SUPPORT. The shared operations of the instructions' meanings, one lemma each, and what the single-cycle step does
with a fetched word. -/

namespace Sys2Proof.Machine

/-- A load with every request granted. -/
theorem loadOp_granted (part : Word → Word) (rs rt : Reg) (imm : BitVec 16) (s : State)
    (ha : Aligned (s.effectiveAddress rs imm)) (hg : s.grantsNow (s.effectiveAddress rs imm) = true) :
    loadOp part rs rt imm s =
      .next ((s.asked .dread (s.effectiveAddress rs imm)).writeAndAdvance rt
        (part (s.memory.readWord (s.effectiveAddress rs imm)))) := by
  unfold loadOp; rw [s.readPort_granted _ _ ha hg]

/-- Everything a load can answer. -/
theorem loadOp_cases (part : Word → Word) (rs rt : Reg) (imm : BitVec 16) (s : State) :
    (¬ Aligned (s.effectiveAddress rs imm) ∧
      loadOp part rs rt imm s = .refused (.misalignedData (s.effectiveAddress rs imm))) ∨
    (Aligned (s.effectiveAddress rs imm) ∧ s.grantsNow (s.effectiveAddress rs imm) = false ∧
      loadOp part rs rt imm s = .next (s.asked .dread (s.effectiveAddress rs imm))) ∨
    (Aligned (s.effectiveAddress rs imm) ∧ s.grantsNow (s.effectiveAddress rs imm) = true ∧
      loadOp part rs rt imm s =
        .next ((s.asked .dread (s.effectiveAddress rs imm)).writeAndAdvance rt
          (part (s.memory.readWord (s.effectiveAddress rs imm))))) := by
  rcases s.readPort_cases .dread (s.effectiveAddress rs imm) with ⟨h, e⟩ | ⟨h, g, e⟩ | ⟨h, g, e⟩
  · exact .inl ⟨h, by unfold loadOp; rw [e]⟩
  · exact .inr (.inr ⟨h, g, by unfold loadOp; rw [e]⟩)
  · exact .inr (.inl ⟨h, g, by unfold loadOp; rw [e]⟩)

/-- Everything `sw` can answer. -/
theorem execSw_cases (rs rt : Reg) (imm : BitVec 16) (s : State) :
    (¬ Aligned (s.effectiveAddress rs imm) ∧
      execSw rs rt imm s = .refused (.misalignedData (s.effectiveAddress rs imm))) ∨
    (Aligned (s.effectiveAddress rs imm) ∧ s.grantsNow (s.effectiveAddress rs imm) = false ∧
      execSw rs rt imm s = .next (s.asked (.dwrite (s.reg rt)) (s.effectiveAddress rs imm))) ∨
    (Aligned (s.effectiveAddress rs imm) ∧ s.grantsNow (s.effectiveAddress rs imm) = true ∧
      execSw rs rt imm s = .next ((s.written (s.effectiveAddress rs imm) (s.reg rt)).setPc s.pcPlus4)) := by
  rcases s.writePort_cases (s.effectiveAddress rs imm) (s.reg rt) with ⟨h, e⟩ | ⟨h, g, e⟩ | ⟨h, g, e⟩
  · exact .inl ⟨h, by unfold execSw storeEnd; rw [e]⟩
  · exact .inr (.inr ⟨h, g, by unfold execSw storeEnd; rw [e]; rfl⟩)
  · exact .inr (.inl ⟨h, g, by unfold execSw storeEnd; rw [e]⟩)

/-- Everything a partial store can answer. -/
theorem partialStoreOp_cases (merge : Word → Word → Word) (rs rt : Reg) (imm : BitVec 16) (s : State) :
    (¬ Aligned (s.effectiveAddress rs imm) ∧
      partialStoreOp merge rs rt imm s = .refused (.misalignedData (s.effectiveAddress rs imm))) ∨
    (Aligned (s.effectiveAddress rs imm) ∧ s.grantsNow (s.effectiveAddress rs imm) = false ∧
      partialStoreOp merge rs rt imm s = .next (s.asked .dread (s.effectiveAddress rs imm))) ∨
    (Aligned (s.effectiveAddress rs imm) ∧ s.grantsNow (s.effectiveAddress rs imm) = true ∧ s.answerAt 1 = false ∧
      partialStoreOp merge rs rt imm s = .next ((s.asked .dread (s.effectiveAddress rs imm)).asked
        (.dwrite (merge (s.memory.readWord (s.effectiveAddress rs imm)) (s.reg rt)))
        (s.effectiveAddress rs imm))) ∨
    (Aligned (s.effectiveAddress rs imm) ∧ s.grantsNow (s.effectiveAddress rs imm) = true ∧ s.answerAt 1 = true ∧
      partialStoreOp merge rs rt imm s = .next (((s.asked .dread (s.effectiveAddress rs imm)).written
        (s.effectiveAddress rs imm)
        (merge (s.memory.readWord (s.effectiveAddress rs imm)) (s.reg rt))).setPc s.pcPlus4)) := by
  rcases s.updatePort_cases (s.effectiveAddress rs imm) (fun old => merge old (s.reg rt)) with
    ⟨h, e⟩ | ⟨h, g, e⟩ | ⟨h, g, g1, e⟩ | ⟨h, g, g1, e⟩
  · exact .inl ⟨h, by unfold partialStoreOp storeEnd; rw [e]⟩
  · exact .inr (.inl ⟨h, g, by unfold partialStoreOp storeEnd; rw [e]⟩)
  · exact .inr (.inr (.inl ⟨h, g, g1, by unfold partialStoreOp storeEnd; rw [e]⟩))
  · exact .inr (.inr (.inr ⟨h, g, g1, by unfold partialStoreOp storeEnd; rw [e]; rfl⟩))

/-! ## The single-cycle step -/

/-- Everything the single-cycle call can do before it runs a word. -/
theorem fetchThen_cases (run : Word → State → Result) (s : State) :
    (¬ Aligned s.pc ∧ fetchThen run s = .refused (.misalignedFetch s.pc)) ∨
    (Aligned s.pc ∧ s.grantsNow s.pc = false ∧ fetchThen run s = .next (s.asked .ifetch s.pc)) ∨
    (Aligned s.pc ∧ s.grantsNow s.pc = true ∧
      fetchThen run s = run (s.memory.readWord s.pc) (s.asked .ifetch s.pc)) := by
  rcases s.readPort_cases .ifetch s.pc with ⟨h, e⟩ | ⟨h, g, e⟩ | ⟨h, g, e⟩
  · exact .inl ⟨h, by unfold fetchThen; rw [e]⟩
  · exact .inr (.inr ⟨h, g, by unfold fetchThen; rw [e]⟩)
  · exact .inr (.inl ⟨h, g, by unfold fetchThen; rw [e]⟩)

theorem execWord_ok {w : Word} {i : Instr} (h : decode w = .ok i) (s : State) : execWord w s = exec i s := by
  unfold execWord; rw [h]

theorem step_singleCycle {s : State} (h : s.optLevel = .singleCycle) : step s = singleCycleStep s := by
  unfold step; rw [h]

theorem step_pipelined {s : State} (h : s.optLevel = .pipelined) : step s = advance s := by
  unfold step; rw [h]

end Sys2Proof.Machine
end

