-- ==== Sys2Proof/Laws/PerInstr.lean ====
section
/-! SUPPORT. Facts of every instruction as syntax, one lemma per constructor. -/

namespace Sys2Proof.Laws

/-! ## EncodedOpcode: the encoded word carries its row's opcode, and under opcode 0 its row's `funct` (R58, R59) -/

/-- The opcode of a row (R58). -/
def opcodeOfRow : Instr → BitVec 6
  | .add _ _ _ _ => 0x00
  | .sub _ _ _ _ => 0x00
  | .and _ _ _ _ => 0x00
  | .or _ _ _ _ => 0x00
  | .xor _ _ _ _ => 0x00
  | .nor _ _ _ _ => 0x00
  | .slt _ _ _ _ => 0x00
  | .sltu _ _ _ _ => 0x00
  | .sll _ _ _ _ => 0x00
  | .srl _ _ _ _ => 0x00
  | .sra _ _ _ _ => 0x00
  | .jr _ _ _ _ => 0x00
  | .addi _ _ _ => 0x08
  | .addiu _ _ _ => 0x09
  | .slti _ _ _ => 0x0A
  | .sltiu _ _ _ => 0x0B
  | .andi _ _ _ => 0x0C
  | .ori _ _ _ => 0x0D
  | .xori _ _ _ => 0x0E
  | .lui _ _ _ => 0x0F
  | .lw _ _ _ => 0x23
  | .lh _ _ _ => 0x21
  | .lhu _ _ _ => 0x25
  | .lb _ _ _ => 0x20
  | .lbu _ _ _ => 0x24
  | .sw _ _ _ => 0x2B
  | .sh _ _ _ => 0x29
  | .sb _ _ _ => 0x28
  | .beq _ _ _ => 0x04
  | .bne _ _ _ => 0x05
  | .j _ => 0x02
  | .jal _ => 0x03

/-- The `funct` of a row under opcode 0 (R59). -/
def functOfRow : Instr → Option (BitVec 6)
  | .add _ _ _ _ => some 0x20
  | .sub _ _ _ _ => some 0x22
  | .and _ _ _ _ => some 0x24
  | .or _ _ _ _ => some 0x25
  | .xor _ _ _ _ => some 0x26
  | .nor _ _ _ _ => some 0x27
  | .slt _ _ _ _ => some 0x2A
  | .sltu _ _ _ _ => some 0x2B
  | .sll _ _ _ _ => some 0x00
  | .srl _ _ _ _ => some 0x02
  | .sra _ _ _ _ => some 0x03
  | .jr _ _ _ _ => some 0x08
  | .addi _ _ _ => none
  | .addiu _ _ _ => none
  | .slti _ _ _ => none
  | .sltiu _ _ _ => none
  | .andi _ _ _ => none
  | .ori _ _ _ => none
  | .xori _ _ _ => none
  | .lui _ _ _ => none
  | .lw _ _ _ => none
  | .lh _ _ _ => none
  | .lhu _ _ _ => none
  | .lb _ _ _ => none
  | .lbu _ _ _ => none
  | .sw _ _ _ => none
  | .sh _ _ _ => none
  | .sb _ _ _ => none
  | .beq _ _ _ => none
  | .bne _ _ _ => none
  | .j _ => none
  | .jal _ => none

def EncodedOpcode.Statement (i : Instr) : Prop :=
  opcodeOf (encode i) = opcodeOfRow i ∧ ∀ f, functOfRow i = some f → functOf (encode i) = f

theorem encodedOpcode_r_format (rs rt rd : Reg) (shamt : BitVec 5) (f : BitVec 6) :
    opcodeOf (encodeR rs rt rd shamt f) = 0 ∧ ∀ g, some f = some g → functOf (encodeR rs rt rd shamt f) = g :=
  ⟨opcodeOf_encodeR .., fun _ h => (functOf_encodeR ..).trans (Option.some.inj h)⟩

theorem encodedOpcode_i_format (op : BitVec 6) (rs rt : Reg) (imm : BitVec 16) :
    opcodeOf (encodeI op rs rt imm) = op ∧ ∀ g, none = some g → functOf (encodeI op rs rt imm) = g :=
  ⟨opcodeOf_encodeI .., fun _ h => by cases h⟩

theorem encodedOpcode_j_format (op : BitVec 6) (jaddr : BitVec 26) :
    opcodeOf (encodeJ op jaddr) = op ∧ ∀ g, none = some g → functOf (encodeJ op jaddr) = g :=
  ⟨opcodeOf_encodeJ .., fun _ h => by cases h⟩

theorem EncodedOpcode.add (rs rt rd : Reg) (shamt : BitVec 5) : EncodedOpcode.Statement (.add rs rt rd shamt) :=
  encodedOpcode_r_format ..
theorem EncodedOpcode.sub (rs rt rd : Reg) (shamt : BitVec 5) : EncodedOpcode.Statement (.sub rs rt rd shamt) :=
  encodedOpcode_r_format ..
theorem EncodedOpcode.and (rs rt rd : Reg) (shamt : BitVec 5) : EncodedOpcode.Statement (.and rs rt rd shamt) :=
  encodedOpcode_r_format ..
theorem EncodedOpcode.or (rs rt rd : Reg) (shamt : BitVec 5) : EncodedOpcode.Statement (.or rs rt rd shamt) :=
  encodedOpcode_r_format ..
theorem EncodedOpcode.xor (rs rt rd : Reg) (shamt : BitVec 5) : EncodedOpcode.Statement (.xor rs rt rd shamt) :=
  encodedOpcode_r_format ..
theorem EncodedOpcode.nor (rs rt rd : Reg) (shamt : BitVec 5) : EncodedOpcode.Statement (.nor rs rt rd shamt) :=
  encodedOpcode_r_format ..
theorem EncodedOpcode.slt (rs rt rd : Reg) (shamt : BitVec 5) : EncodedOpcode.Statement (.slt rs rt rd shamt) :=
  encodedOpcode_r_format ..
theorem EncodedOpcode.sltu (rs rt rd : Reg) (shamt : BitVec 5) : EncodedOpcode.Statement (.sltu rs rt rd shamt) :=
  encodedOpcode_r_format ..
theorem EncodedOpcode.sll (rs rt rd : Reg) (shamt : BitVec 5) : EncodedOpcode.Statement (.sll rs rt rd shamt) :=
  encodedOpcode_r_format ..
theorem EncodedOpcode.srl (rs rt rd : Reg) (shamt : BitVec 5) : EncodedOpcode.Statement (.srl rs rt rd shamt) :=
  encodedOpcode_r_format ..
theorem EncodedOpcode.sra (rs rt rd : Reg) (shamt : BitVec 5) : EncodedOpcode.Statement (.sra rs rt rd shamt) :=
  encodedOpcode_r_format ..
theorem EncodedOpcode.jr (rs rt rd : Reg) (shamt : BitVec 5) : EncodedOpcode.Statement (.jr rs rt rd shamt) :=
  encodedOpcode_r_format ..
theorem EncodedOpcode.addi (rs rt : Reg) (imm : BitVec 16) : EncodedOpcode.Statement (.addi rs rt imm) :=
  encodedOpcode_i_format ..
theorem EncodedOpcode.addiu (rs rt : Reg) (imm : BitVec 16) : EncodedOpcode.Statement (.addiu rs rt imm) :=
  encodedOpcode_i_format ..
theorem EncodedOpcode.slti (rs rt : Reg) (imm : BitVec 16) : EncodedOpcode.Statement (.slti rs rt imm) :=
  encodedOpcode_i_format ..
theorem EncodedOpcode.sltiu (rs rt : Reg) (imm : BitVec 16) : EncodedOpcode.Statement (.sltiu rs rt imm) :=
  encodedOpcode_i_format ..
theorem EncodedOpcode.andi (rs rt : Reg) (imm : BitVec 16) : EncodedOpcode.Statement (.andi rs rt imm) :=
  encodedOpcode_i_format ..
theorem EncodedOpcode.ori (rs rt : Reg) (imm : BitVec 16) : EncodedOpcode.Statement (.ori rs rt imm) :=
  encodedOpcode_i_format ..
theorem EncodedOpcode.xori (rs rt : Reg) (imm : BitVec 16) : EncodedOpcode.Statement (.xori rs rt imm) :=
  encodedOpcode_i_format ..
theorem EncodedOpcode.lui (rs rt : Reg) (imm : BitVec 16) : EncodedOpcode.Statement (.lui rs rt imm) :=
  encodedOpcode_i_format ..
theorem EncodedOpcode.lw (rs rt : Reg) (imm : BitVec 16) : EncodedOpcode.Statement (.lw rs rt imm) :=
  encodedOpcode_i_format ..
theorem EncodedOpcode.lh (rs rt : Reg) (imm : BitVec 16) : EncodedOpcode.Statement (.lh rs rt imm) :=
  encodedOpcode_i_format ..
theorem EncodedOpcode.lhu (rs rt : Reg) (imm : BitVec 16) : EncodedOpcode.Statement (.lhu rs rt imm) :=
  encodedOpcode_i_format ..
theorem EncodedOpcode.lb (rs rt : Reg) (imm : BitVec 16) : EncodedOpcode.Statement (.lb rs rt imm) :=
  encodedOpcode_i_format ..
theorem EncodedOpcode.lbu (rs rt : Reg) (imm : BitVec 16) : EncodedOpcode.Statement (.lbu rs rt imm) :=
  encodedOpcode_i_format ..
theorem EncodedOpcode.sw (rs rt : Reg) (imm : BitVec 16) : EncodedOpcode.Statement (.sw rs rt imm) :=
  encodedOpcode_i_format ..
theorem EncodedOpcode.sh (rs rt : Reg) (imm : BitVec 16) : EncodedOpcode.Statement (.sh rs rt imm) :=
  encodedOpcode_i_format ..
theorem EncodedOpcode.sb (rs rt : Reg) (imm : BitVec 16) : EncodedOpcode.Statement (.sb rs rt imm) :=
  encodedOpcode_i_format ..
theorem EncodedOpcode.beq (rs rt : Reg) (imm : BitVec 16) : EncodedOpcode.Statement (.beq rs rt imm) :=
  encodedOpcode_i_format ..
theorem EncodedOpcode.bne (rs rt : Reg) (imm : BitVec 16) : EncodedOpcode.Statement (.bne rs rt imm) :=
  encodedOpcode_i_format ..
theorem EncodedOpcode.j (jaddr : BitVec 26) : EncodedOpcode.Statement (.j jaddr) :=
  encodedOpcode_j_format ..
theorem EncodedOpcode.jal (jaddr : BitVec 26) : EncodedOpcode.Statement (.jal jaddr) :=
  encodedOpcode_j_format ..

end Sys2Proof.Laws
end

