-- ==== Sys2Proof/Laws/Pipeline.lean ====
section
/-! SUPPORT. The cycle function: what each stage and a whole cycle can do, said once. -/

namespace Sys2Proof.Machine

/-! ## WB -/

theorem writeBack_none {s : State} (h : s.memwb = none) : writeBack s = s := by
  unfold writeBack; rw [h]

theorem writeBack_some {s : State} {m : MemWbPayload} (h : s.memwb = some m) :
    writeBack s = (if m.regWrite then s.setReg m.writeReg m.value else s).setPc m.pcCommit := by
  unfold writeBack; rw [h]

@[simp] theorem writeBack_fetchPc (s : State) : (writeBack s).fetchPc = s.fetchPc := by
  unfold writeBack; split
  · rfl
  · split <;> simp
@[simp] theorem writeBack_ifid (s : State) : (writeBack s).ifid = s.ifid := by
  unfold writeBack; split
  · rfl
  · split <;> simp
@[simp] theorem writeBack_idex (s : State) : (writeBack s).idex = s.idex := by
  unfold writeBack; split
  · rfl
  · split <;> simp
@[simp] theorem writeBack_exmem (s : State) : (writeBack s).exmem = s.exmem := by
  unfold writeBack; split
  · rfl
  · split <;> simp
@[simp] theorem writeBack_memwb (s : State) : (writeBack s).memwb = s.memwb := by
  unfold writeBack; split
  · rfl
  · split <;> simp
@[simp] theorem writeBack_memory (s : State) : (writeBack s).memory = s.memory := by
  unfold writeBack; split
  · rfl
  · split <;> simp
@[simp] theorem writeBack_memDomain (s : State) : (writeBack s).memDomain = s.memDomain := by
  unfold writeBack; split
  · rfl
  · split <;> simp
@[simp] theorem writeBack_optLevel (s : State) : (writeBack s).optLevel = s.optLevel := by
  unfold writeBack; split
  · rfl
  · split <;> simp
@[simp] theorem writeBack_grants (s : State) : (writeBack s).grants = s.grants := by
  unfold writeBack; split
  · rfl
  · split <;> simp
@[simp] theorem writeBack_grantTail (s : State) : (writeBack s).grantTail = s.grantTail := by
  unfold writeBack; split
  · rfl
  · split <;> simp
@[simp] theorem writeBack_history (s : State) : (writeBack s).history = s.history := by
  unfold writeBack; split
  · rfl
  · split <;> simp

/-- What WB leaves in `pc` (R163). -/
theorem writeBack_pc (s : State) : (writeBack s).pc = (match s.memwb with | some m => m.pcCommit | none => s.pc) := by
  unfold writeBack; split <;> simp [*]

/-- What WB leaves in the registers (R163, R11). -/
theorem writeBack_reg (s : State) (r : Reg) :
    (writeBack s).reg r =
      match s.memwb with
      | some m => if m.regWrite = true ∧ r = m.writeReg ∧ m.writeReg ≠ 0#5 then m.value else s.reg r
      | none => s.reg r := by
  unfold writeBack
  split
  · simp [*]
  · rename_i m h
    simp only [h, State.reg_setPc]
    cases hw : m.regWrite <;> simp [State.reg_setReg]

/-- WB never touches the stored x[0]. -/
theorem writeBack_stored_zero (s : State) : (writeBack s).regs[0] = s.regs[0] := by
  unfold writeBack; split
  · rfl
  · split
    · exact State.setReg_stored_zero _ _ _
    · rfl

/-- The memory answers WB's successor as it answers the state before: WB makes no request. -/
theorem writeBack_answerAt (s : State) (n : Nat) : (writeBack s).answerAt n = s.answerAt n :=
  State.answerAt_congr (by simp) (by simp) (by simp) n

theorem writeBack_holds (s : State) (a : Word) : (writeBack s).holds a = s.holds a :=
  State.holds_congr (by simp) a

theorem writeBack_grantsNow (s : State) (a : Word) : (writeBack s).grantsNow a = s.grantsNow a := by
  simp [State.grantsNow, writeBack_answerAt, writeBack_holds]

/-! ## EX -/

theorem exStage_none {s : State} (h : s.idex = none) : exStage s = .ok (none, none) := by
  unfold exStage; rw [h]

theorem exStage_some {s : State} {d : IdExPayload} (h : s.idex = some d) :
    exStage s =
      match execute d s.exmem s.memwb with
      | .ok out => .ok (some out.exmem, out.redirect)
      | .error r => .error r := by
  cases s; cases h; rfl

/-- EX completes, unless the ALU is asked for an unlisted `funct` (R170). -/
theorem execute_cases (d : IdExPayload) (em : Option ExMemPayload) (mw : Option MemWbPayload) :
    (aluRefuses d.ctl.aluOp d.funct = true ∧ execute d em mw = .error (.unlistedFunct d.funct)) ∨
    (aluRefuses d.ctl.aluOp d.funct = false ∧ ∃ out, execute d em mw = .ok out) := by
  cases h : aluRefuses d.ctl.aluOp d.funct
  · exact .inr ⟨rfl, _, by unfold execute; simp only [h]; rfl⟩
  · exact .inl ⟨rfl, by unfold execute; simp only [h]; rfl⟩

/-- Everything EX can answer. -/
theorem exStage_cases {s : State} {em : Option ExMemPayload} {target : Option Word}
    (h : exStage s = .ok (em, target)) :
    (s.idex = none ∧ em = none ∧ target = none) ∨
    (∃ d out, s.idex = some d ∧ execute d s.exmem s.memwb = .ok out ∧ em = some out.exmem ∧ target = out.redirect) := by
  unfold exStage at h
  split at h
  · rename_i h0; cases h; exact .inl ⟨h0, rfl, rfl⟩
  · rename_i d h0
    split at h
    · rename_i out h1; cases h; exact .inr ⟨d, out, h0, h1, rfl, rfl⟩
    · cases h

/-! ## ID -/

theorem idStage_none {s t : State} (h : s.ifid = none) : idStage s t = none := by
  unfold idStage; rw [h]

/-- A load-use stall needs a valid IF/ID and a load in ID/EX. -/
theorem loadUseStall_cases {s : State} (h : s.loadUseStall = true) :
    ∃ f d, s.ifid = some f ∧ s.idex = some d ∧ d.ctl.memRead = true ∧ d.rt ≠ 0#5 ∧
      (d.rt = rsOf f.instruction ∨ d.rt = rtOf f.instruction) := by
  unfold State.loadUseStall at h
  split at h
  · rename_i f hf
    unfold loadUse at h
    split at h
    · rename_i d hd
      simp only [Bool.and_eq_true, Bool.or_eq_true, bne_iff_ne, beq_iff_eq] at h
      exact ⟨f, d, hf, hd, h.1.1, h.1.2, h.2⟩
    · cases h
  · cases h

theorem idStage_stall {s t : State} {d : IdExPayload} (h : s.loadUseStall = true) (hd : s.idex = some d) :
    idStage s t = some (bubblePayload d.pcPlus4) := by
  obtain ⟨f, _, hf, _⟩ := loadUseStall_cases h
  unfold idStage; rw [hf]; simp [h, hd]

theorem idStage_decode {s t : State} {f : IfIdPayload} (h : s.loadUseStall = false) (hf : s.ifid = some f) :
    idStage s t = some (decodeOut f t) := by
  unfold idStage; rw [hf]; simp [h]

/-! ## IF -/

/-- Everything IF can answer: held by a stall, a granted fetch, a denied one. -/
theorem ifStage_cases {stall : Bool} {s : State} {out : IfOut} (h : ifStage stall s = .ok out) :
    (stall = true ∧ out = ⟨s, s.ifid, s.fetchPc⟩) ∨
    (stall = false ∧ Aligned s.fetchPc ∧ s.grantsNow s.fetchPc = true ∧
      out = ⟨s.asked .ifetch s.fetchPc, some ⟨s.memory.readWord s.fetchPc, s.fetchPc + 4⟩, s.fetchPc + 4⟩) ∨
    (stall = false ∧ Aligned s.fetchPc ∧ s.grantsNow s.fetchPc = false ∧
      out = ⟨s.asked .ifetch s.fetchPc, none, s.fetchPc⟩) := by
  unfold ifStage at h
  split at h
  · rename_i h0; cases h; exact .inl ⟨h0, rfl⟩
  · rename_i h0
    have h0 : stall = false := by simpa using h0
    rcases s.readPort_cases .ifetch s.fetchPc with ⟨ha, e⟩ | ⟨ha, g, e⟩ | ⟨ha, g, e⟩ <;> rw [e] at h <;> cases h
    · exact .inr (.inl ⟨h0, ha, g, rfl⟩)
    · exact .inr (.inr ⟨h0, ha, g, rfl⟩)

/-! ## Commit -/

@[simp] theorem commit_regs (tg : Option Word) (o : IfOut) (d : Option IdExPayload) (e : Option ExMemPayload)
    (m : Option MemWbPayload) : (commit tg o d e m).regs = o.state.regs := by cases tg <;> rfl
@[simp] theorem commit_pc (tg : Option Word) (o : IfOut) (d : Option IdExPayload) (e : Option ExMemPayload)
    (m : Option MemWbPayload) : (commit tg o d e m).pc = o.state.pc := by cases tg <;> rfl
@[simp] theorem commit_memory (tg : Option Word) (o : IfOut) (d : Option IdExPayload) (e : Option ExMemPayload)
    (m : Option MemWbPayload) : (commit tg o d e m).memory = o.state.memory := by cases tg <;> rfl
@[simp] theorem commit_memDomain (tg : Option Word) (o : IfOut) (d : Option IdExPayload) (e : Option ExMemPayload)
    (m : Option MemWbPayload) : (commit tg o d e m).memDomain = o.state.memDomain := by cases tg <;> rfl
@[simp] theorem commit_optLevel (tg : Option Word) (o : IfOut) (d : Option IdExPayload) (e : Option ExMemPayload)
    (m : Option MemWbPayload) : (commit tg o d e m).optLevel = o.state.optLevel := by cases tg <;> rfl
@[simp] theorem commit_grants (tg : Option Word) (o : IfOut) (d : Option IdExPayload) (e : Option ExMemPayload)
    (m : Option MemWbPayload) : (commit tg o d e m).grants = o.state.grants := by cases tg <;> rfl
@[simp] theorem commit_grantTail (tg : Option Word) (o : IfOut) (d : Option IdExPayload) (e : Option ExMemPayload)
    (m : Option MemWbPayload) : (commit tg o d e m).grantTail = o.state.grantTail := by cases tg <;> rfl
@[simp] theorem commit_history (tg : Option Word) (o : IfOut) (d : Option IdExPayload) (e : Option ExMemPayload)
    (m : Option MemWbPayload) : (commit tg o d e m).history = o.state.history := by cases tg <;> rfl
@[simp] theorem commit_exmem (tg : Option Word) (o : IfOut) (d : Option IdExPayload) (e : Option ExMemPayload)
    (m : Option MemWbPayload) : (commit tg o d e m).exmem = e := by cases tg <;> rfl
@[simp] theorem commit_memwb (tg : Option Word) (o : IfOut) (d : Option IdExPayload) (e : Option ExMemPayload)
    (m : Option MemWbPayload) : (commit tg o d e m).memwb = m := by cases tg <;> rfl
@[simp] theorem commit_none_fetchPc (o : IfOut) (d : Option IdExPayload) (e : Option ExMemPayload)
    (m : Option MemWbPayload) : (commit none o d e m).fetchPc = o.fetchPc := rfl
@[simp] theorem commit_none_ifid (o : IfOut) (d : Option IdExPayload) (e : Option ExMemPayload)
    (m : Option MemWbPayload) : (commit none o d e m).ifid = o.ifid := rfl
@[simp] theorem commit_none_idex (o : IfOut) (d : Option IdExPayload) (e : Option ExMemPayload)
    (m : Option MemWbPayload) : (commit none o d e m).idex = d := rfl
@[simp] theorem commit_some_fetchPc (t : Word) (o : IfOut) (d : Option IdExPayload) (e : Option ExMemPayload)
    (m : Option MemWbPayload) : (commit (some t) o d e m).fetchPc = t := rfl
@[simp] theorem commit_some_ifid (t : Word) (o : IfOut) (d : Option IdExPayload) (e : Option ExMemPayload)
    (m : Option MemWbPayload) : (commit (some t) o d e m).ifid = none := rfl
@[simp] theorem commit_some_idex (t : Word) (o : IfOut) (d : Option IdExPayload) (e : Option ExMemPayload)
    (m : Option MemWbPayload) : (commit (some t) o d e m).idex = none := rfl

/-! ## The whole cycle (R175) -/

/-- What MEM hands on when it does not stall: `s1` is the state after WB and MEM, `mw` the new MEM/WB. -/
inductive MemDone (s : State) : State → Option MemWbPayload → Prop where
  | empty (h : s.exmem = none) : MemDone s (writeBack s) none
  | completed (e : ExMemPayload) (d : Word) (s1 : State) (h : s.exmem = some e)
      (granted : memStage e (writeBack s) = .granted d s1) : MemDone s s1 (some (memOut e d))

/-- Everything a cycle that answers a next state can be: a memory stall, or a full cycle. -/
theorem advance_cases {s t : State} (h : advance s = .next t) :
    (∃ e s1, s.exmem = some e ∧ memStage e (writeBack s) = .denied s1 ∧ t = { s1 with memwb := none }) ∨
    (∃ s1 mw em target out, MemDone s s1 mw ∧ exStage s = .ok (em, target) ∧
      ifStage s.loadUseStall s1 = .ok out ∧ t = commit target out (idStage s s1) em mw) := by
  have front : ∀ s1 mw, MemDone s s1 mw → advanceFront s s1 mw = .next t →
      ∃ em target out, exStage s = .ok (em, target) ∧ ifStage s.loadUseStall s1 = .ok out ∧
        t = commit target out (idStage s s1) em mw := by
    intro s1 mw _ hf
    unfold advanceFront at hf
    split at hf
    · cases hf
    · rename_i em target hx
      split at hf
      · cases hf
      · rename_i out hi
        cases hf
        exact ⟨em, target, out, hx, hi, rfl⟩
  unfold advance at h
  split at h
  · rename_i he
    obtain ⟨em, target, out, hx, hi, ht⟩ := front _ _ (.empty he) h
    exact .inr ⟨_, _, em, target, out, .empty he, hx, hi, ht⟩
  · rename_i e he
    split at h
    · cases h
    · rename_i s1 hm
      cases h
      exact .inl ⟨e, s1, he, hm, rfl⟩
    · rename_i d s1 hm
      obtain ⟨em, target, out, hx, hi, ht⟩ := front _ _ (.completed e d s1 he hm) h
      exact .inr ⟨_, _, em, target, out, .completed e d s1 he hm, hx, hi, ht⟩

/-- MEM leaves everything but memory, the answers and the log as WB left it. -/
theorem MemDone.core {s s1 : State} {mw : Option MemWbPayload} (h : MemDone s s1 mw) : SameCore (writeBack s) s1 := by
  cases h with
  | empty h => exact SameCore.refl _
  | completed e d s1 h g => exact dataAccess_granted_core _ _ _ _ _ _ _ g

/-- A cycle in which MEM completes and neither EX nor IF refuses answers the commit. -/
theorem advance_next {s s1 : State} {mw : Option MemWbPayload} {em : Option ExMemPayload} {target : Option Word}
    {out : IfOut} (hm : MemDone s s1 mw) (hx : exStage s = .ok (em, target))
    (hi : ifStage s.loadUseStall s1 = .ok out) : advance s = .next (commit target out (idStage s s1) em mw) := by
  cases hm with
  | empty h => unfold advance advanceFront; simp only [h, hx, hi]
  | completed e d s1 h g => unfold advance advanceFront; simp only [h, g, hx, hi]

/-- A denied data request makes a memory-stall cycle. -/
theorem advance_stall {s s1 : State} {e : ExMemPayload} (he : s.exmem = some e)
    (hm : memStage e (writeBack s) = .denied s1) : advance s = .next { s1 with memwb := none } := by
  unfold advance; simp only [he, hm]

end Sys2Proof.Machine
end

