-- ==== Sys2Proof/WellFormed.lean ====
section
/-! DEFINITION. Which terms of `Instr` are well formed. Every field is a bit vector of its encoded width (R50), so
every term has an encoding and the machine runs every term; the one check the spec adds is the assembler's rule that
a field the format does not use is written as zero (R60, R65). No statement about the machine assumes it. -/

namespace Sys2Proof

/-- The unused fields are zero: `shamt` of a register ALU instruction, `rs` of a shift and of `lui`, `rt`, `rd`
and `shamt` of `jr` (R60: "An assembler should write unused fields as zero"). -/
def Instr.wellFormed : Instr → Bool
  | .add _ _ _ shamt => shamt == 0
  | .sub _ _ _ shamt => shamt == 0
  | .and _ _ _ shamt => shamt == 0
  | .or _ _ _ shamt => shamt == 0
  | .xor _ _ _ shamt => shamt == 0
  | .nor _ _ _ shamt => shamt == 0
  | .slt _ _ _ shamt => shamt == 0
  | .sltu _ _ _ shamt => shamt == 0
  | .sll rs _ _ _ => rs == 0
  | .srl rs _ _ _ => rs == 0
  | .sra rs _ _ _ => rs == 0
  | .jr _ rt rd shamt => rt == 0 && rd == 0 && shamt == 0
  | .lui rs _ _ => rs == 0
  | .addi _ _ _ => true
  | .addiu _ _ _ => true
  | .slti _ _ _ => true
  | .sltiu _ _ _ => true
  | .andi _ _ _ => true
  | .ori _ _ _ => true
  | .xori _ _ _ => true
  | .lw _ _ _ => true
  | .lh _ _ _ => true
  | .lhu _ _ _ => true
  | .lb _ _ _ => true
  | .lbu _ _ _ => true
  | .sw _ _ _ => true
  | .sh _ _ _ => true
  | .sb _ _ _ => true
  | .beq _ _ _ => true
  | .bne _ _ _ => true
  | .j _ => true
  | .jal _ => true

end Sys2Proof
end

