-- ==== Sys2Proof/Tests/Slice0.lean ====
section
/-! SUPPORT. Tests whose expected results stand in spec/95_test_vectors.md or follow by hand from the cited rule, and a
witness for the hypotheses of every obligation that has any. -/

namespace Sys2Proof.Tests

open Sys2Proof.Machine

/-! ## Helpers -/

/-- The reset state of the single-cycle model with `pc`, registers and memory words set. -/
def start (pc : Word) (regs : List (Reg × Word)) (mem : List (Word × Word)) : State :=
  let s := regs.foldl (fun s p => s.setReg p.1 p.2) State.reset
  { s with
    pc := pc
    fetchPc := pc
    optLevel := .singleCycle
    memory := mem.foldl (fun m p => m.writeWord p.1 p.2) Memory.empty }

/-- The reset state of the pipeline with memory words set. -/
def load (mem : List (Word × Word)) : State :=
  { State.reset with memory := mem.foldl (fun m p => m.writeWord p.1 p.2) Memory.empty }

/-- One step with the word `w` placed at `pc`. -/
def after (w : Nat) (s : State) : Result := step (s.withFetchWord 32 w)

def isNext : Result → Bool
  | .next _ => true
  | .fault _ => false
  | .refused _ => false

def nextState : Result → State
  | .next t => t
  | .fault _ => State.reset
  | .refused _ => State.reset

theorem eq_next {r : Result} (h : isNext r = true) : r = .next (nextState r) := by
  cases r <;> first | rfl | cases h

theorem answers {r : Result} (h : isNext r = true) : ∃ t, r = .next t := ⟨_, eq_next h⟩

/-- A register and `pc` of a next state. -/
def look (q : Reg) : Result → Option (Word × Word)
  | .next t => some (t.reg q, t.pc)
  | .fault _ => none
  | .refused _ => none

/-- A memory word and `pc` of a next state. -/
def lookMem (a : Word) : Result → Option (Word × Word)
  | .next t => some (t.memory.readWord a, t.pc)
  | .fault _ => none
  | .refused _ => none

def refusal : Result → Option Refusal
  | .next _ => none
  | .fault _ => none
  | .refused r => some r

/-! ## WellFormed: one ill-formed term for each check (R60) -/

theorem test_wf_add_shamt : (Instr.add 1 2 3 1).wellFormed = false := by decide
theorem test_wf_sub_shamt : (Instr.sub 1 2 3 1).wellFormed = false := by decide
theorem test_wf_and_shamt : (Instr.and 1 2 3 1).wellFormed = false := by decide
theorem test_wf_or_shamt : (Instr.or 1 2 3 1).wellFormed = false := by decide
theorem test_wf_xor_shamt : (Instr.xor 1 2 3 1).wellFormed = false := by decide
theorem test_wf_nor_shamt : (Instr.nor 1 2 3 1).wellFormed = false := by decide
theorem test_wf_slt_shamt : (Instr.slt 1 2 3 1).wellFormed = false := by decide
theorem test_wf_sltu_shamt : (Instr.sltu 1 2 3 1).wellFormed = false := by decide
theorem test_wf_sll_rs : (Instr.sll 7 2 3 4).wellFormed = false := by decide
theorem test_wf_srl_rs : (Instr.srl 7 2 3 4).wellFormed = false := by decide
theorem test_wf_sra_rs : (Instr.sra 7 2 3 4).wellFormed = false := by decide
theorem test_wf_jr_rt : (Instr.jr 31 1 0 0).wellFormed = false := by decide
theorem test_wf_jr_rd : (Instr.jr 31 0 1 0).wellFormed = false := by decide
theorem test_wf_jr_shamt : (Instr.jr 31 0 0 1).wellFormed = false := by decide
theorem test_wf_lui_rs : (Instr.lui 5 2 0x1234).wellFormed = false := by decide
theorem test_wf_accepts : (Instr.add 1 2 3 0).wellFormed = true ∧ (Instr.jr 31 0 0 0).wellFormed = true ∧
    (Instr.sra 0 2 3 31).wellFormed = true ∧ (Instr.lui 0 2 0x1234).wellFormed = true := by decide

/-! ## Decode: every row's word from R50 to R59; the hexadecimal words are those of spec/95_test_vectors.md -/

theorem test_decode_register :
    decode 0x00221820 = .ok (.add 1 2 3 0) ∧ decode 0x00221822 = .ok (.sub 1 2 3 0) ∧
    decode 0x00221824 = .ok (.and 1 2 3 0) ∧ decode 0x00221825 = .ok (.or 1 2 3 0) ∧
    decode 0x00221826 = .ok (.xor 1 2 3 0) ∧ decode 0x00221827 = .ok (.nor 1 2 3 0) ∧
    decode 0x0022182A = .ok (.slt 1 2 3 0) ∧ decode 0x0022182B = .ok (.sltu 1 2 3 0) ∧
    decode 0x00021900 = .ok (.sll 0 2 3 4) ∧ decode 0x00021902 = .ok (.srl 0 2 3 4) ∧
    decode 0x00021FC3 = .ok (.sra 0 2 3 31) ∧ decode 0x03E00008 = .ok (.jr 31 0 0 0) := by decide

theorem test_decode_immediate :
    decode 0x2021FFFF = .ok (.addi 1 1 0xFFFF) ∧ decode 0x2422FFFF = .ok (.addiu 1 2 0xFFFF) ∧
    decode 0x28220001 = .ok (.slti 1 2 1) ∧ decode 0x2C22FFFF = .ok (.sltiu 1 2 0xFFFF) ∧
    decode 0x30228000 = .ok (.andi 1 2 0x8000) ∧ decode 0x3402BEEF = .ok (.ori 0 2 0xBEEF) ∧
    decode 0x3822FFFF = .ok (.xori 1 2 0xFFFF) ∧ decode 0x3CA21234 = .ok (.lui 5 2 0x1234) := by decide

theorem test_decode_load_store :
    decode 0x8C22FFFC = .ok (.lw 1 2 0xFFFC) ∧ decode 0x84220000 = .ok (.lh 1 2 0) ∧
    decode 0x94220000 = .ok (.lhu 1 2 0) ∧ decode 0x80220000 = .ok (.lb 1 2 0) ∧
    decode 0x90220000 = .ok (.lbu 1 2 0) ∧ decode 0xAC220008 = .ok (.sw 1 2 8) ∧
    decode 0xA4220000 = .ok (.sh 1 2 0) ∧ decode 0xA022FFFC = .ok (.sb 1 2 0xFFFC) := by decide

theorem test_decode_branch_jump :
    decode 0x10220002 = .ok (.beq 1 2 2) ∧ decode 0x1420FFFD = .ok (.bne 1 0 0xFFFD) ∧
    decode 0x0BFFFFFF = .ok (.j 0x3FFFFFF) ∧ decode 0x0C000008 = .ok (.jal 8) := by decide

/-- Bit by bit from R51, R52, R53, R58, R59: one word of each family. -/
theorem test_decode_bit_by_bit :
    decode 0b000000_00001_00010_00011_00000_101010 = .ok (.slt 1 2 3 0) ∧
    decode 0b000000_00000_00010_00011_00100_000010 = .ok (.srl 0 2 3 4) ∧
    decode 0b001101_00001_00010_1000000000000000 = .ok (.ori 1 2 0x8000) ∧
    decode 0b100100_00001_00010_0000000000000100 = .ok (.lbu 1 2 4) ∧
    decode 0b101011_11101_00010_0000000000001000 = .ok (.sw 29 2 8) ∧
    decode 0b000100_00001_00010_1111111111111110 = .ok (.beq 1 2 0xFFFE) ∧
    decode 0b000010_00000000000000000001000000 = .ok (.j 0x40) := by decide

/-- Words outside the map (spec/95_test_vectors.md part 2). -/
theorem test_decode_outside :
    decode 0x0000000C = .error (.unlistedFunct 0x0C) ∧ decode 0x00221821 = .error (.unlistedFunct 0x21) ∧
    decode 0x70000000 = .error (.unrecognizedOpcode 0x1C) ∧ decode 0x04110005 = .error (.unrecognizedOpcode 1) ∧
    decode 0xFFFFFFFF = .error (.unrecognizedOpcode 0x3F) := by decide

theorem test_decode_bytes :
    decodeBytes [0x20, 0x18, 0x22, 0x00, 0xAA] = .ok (.add 1 2 3 0, [0xAA]) ∧
    decodeBytes [0x20, 0x18, 0x22] = .error .truncated ∧
    decodeTableWord 32 0x00221820 = some (.add 1 2 3 0) := by decide

/-- Every constructor's decoding of its encoding, at odd field values. -/
theorem test_round_trip :
    ∀ i ∈ ([.add 31 1 30 31, .sub 31 1 30 31, .and 31 1 30 31, .or 31 1 30 31, .xor 31 1 30 31, .nor 31 1 30 31,
      .slt 31 1 30 31, .sltu 31 1 30 31, .sll 31 1 30 31, .srl 31 1 30 31, .sra 31 1 30 31, .jr 31 1 30 31] : List Instr) ++
      [.addi 31 1 0x8001, .addiu 31 1 0x8001, .slti 31 1 0x8001, .sltiu 31 1 0x8001, .andi 31 1 0x8001,
      .ori 31 1 0x8001, .xori 31 1 0x8001, .lui 31 1 0x8001] ++
      [.lw 31 1 0x8001, .lh 31 1 0x8001, .lhu 31 1 0x8001, .lb 31 1 0x8001, .lbu 31 1 0x8001, .sw 31 1 0x8001,
      .sh 31 1 0x8001, .sb 31 1 0x8001, .beq 31 1 0x8001, .bne 31 1 0x8001, .j 0x2000001, .jal 0x2000001],
      decode (encode i) = .ok i := by decide

/-! ## One step per instruction (spec/95_test_vectors.md parts 3 and 4) -/

theorem test_add_wraps : look 3 (after 0x00221820 (start 0x40 [(1, 0x7FFFFFFF), (2, 1)] [])) =
    some (0x80000000, 0x44) := by decide
theorem test_add_to_zero : look 0 (after 0x00220020 (start 0x40 [(1, 5), (2, 7)] [])) = some (0, 0x44) := by decide
theorem test_sub_wraps : look 3 (after 0x00221822 (start 0x40 [(1, 0x80000000), (2, 1)] [])) =
    some (0x7FFFFFFF, 0x44) := by decide
theorem test_and : look 3 (after 0x00221824 (start 0x40 [(1, 0xF0F0FF00), (2, 0x0FF0F0F0)] [])) =
    some (0x00F0F000, 0x44) := by decide
theorem test_or : look 3 (after 0x00221825 (start 0x40 [(1, 0xF0F0FF00), (2, 0x0FF0F0F0)] [])) =
    some (0xFFF0FFF0, 0x44) := by decide
theorem test_xor : look 3 (after 0x00221826 (start 0x40 [(1, 0xF0F0FF00), (2, 0x0FF0F0F0)] [])) =
    some (0xFF000FF0, 0x44) := by decide
theorem test_nor : look 3 (after 0x00221827 (start 0x40 [(1, 0xF0F0FF00), (2, 0x0FF0F0F0)] [])) =
    some (0x000F000F, 0x44) := by decide
theorem test_slt_signed : look 3 (after 0x0022182A (start 0x40 [(1, 0xFFFFFFFF), (2, 1)] [])) =
    some (1, 0x44) := by decide
theorem test_slt_extremes : look 3 (after 0x0022182A (start 0x40 [(1, 0x7FFFFFFF), (2, 0x80000000)] [])) =
    some (0, 0x44) := by decide
theorem test_sltu : look 3 (after 0x0022182B (start 0x40 [(1, 0xFFFFFFFF), (2, 1)] [])) = some (0, 0x44) := by decide
theorem test_sll : look 3 (after 0x00021900 (start 0x40 [(2, 0x80000001)] [])) = some (0x10, 0x44) := by decide
theorem test_sll_ignores_rs : look 3 (after 0x00E21800 (start 0x40 [(2, 0x1234), (7, 0xFFFFFFFF)] [])) =
    some (0x1234, 0x44) := by decide
theorem test_srl : look 3 (after 0x00021902 (start 0x40 [(2, 0x80000010)] [])) = some (0x08000001, 0x44) := by decide
theorem test_sra : look 3 (after 0x00021903 (start 0x40 [(2, 0x80000010)] [])) = some (0xF8000001, 0x44) := by decide
theorem test_sra_31 : look 3 (after 0x00021FC3 (start 0x40 [(2, 0x80000000)] [])) =
    some (0xFFFFFFFF, 0x44) := by decide
theorem test_addi_wraps : look 2 (after 0x20227FFF (start 0x40 [(1, 0x7FFFFFFF)] [])) =
    some (0x80007FFE, 0x44) := by decide
theorem test_addi_negative : look 2 (after 0x20228000 (start 0x40 [(1, 0x00008000)] [])) = some (0, 0x44) := by decide
theorem test_addiu : look 2 (after 0x2422FFFF (start 0x40 [(1, 1)] [])) = some (0, 0x44) := by decide
theorem test_slti : look 2 (after 0x2822FFFF (start 0x40 [(1, 0xFFFFFFFE)] [])) = some (1, 0x44) := by decide
theorem test_sltiu_sign_extends : look 2 (after 0x2C22FFFF (start 0x40 [(1, 0xFFFFFFFE)] [])) =
    some (1, 0x44) := by decide
theorem test_sltiu_equal : look 2 (after 0x2C22FFFF (start 0x40 [(1, 0xFFFFFFFF)] [])) = some (0, 0x44) := by decide
theorem test_andi : look 2 (after 0x3022FFFF (start 0x40 [(1, 0x12345678)] [])) = some (0x5678, 0x44) := by decide
theorem test_ori : look 2 (after 0x34228000 (start 0x40 [(1, 0x00010000)] [])) = some (0x18000, 0x44) := by decide
theorem test_xori : look 2 (after 0x3822FFFF (start 0x40 [(1, 0xFFFFFFFF)] [])) = some (0xFFFF0000, 0x44) := by decide
theorem test_lui : look 2 (after 0x3CA21234 (start 0x40 [(5, 0xFFFFFFFF), (2, 0xAAAAAAAA)] [])) =
    some (0x12340000, 0x44) := by decide

theorem test_lw : look 2 (after 0x8C22FFFC (start 0x40 [(1, 0x104)] [(0x100, 0x80000001)])) =
    some (0x80000001, 0x44) := by decide
theorem test_lw_misaligned : refusal (after 0x8C220002 (start 0x40 [(1, 0x100)] [])) =
    some (.misalignedData 0x102) := by decide
theorem test_lh_zero_extends : look 2 (after 0x84220000 (start 0x40 [(1, 0x100)] [(0x100, 0x1234ABCD)])) =
    some (0xABCD, 0x44) := by decide
theorem test_lhu : look 2 (after 0x94220000 (start 0x40 [(1, 0x100)] [(0x100, 0x1234ABCD)])) =
    some (0xABCD, 0x44) := by decide
theorem test_lb_zero_extends : look 2 (after 0x80220000 (start 0x40 [(1, 0x100)] [(0x100, 0x123456F0)])) =
    some (0xF0, 0x44) := by decide
theorem test_lb_misaligned : refusal (after 0x80220001 (start 0x40 [(1, 0x100)] [])) =
    some (.misalignedData 0x101) := by decide
theorem test_lbu : look 2 (after 0x90220000 (start 0x40 [(1, 0x100)] [(0x100, 0x123456F0)])) =
    some (0xF0, 0x44) := by decide
theorem test_sw : lookMem 0x108 (after 0xAC220008 (start 0x40 [(1, 0x100), (2, 0xCAFEF00D)] [(0x108, 0x11111111)])) =
    some (0xCAFEF00D, 0x44) := by decide
theorem test_sh : lookMem 0x100 (after 0xA4220000 (start 0x40 [(1, 0x100), (2, 0xCAFEF00D)] [(0x100, 0x11111111)])) =
    some (0x1111F00D, 0x44) := by decide
theorem test_sb : lookMem 0x100 (after 0xA022FFFC (start 0x40 [(1, 0x104), (2, 0xFFFFFF00)] [(0x100, 0xAABBCCDD)])) =
    some (0xAABBCC00, 0x44) := by decide

theorem test_beq_wraps : look 0 (after 0x10220004 (start 0xFFFFFFF8 [(1, 1), (2, 1)] [])) = some (0, 0xC) := by decide
theorem test_beq_not_taken : look 0 (after 0x10220002 (start 8 [(1, 3), (2, 4)] [])) = some (0, 0xC) := by decide
theorem test_bne_backward : look 0 (after 0x1420FFFD (start 0x4C [(1, 1)] [])) = some (0, 0x44) := by decide
theorem test_bne_not_taken : look 0 (after 0x14220002 (start 8 [(1, 3), (2, 3)] [])) = some (0, 0xC) := by decide
theorem test_j_keeps_region : look 0 (after 0x08000000 (start 0x1000003C [] [])) = some (0, 0x10000000) := by decide
theorem test_j_region_of_next : look 0 (after 0x08000040 (start 0x0FFFFFFC [] [])) = some (0, 0x10000100) := by decide
theorem test_jal_links : look 31 (after 0x0C000010 (start 0x40 [] [])) = some (0x44, 0x40) := by decide
theorem test_jal_region : look 31 (after 0x0C000100 (start 0x7FFFFFF0 [] [])) =
    some (0x7FFFFFF4, 0x70000400) := by decide
theorem test_jr : look 0 (after 0x00A00008 (start 0x40 [(5, 0xFFFFFFFC)] [])) = some (0, 0xFFFFFFFC) := by decide
theorem test_jr_no_check : look 0 (after 0x00A00008 (start 0x40 [(5, 0x42)] [])) = some (0, 0x42) := by decide

theorem test_unrecognized_is_noop : look 31 (after 0x4C000000 (start 0x40 [(31, 0x44)] [])) =
    some (0x44, 0x44) := by decide
theorem test_unlisted_is_refused : refusal (after 0x00221821 (start 0x40 [] [])) = some (.unlistedFunct 0x21) := by
  decide

/-! ## One cycle of the pipeline (spec/95_test_vectors.md parts 5 and 6) -/

/-- The record EX makes of `addi r1, r0, 5` at address 0. -/
def addiInMem : ExMemPayload :=
  { regWrite := true, memToReg := false, link := false, halfword := false, byte := false, memRead := false,
    memWrite := false, aluResult := 5, writeData := 0, writeReg := 1, pcCommit := 4, zero := false, bubble := false }

/-- The same record one stage later. -/
def addiInWb : MemWbPayload :=
  { regWrite := true, memToReg := false, link := false, aluResult := 5, memReadData := 0, writeReg := 1,
    pcCommit := 4, bubble := false }

/-- `lw r9, 0x100(r0)` at address 4, in EX/MEM. -/
def loadInMem : ExMemPayload :=
  { addiInMem with memRead := true, memToReg := true, aluResult := 0x100, writeReg := 9, pcCommit := 8 }

/-- `sb r1, 0x100(r0)` at address 4 with `x[1] = 0xAB`, in EX/MEM. -/
def byteStoreInMem : ExMemPayload :=
  { addiInMem with
    regWrite := false, byte := true, memWrite := true, aluResult := 0x100, writeData := 0xAB, pcCommit := 8 }

/-- ID's record of the word `w` at address `a`, with every register 0. -/
def decoded (w a : Word) : IdExPayload := decodeOut ⟨w, a + 4⟩ State.reset

/-- The forwarding rows of part 5: EX/MEM wins; MEM/WB's loaded value; register 0 never. -/
theorem test_forwarding :
    fwd (some { addiInMem with aluResult := 0xBB }) (some { addiInWb with aluResult := 0xCC }) 1 0xAA = 0xBB ∧
    fwd (some { addiInMem with regWrite := false }) (some { addiInWb with aluResult := 0xCC }) 1 0xAA = 0xCC ∧
    fwd none (some { addiInWb with memToReg := true, memReadData := 0x42 }) 1 0xAA = 0x42 ∧
    fwd (some { addiInMem with writeReg := 2 }) (some { addiInWb with writeReg := 3 }) 1 0xAA = 0xAA ∧
    fwd (some { addiInMem with writeReg := 0 }) (some { addiInWb with writeReg := 0 }) 0 0 = 0 := by decide

/-- The load-use rows of part 5, with `lw r2, 0x100(r0)` in ID/EX. -/
theorem test_load_use :
    loadUse (some (decoded 0x8C020100 0)) 0x20430001 = true ∧ loadUse (some (decoded 0x8C020100 0)) 0xAC020104 = true ∧
    loadUse (some (decoded 0x8C020100 0)) 0x20020009 = true ∧ loadUse (some (decoded 0x8C020100 0)) 0x08020000 = true ∧
    loadUse (some (decoded 0x8C000100 0)) 0x20430001 = false ∧
    loadUse (some (decoded 0x8C020100 0)) 0x00641820 = false ∧
    loadUse (some (decoded 0xAC020000 0)) 0x20430001 = false := by decide

/-- Part 6.4 (P4), cycle 5: the `lw`'s DREAD denied while `addi` retires and `add r3, r1, r1` stands in ID/EX. -/
def lossState : State :=
  { load [(0x100, 0x77)] with
    fetchPc := 0x10
    ifid := some ⟨0x1000FFFF, 0x10⟩
    idex := some (decoded 0x00211820 8)
    exmem := some loadInMem
    memwb := some addiInWb
    grants := [false] }

theorem test_forwarding_loss_cycle : look 1 (step lossState) = some (5, 4) ∧
    (nextState (step lossState)).memwb = none ∧ (nextState (step lossState)).exmem = some loadInMem ∧
    (nextState (step lossState)).fetchPc = 0x10 := by decide

/-- Part 6.4, cycle 6: both latches miss, and the stale sum enters EX/MEM. -/
theorem test_forwarding_loss_result :
    ((nextState (step (nextState (step lossState)))).exmem.map (fun e => e.aluResult)) = some 0 := by decide

/-- Part 5, cycle 5 of the partial store whose DWRITE is denied: the DREAD is granted, memory keeps its word. -/
def storeState (grants : List Bool) : State :=
  { load [(0x100, 0x11223344)] with
    fetchPc := 0x10, exmem := some byteStoreInMem, memwb := some addiInWb, grants := grants }

theorem test_partial_store_denied : lookMem 0x100 (step (storeState [true, false])) = some (0x11223344, 4) ∧
    ((nextState (step (storeState [true, false]))).history.map (fun r => r.granted)) = [false, true] ∧
    lookMem 0x100 (step (storeState [true, true])) = some (0x112233AB, 4) := by decide

/-! ## Witnesses: for every obligation with hypotheses, concrete data that meet all of them together -/

/-- Every statement over an aligned `pc`, a granted fetch and a decoded word of the single-cycle model
(`StepRunsTheDecodedInstruction`, `SingleCycleLeavesThePipelineAlone`, `ConfigurationIsFixedForARun`). -/
theorem witness_single_cycle :
    let s := start 0 [(1, 5), (2, 7)] [(0, 0x00221820)]
    s.optLevel = .singleCycle ∧ Aligned s.pc ∧ s.grantsNow s.pc = true ∧
    decodeBytes [s.memory.readByte (byteKey s.pc 0), s.memory.readByte (byteKey s.pc 1),
      s.memory.readByte (byteKey s.pc 2), s.memory.readByte (byteKey s.pc 3)] = .ok (.add 1 2 3 0, []) ∧
    ∃ t, step s = .next t := ⟨by decide, by decide, by decide, by decide, answers (by decide)⟩

/-- `PlacedWordIsRunNext`; `EncodeOfDecodeIsIdentity` and `TableWordDecoderIsTheDecoder` with the same word. -/
theorem witness_placed_word : Aligned State.reset.pc ∧ decodeTableWord 32 0x00221820 = some (.add 1 2 3 0) ∧
    decode 0x00221820 = .ok (.add 1 2 3 0) := by decide

/-- The clauses of `ControlWordsObeyTheirLaws`. -/
theorem witness_control_words : (controlWord 0x0C000008).link = true ∧ (controlWord 0x3402BEEF).zeroExtend = true := by
  decide

/-- A word under each clause of `DecodeTableRows`, in its order. -/
theorem witness_decode_rows :
    (opcodeOf 0x00021FC3 = 0 ∧ functOf 0x00021FC3 = 3) ∧ (opcodeOf 0x03E00008 = 0 ∧ functOf 0x03E00008 = 8) ∧
    (opcodeOf 0x00221820 = 0 ∧ functOf 0x00221820 = 0x20) ∧ opcodeOf 0x2021FFFF = 0x08 ∧ opcodeOf 0x3402BEEF = 0x0D ∧
    opcodeOf 0x8C22FFFC = 0x23 ∧ opcodeOf 0xA0220000 = 0x28 ∧ opcodeOf 0x10220002 = 0x04 ∧
    opcodeOf 0x1420FFFD = 0x05 ∧ opcodeOf 0x0BFFFFFF = 0x02 ∧ opcodeOf 0x0C000008 = 0x03 ∧
    opcodeOf 0x70000000 = 0x1C := by decide

/-- The clauses of `ImmediateExtension`: zero-extended, jump and sign-extended. -/
theorem witness_immediate : opcodeOf 0x3402BEEF = 0x0D ∧ opcodeOf 0x0BFFFFFF = 0x02 ∧ opcodeOf 0x2021FFFF = 0x08 := by
  decide

/-- `DestinationRegisterChoice` and `ResolverRule`: EX completes, on a `jal` (destination 31), on an R-type (`rd`), on
an immediate (`rt`), on a taken branch, an untaken one, a `jr`. -/
theorem witness_execute :
    (∃ out, execute (decoded 0x0C000008 0) none none = .ok out ∧ out.redirect = some 0x20) ∧
    (∃ out, execute (decoded 0x00221820 0) none none = .ok out ∧ out.redirect = none) ∧
    (∃ out, execute (decoded 0x2021FFFF 0) none none = .ok out ∧ out.redirect = none) ∧
    (∃ out, execute (decoded 0x10220002 8) none none = .ok out ∧ out.redirect = some 0x14) ∧
    (∃ out, execute (decoded 0x14220002 8) none none = .ok out ∧ out.redirect = none) ∧
    (∃ out, execute (decoded 0x03E00008 0) none none = .ok out ∧ out.redirect = some 0) :=
  ⟨⟨_, rfl, by decide⟩, ⟨_, rfl, by decide⟩, ⟨_, rfl, by decide⟩, ⟨_, rfl, by decide⟩, ⟨_, rfl, by decide⟩,
    ⟨_, rfl, by decide⟩⟩

/-- `RegisterZeroIsHardwired`: a MEM/WB record that names register 0, and one register written, another read. -/
theorem witness_register_zero :
    ({ State.reset with memwb := some { addiInWb with writeReg := 0 } } : State).memwb =
      some { addiInWb with writeReg := 0 } ∧ (5 : Reg) ≠ 0 ∧ (5 : Reg) ≠ 6 := by decide

/-- `MemoryReadAfterWrite`: two aligned addresses at the ends of the address space, a canonical memory, a byte outside. -/
theorem witness_memory : Aligned 0xFFFFFFFC ∧ Aligned 0 ∧ Memory.empty.wf ∧
    (∀ i, i < 4 → 0 ≠ byteKey 0xFFFFFFFC i) ∧ Aligned 0x100 := by decide

/-- The register clauses of the ALU statements: a destination that is not x[0]. -/
theorem witness_destination : (31 : Reg) ≠ 0 ∧ (1 : Reg) ≠ 0 := by decide

/-- `LoadsComplete` and `StoresComplete`: an aligned address, both requests granted. -/
theorem witness_load_store :
    let s := start 0x40 [(1, 0x104)] [(0x100, 0x80000001)]
    Aligned (s.effectiveAddress 1 0xFFFC) ∧ s.grantsNow (s.effectiveAddress 1 0xFFFC) = true ∧ s.answerAt 1 = true ∧
    (2 : Reg) ≠ 0 := by decide

/-- `MisalignedDataIsRefused`: the smallest misalignment. -/
theorem witness_misaligned : ¬ Aligned ((start 0x40 [(1, 0x100)] []).effectiveAddress 1 1) ∧
    Instr.lb 1 2 1 ∈ [Instr.lw 1 2 1, .lh 1 2 1, .lhu 1 2 1, .lb 1 2 1] := by decide

/-- `StoreThenLoadRoundTrip`: the values of part 1.7, and a store in ID/EX. -/
theorem witness_round_trip :
    let s := start 0x40 [(1, 0xCAFEF00D)] [(0x100, 0x11111111)]
    (2 : Reg) ≠ 0 ∧ Aligned (s.effectiveAddress 0 0x100) ∧ (∀ n, n < 3 → s.answerAt n = true) ∧
    s.holds (s.effectiveAddress 0 0x100) = true ∧ (∃ t, exec (.sb 0 1 0x100) s = .next t) ∧
    (∃ t, exec (.sh 0 1 0x100) s = .next t) ∧ (decoded 0xAC020000 0).ctl.memWrite = true :=
  ⟨by decide, by decide, by decide, by decide, answers (by decide), answers (by decide), by decide⟩

/-- The clauses of `BranchesComplete`: equal and different operands. -/
theorem witness_branches : (start 8 [(1, 3), (2, 3)] []).reg 1 = (start 8 [(1, 3), (2, 3)] []).reg 2 ∧
    (start 8 [(1, 3), (2, 4)] []).reg 1 ≠ (start 8 [(1, 3), (2, 4)] []).reg 2 := by decide

/-- `DeniedCallChangesNothing`: the DREAD of a load denied, the fetch before it granted. -/
theorem witness_denied_call :
    let s := { start 0 [] [(0, 0x8C020100)] with grants := [true, false] }
    s.optLevel = .singleCycle ∧ (∃ t new, step s = .next t ∧ t.history = new ++ s.history ∧
      ∃ r ∈ new, r.granted = false) := by
  refine ⟨by decide, _, _, eq_next (by decide), (List.append_nil _).symm, ⟨.dread, 0x100, false⟩, ?_, rfl⟩
  decide

/-- `UnrecognizedOpcodeIsNoOp` and the first clause of `UnlistedFunctIsRefusedAtExecution`. -/
theorem witness_outside_the_map :
    let s := start 0 [] [(0, 0x70000000)]
    let u := start 0 [] [(0, 0x00221821)]
    (opcodeOf 0x70000000 = 0x1C ∧ s.optLevel = .singleCycle ∧ Aligned s.pc ∧ s.grantsNow s.pc = true ∧
      s.memory.readWord s.pc = 0x70000000) ∧
    (opcodeOf 0x00221821 = 0 ∧ functOf 0x00221821 = 0x21 ∧ u.optLevel = .singleCycle ∧ Aligned u.pc ∧
      u.grantsNow u.pc = true ∧ u.memory.readWord u.pc = 0x00221821) := by decide

theorem decoded_fromWord (w a : Word) : (decoded w a).FromWord w := ⟨rfl, rfl, rfl, rfl, rfl, rfl, rfl, rfl, rfl⟩

/-- An empty EX/MEM never stalls. -/
theorem memCompletes_of_none {s : State} (h : s.exmem = none) : s.memCompletes := by
  intro e he; rw [h] at he; cases he

/-- The second clause of `UnlistedFunctIsRefusedAtExecution`, and the second case of `PipelineRefusesOnlyThese`. -/
theorem witness_unlisted_in_ex :
    let s := { State.reset with idex := some (decoded 0x00221821 0) }
    s.optLevel = .pipelined ∧ s.memCompletes ∧ s.idex = some (decoded 0x00221821 0) ∧
    (decoded 0x00221821 0).FromWord 0x00221821 ∧ opcodeOf 0x00221821 = 0 ∧ functOf 0x00221821 = 0x21 :=
  ⟨rfl, memCompletes_of_none rfl, rfl, decoded_fromWord _ _, by decide, by decide⟩

/-- A whole cycle with a record in every latch: `WriteBackIsTheOnlyCommit`, `OnlyMemWritesMemory`,
`LoadsAndNonAccessesPassMem`, `RequestsOfOneCycle`, `EmptySlotsMoveDown` and `ConfigurationIsFixedForARun`. -/
def fullState : State :=
  { load [(0x100, 0x77), (0x10, 0x20020001)] with
    fetchPc := 0x10
    ifid := some ⟨0x20020001, 0x10⟩
    idex := some (decoded 0x00211820 8)
    exmem := some loadInMem
    memwb := some addiInWb }

theorem fullState_memCompletes : fullState.memCompletes := by
  intro e he
  obtain rfl : loadInMem = e := Option.some.inj he
  decide

theorem witness_full_cycle : fullState.optLevel = .pipelined ∧ fullState.memwb = some addiInWb ∧
    fullState.exmem = some loadInMem ∧ loadInMem.memWrite = false ∧ loadInMem.memRead = true ∧
    fullState.memGranted loadInMem = true ∧ ∃ t, step fullState = .next t :=
  ⟨rfl, rfl, rfl, rfl, rfl, by decide, answers (by decide)⟩

/-- `DecodeReadsAfterWriteBack` and `FetchFillsOrEmptiesIfId`. -/
theorem witness_front_of_the_cycle : fullState.optLevel = .pipelined ∧ fullState.memCompletes ∧
    fullState.ifid = some ⟨0x20020001, 0x10⟩ ∧ fullState.loadUseStall = false ∧
    (∀ em target, exStage fullState = .ok (em, target) → target = none) ∧ ∃ t, step fullState = .next t := by
  refine ⟨rfl, fullState_memCompletes, rfl, by decide, ?_, answers (by decide)⟩
  intro em target h
  have hx : exStage fullState = .ok (em, target) := h
  rcases exStage_cases hx with ⟨_, _, ht⟩ | ⟨d, out, hd, ho, _, ht⟩
  · exact ht
  · obtain rfl : decoded 0x00211820 8 = d := Option.some.inj hd
    rw [ht]
    have : ∀ o, execute (decoded 0x00211820 8) fullState.exmem fullState.memwb = .ok o → o.redirect = none := by
      intro o h; cases h; decide
    exact this out ho

/-- `EmptySlotsMoveDown` with every latch empty. -/
theorem witness_empty_slots : State.reset.optLevel = .pipelined ∧ State.reset.exmem = none ∧ State.reset.idex = none ∧
    State.reset.ifid = none ∧ State.reset.memCompletes ∧ ∃ t, step State.reset = .next t :=
  ⟨rfl, rfl, rfl, rfl, memCompletes_of_none rfl, answers (by decide)⟩

/-- `MemoryStallHoldsThePipeline` and `ForwardingLossUnderMemoryStall`. -/
theorem witness_memory_stall : lossState.optLevel = .pipelined ∧ lossState.memwb = some addiInWb ∧
    lossState.exmem = some loadInMem ∧ lossState.idex = some (decoded 0x00211820 8) ∧ addiInWb.regWrite = true ∧
    addiInWb.writeReg ≠ 0 ∧ Aligned loadInMem.aluResult ∧ lossState.memGranted loadInMem = false ∧
    ¬ (loadInMem.regWrite = true ∧ loadInMem.writeReg = addiInWb.writeReg) ∧
    (decoded 0x00211820 8).rs = addiInWb.writeReg ∧ (decoded 0x00211820 8).rt = addiInWb.writeReg := by
  refine ⟨rfl, rfl, rfl, rfl, rfl, ?_, ?_, ?_, ?_, ?_, ?_⟩ <;> decide

/-- `StoresWriteInMem`. -/
theorem witness_store_in_mem : (storeState []).optLevel = .pipelined ∧ (storeState []).exmem = some byteStoreInMem ∧
    byteStoreInMem.memRead = false ∧ byteStoreInMem.memWrite = true ∧
    (storeState []).memGranted byteStoreInMem = true ∧ ∃ t, step (storeState []) = .next t :=
  ⟨rfl, rfl, rfl, rfl, by decide, answers (by decide)⟩

/-- `ExecuteAgreesWithMeaning`, for a record that is no access and for one that is. -/
theorem witness_execute_agrees :
    decode 0x00211820 = .ok (.add 1 1 3 0) ∧ (decoded 0x00211820 0).FromWord 0x00211820 ∧
    (decoded 0x00211820 0).pcPlus4 = State.reset.pc + 4 ∧
    fwd none none (decoded 0x00211820 0).rs (decoded 0x00211820 0).readData1 = State.reset.reg (rsOf 0x00211820) ∧
    fwd none none (decoded 0x00211820 0).rt (decoded 0x00211820 0).readData2 = State.reset.reg (rtOf 0x00211820) ∧
    decode 0xAC020104 = .ok (.sw 0 2 0x104) ∧ (decoded 0xAC020104 0).FromWord 0xAC020104 ∧
    fwd none none (decoded 0xAC020104 0).rs (decoded 0xAC020104 0).readData1 = State.reset.reg (rsOf 0xAC020104) ∧
    fwd none none (decoded 0xAC020104 0).rt (decoded 0xAC020104 0).readData2 = State.reset.reg (rtOf 0xAC020104) := by
  refine ⟨by decide, decoded_fromWord _ _, by decide, by decide, by decide, by decide, decoded_fromWord _ _, ?_, ?_⟩ <;>
    decide

/-- The clauses of `ForwardingPriority`, one tuple for each. -/
theorem witness_forwarding :
    (addiInMem.regWrite = true ∧ addiInMem.writeReg = 1 ∧ addiInWb.regWrite = true ∧ addiInWb.writeReg = 1) ∧
    (1 : Reg) ≠ 0 ∧ loadInMem.writeReg ≠ 1 := by decide

/-- `lw r2, 0x100(r0)` in ID/EX and `addi r3, r2, 1` in IF/ID. -/
def stallState : State :=
  { State.reset with fetchPc := 8, ifid := some ⟨0x20430001, 8⟩, idex := some (decoded 0x8C020100 0) }

theorem stallState_inv : stallState.Inv where
  memory := Memory.wf_empty
  zero := rfl
  noLatches h := by cases h
  idex d hd := .inr ⟨0x8C020100, by obtain rfl : decoded 0x8C020100 0 = d := Option.some.inj hd; exact decoded_fromWord _ _⟩
  exmem e he := by cases he
  memwb m hm := by cases hm
  bubbleInEx d hd hb := by obtain rfl : decoded 0x8C020100 0 = d := Option.some.inj hd; cases hb
  bubbleInMem e he := by cases he
  bubbleInWb m hm := by cases hm

/-- `LoadUseStallInsertsBubble`, `StallAndRedirectExclude` and `EveryStepKeepsTheInvariant`. -/
theorem witness_load_use_stall : stallState.Inv ∧ stallState.optLevel = .pipelined ∧ stallState.memCompletes ∧
    stallState.loadUseStall = true ∧ (∃ em target, exStage stallState = .ok (em, target)) ∧
    ∃ t, step stallState = .next t :=
  ⟨stallState_inv, rfl, memCompletes_of_none rfl, by decide, ⟨_, _, rfl⟩, answers (by decide)⟩

/-- A bubble in MEM/WB whose load retired one cycle before. -/
def bubbleState : State :=
  { State.reset with pc := 8, memwb := some { addiInWb with regWrite := false, pcCommit := 8, bubble := true } }

theorem bubbleState_inv : bubbleState.Inv where
  memory := Memory.wf_empty
  zero := rfl
  noLatches h := by cases h
  idex d hd := by cases hd
  exmem e he := by cases he
  memwb m hm := by
    obtain rfl := Option.some.inj hm
    exact { linkTarget := fun h => (nomatch h), bubble := fun _ => rfl }
  bubbleInEx d hd := by cases hd
  bubbleInMem e he := by cases he
  bubbleInWb m hm _ := by obtain rfl := Option.some.inj hm; rfl

/-- `BubbleRetirementChangesNothing`. -/
theorem witness_bubble : bubbleState.Inv ∧ bubbleState.optLevel = .pipelined ∧
    (∃ m, bubbleState.memwb = some m ∧ m.bubble = true) ∧ ∃ t, step bubbleState = .next t :=
  ⟨bubbleState_inv, rfl, ⟨_, rfl, rfl⟩, answers (by decide)⟩

/-- `RedirectFlushesTwoSlots`: a taken `beq r1, r2, +2` at 8. -/
theorem witness_redirect :
    let s := { State.reset with ifid := some ⟨0, 0x10⟩, idex := some (decoded 0x10220002 8), fetchPc := 0x10 }
    s.optLevel = .pipelined ∧ s.memCompletes ∧ s.idex = some (decoded 0x10220002 8) ∧
    (∃ out, execute (decoded 0x10220002 8) s.exmem s.memwb = .ok out ∧ out.redirect = some 0x14) ∧
    ∃ t, step s = .next t :=
  ⟨rfl, memCompletes_of_none rfl, rfl, ⟨_, rfl, by decide⟩, answers (by decide)⟩

/-- `RequestOutsideDomainIsStuck`: a load at an address the memory does not hold. -/
theorem witness_outside_domain :
    let s := { State.reset with exmem := some loadInMem, memDomain := [⟨0, 0x100⟩] }
    s.optLevel = .pipelined ∧ s.exmem = some loadInMem ∧ loadInMem.accesses = true ∧ Aligned loadInMem.aluResult ∧
    s.holds loadInMem.aluResult = false ∧ s.memwb = none := by decide

/-- The premise of `ResetMeetsTheInvariant`'s second clause, and both clauses of `InitializeResetsTheCore`. -/
theorem witness_initialize : (load [(0x100, 0x77)]).memory.wf ∧ 1 ≤ 1 ∧ 1 < 2 := by decide

/-- `FirstRetirementIsInTheFifthCycle`: reset, with a memory of `nop` words. -/
theorem witness_first_retirement :
    State.reset.optLevel = .pipelined ∧ State.reset.Drained ∧
    ∃ t u new, core.run 4 State.reset = .next t ∧ core.run 5 State.reset = .next u ∧
      u.history = new ++ State.reset.history ∧ ∀ r ∈ new, r.granted = true := by
  refine ⟨rfl, ⟨rfl, rfl, rfl, rfl⟩, _, _, _, eq_next (by decide), eq_next (by decide), (List.append_nil _).symm, ?_⟩
  decide

/-! ### The equivalence claim's hypotheses: the program `beq r0, r0, -1` at 0 (part 4's self-loop) -/

def loopState : State := load [(0, 0x1000FFFF)]

/-- The single-cycle run after any step but none. -/
def loopNext : State :=
  { loopState with grants := [true, true], history := [⟨.ifetch, 0, true⟩] }

theorem loop_first : referenceStep loopState = some loopNext := by decide

theorem loop_again : referenceStep loopNext = some loopNext := by decide

theorem loop_run : ∀ n, referenceRun (n + 1) loopState = some loopNext := by
  intro n
  induction n with
  | zero => exact loop_first
  | succ n ih =>
    show (referenceRun (n + 1) loopState).bind referenceStep = some loopNext
    rw [ih]; exact loop_again

theorem loop_runs : ReferenceRuns loopState := by
  intro n
  cases n with
  | zero => rfl
  | succ n => rw [loop_run]; rfl

theorem loop_no_modification : NoNearSelfModification loopState := by
  intro n d t u _ _ ht _ r hr v hv
  rw [loop_run] at ht
  obtain rfl := Option.some.inj ht
  obtain rfl : r = ⟨.ifetch, 0, true⟩ := by simpa [loopNext] using hr
  cases hv

/-- `PipelineRefinesTheSingleCycleModel`, under either alternative of its fourth assumption. -/
theorem witness_equivalence : loopState.optLevel = .pipelined ∧ loopState.Drained ∧ loopState.fetchPc = loopState.pc ∧
    ReferenceRuns loopState ∧ NoNearSelfModification loopState ∧
    ∃ t new, core.run 3 loopState = .next t ∧ t.history = new ++ loopState.history ∧ DataRequestsGranted new := by
  refine ⟨rfl, ⟨rfl, rfl, rfl, rfl⟩, rfl, loop_runs, loop_no_modification, _, _, eq_next (by decide),
    (List.append_nil _).symm, ?_⟩
  have : ∀ r ∈ (nextState (core.run 3 loopState)).history, r.kind.isFetch = true := by decide
  intro r hr hk
  rw [this r hr] at hk
  cases hk

theorem witness_equivalence_second_alternative : NoForwardingLossPattern loopState := by
  intro n w0 w1 w2 h0 _ _ hw
  have : w0 = 0x1000FFFF := by
    unfold streamWord at h0
    cases n with
    | zero => exact (Option.some.inj h0).symm.trans (by decide)
    | succ n => rw [loop_run] at h0; exact (Option.some.inj h0).symm.trans (by decide)
  rw [this] at hw
  exact absurd hw (by decide)

end Sys2Proof.Tests
end

section
/-! PROOFS. The register file (10_state.md): x[0] is hardwired, at the port and in WB. -/

namespace Sys2Proof.Machine

/-- A MEM/WB record that names x[0] commits its `pc` and nothing else (R163, R11). -/
theorem writeBack_of_writeReg_zero {s : State} {m : MemWbPayload} (hm : s.memwb = some m) (hz : m.writeReg = 0) :
    writeBack s = s.setPc m.pcCommit := by
  have hdiscard : s.setReg m.writeReg m.value = s := by rw [hz]; exact State.setReg_zero s m.value
  rw [writeBack_some hm, hdiscard, ite_self]

/-- Settles O11: the register port's laws, and WB's one write, discarded when the record names x[0]. -/
theorem registerZeroIsHardwired : Obligations.RegisterZeroIsHardwired := by
  unfold Obligations.RegisterZeroIsHardwired
  intro s r q v
  refine ⟨State.reg_zero s, State.setReg_zero s v, State.reg_setReg s r q v, fun m hm hz => ?_⟩
  rw [writeBack_of_writeReg_zero hm hz, State.setPc_regs]

end Sys2Proof.Machine
end

section
/-! PROOFS. The decoder (40_decoder.md): the laws of the control words of R73 to R80, one lemma for each family of rows,
the flags in which the rows of a family differ left free. -/

namespace Sys2Proof.Machine

/-- The inert word: an unrecognized opcode (R80). -/
theorem Control.inert_legal : Control.inert.Legal := by constructor <;> decide

/-- Opcode 0 but `jr`, shift or not (R73). -/
theorem Control.rType_legal (shift : Bool) : ({ Control.rType with shift := shift } : Control).Legal := by
  cases shift <;> constructor <;> decide

/-- `jr` (R73). -/
theorem Control.jumpRegister_legal : Control.jumpRegister.Legal := by constructor <;> decide

/-- The immediate instructions, zero-extended or not (R74, R75). -/
theorem Control.immediate_legal (zeroExtend : Bool) :
    ({ Control.immediate with zeroExtend := zeroExtend } : Control).Legal := by
  cases zeroExtend <;> constructor <;> decide

/-- The loads, of at most one narrow width (R76). -/
theorem Control.load_legal {halfword byte : Bool} (hw : (halfword && byte) = false) :
    ({ Control.load with halfword := halfword, byte := byte } : Control).Legal :=
  { (by constructor <;> decide : Control.load.Legal) with
    oneWidth := hw
    widthNeedsAccess := fun _ => .inl rfl }

/-- The stores, of at most one narrow width (R77). -/
theorem Control.store_legal {halfword byte : Bool} (hw : (halfword && byte) = false) :
    ({ Control.store with halfword := halfword, byte := byte } : Control).Legal :=
  { (by constructor <;> decide : Control.store.Legal) with
    oneWidth := hw
    widthNeedsAccess := fun _ => .inr rfl }

/-- `beq` and `bne` (R78). -/
theorem Control.branch_legal (bne : Bool) : ({ branch := true, bne := bne, aluOp := .sub } : Control).Legal := by
  cases bne <;> constructor <;> decide

/-- `j` and `jal`, which alone links and writes (R79). -/
theorem Control.jump_legal (link : Bool) : ({ jump := true, link := link, regWrite := link } : Control).Legal := by
  cases link <;> constructor <;> decide

/-- Every row of the decode table obeys the laws of R71. -/
theorem controlOfInstr_legal (i : Instr) : (controlOfInstr i).Legal :=
  match i with
  | .add .. | .sub .. | .and .. | .or .. | .xor .. | .nor .. | .slt .. | .sltu .. => Control.rType_legal false
  | .sll .. | .srl .. | .sra .. => Control.rType_legal true
  | .jr .. => Control.jumpRegister_legal
  | .addi .. | .addiu .. | .slti .. | .sltiu .. => Control.immediate_legal false
  | .andi .. | .ori .. | .xori .. | .lui .. => Control.immediate_legal true
  | .lw .. => Control.load_legal (halfword := false) (byte := false) rfl
  | .lh .. | .lhu .. => Control.load_legal (halfword := true) (byte := false) rfl
  | .lb .. | .lbu .. => Control.load_legal (halfword := false) (byte := true) rfl
  | .sw .. => Control.store_legal (halfword := false) (byte := false) rfl
  | .sh .. => Control.store_legal (halfword := true) (byte := false) rfl
  | .sb .. => Control.store_legal (halfword := false) (byte := true) rfl
  | .beq .. => Control.branch_legal false
  | .bne .. => Control.branch_legal true
  | .j .. => Control.jump_legal false
  | .jal .. => Control.jump_legal true

/-- A word in the decode table or outside it gets a legal control word: its row's, or the R-type or inert one that stands
in for a row (R62, R80). -/
theorem controlWord_legal (w : Word) : (controlWord w).Legal := by
  unfold controlWord
  split
  · exact controlOfInstr_legal _
  · exact Control.rType_legal false
  · exact Control.inert_legal
  · exact Control.inert_legal

/-- A linking word's destination is register 31, whatever its register fields hold (R83). -/
theorem destination_of_link {c : Control} (hlink : c.link = true) (rt rd : Reg) : destination c rt rd = 31 :=
  if_pos hlink

/-- `zero_extend` decides the immediate before `jump` does (R82). -/
theorem imm32_of_zeroExtend {c : Control} (hz : c.zeroExtend = true) (w : Word) : imm32 w c = (immOf w).setWidth 32 :=
  if_pos hz

/-- Settles O6: the signals' laws row by row of the decode table; the other two clauses are the first branch of the
destination's and of the immediate's choice. -/
theorem controlWordsObeyTheirLaws : Obligations.ControlWordsObeyTheirLaws := by
  unfold Obligations.ControlWordsObeyTheirLaws
  intro w
  exact ⟨controlWord_legal w, fun hlink => destination_of_link hlink _ _, fun hz => imm32_of_zeroExtend hz w⟩

end Sys2Proof.Machine
end

section
/-! PROOFS. Loads and stores (43_load_store.md): their rows, the words they move, what a completed one leaves unchanged,
and a load behind a store. -/

namespace Sys2Proof.Machine

/-! ## Rows -/

/-- An I-format instruction the decoder gives back has the opcode it is encoded with and its own control word. -/
theorem hasRow_of_decode {i : Instr} {op : BitVec 6} {rs rt : Reg} {imm : BitVec 16}
    (he : encode i = encodeI op rs rt imm) (hd : decode (encodeI op rs rt imm) = .ok i) :
    HasRow i op (controlOfInstr i) := by
  unfold HasRow controlWord
  rw [he, hd]
  exact ⟨opcodeOf_encodeI op rs rt imm, rfl⟩

/-! ## The part of a word a narrow access moves -/

theorem maskByte_toNat (w : Word) : (maskByte w).toNat = w.toNat % 2 ^ 8 :=
  (BitVec.toNat_and w 0xFF).trans (Nat.and_two_pow_sub_one_eq_mod w.toNat 8)

theorem maskHalf_toNat (w : Word) : (maskHalf w).toNat = w.toNat % 2 ^ 16 :=
  (BitVec.toNat_and w 0xFFFF).trans (Nat.and_two_pow_sub_one_eq_mod w.toNat 16)

/-- A word cut below bit `n` is its two parts. -/
theorem extractLsb'_append_low {m n : Nat} (w : BitVec (m + n)) :
    w.extractLsb' n m ++ w.extractLsb' 0 n = w := by
  rw [BitVec.extractLsb'_append_extractLsb'_eq_extractLsb' (Nat.zero_add n).symm]
  exact BitVec.extractLsb'_eq_self

/-- Complementary masks join the upper part of one word with the lower part of another. -/
theorem masked_or_masked {m n : Nat} (old v : BitVec (m + n)) :
    (old &&& (BitVec.allOnes m ++ 0#n)) ||| (v &&& (0#m ++ BitVec.allOnes n)) =
      old.extractLsb' n m ++ v.extractLsb' 0 n := by
  conv_lhs => rw [← extractLsb'_append_low old, ← extractLsb'_append_low v]
  simp only [BitVec.and_append, BitVec.or_append, BitVec.and_allOnes, BitVec.and_zero, BitVec.or_zero, BitVec.zero_or]

theorem mergeByte_eq_append (old v : Word) : mergeByte old v = old.extractLsb' 8 24 ++ v.extractLsb' 0 8 :=
  masked_or_masked (m := 24) (n := 8) old v

theorem mergeHalf_eq_append (old v : Word) : mergeHalf old v = old.extractLsb' 16 16 ++ v.extractLsb' 0 16 :=
  masked_or_masked (m := 16) (n := 16) old v

/-- A mask sees nothing of what a disjoint one let through. -/
theorem and_or_and_of_disjoint {n : Nat} {keep mask : BitVec n} (h : keep &&& mask = 0#n) (old v : BitVec n) :
    ((old &&& keep) ||| (v &&& mask)) &&& mask = v &&& mask := by
  rw [BitVec.and_or_distrib_right, BitVec.and_assoc, BitVec.and_assoc, h, BitVec.and_self, BitVec.and_zero,
    BitVec.zero_or]

theorem maskByte_mergeByte (old v : Word) : maskByte (mergeByte old v) = maskByte v :=
  and_or_and_of_disjoint (by decide) old v

theorem maskHalf_mergeHalf (old v : Word) : maskHalf (mergeHalf old v) = maskHalf v :=
  and_or_and_of_disjoint (by decide) old v

/-! ## Frames -/

theorem SameCore.outside {s t : State} (h : SameCore s t) : SameOutside s t :=
  ⟨h.fetchPc, h.ifid, h.idex, h.exmem, h.memwb, h.memDomain, h.optLevel, h.grantTail⟩

theorem SameOutside.trans {s t u : State} (h : SameOutside s t) (k : SameOutside t u) : SameOutside s u :=
  ⟨k.fetchPc.trans h.fetchPc, k.ifid.trans h.ifid, k.idex.trans h.idex, k.exmem.trans h.exmem, k.memwb.trans h.memwb,
    k.memDomain.trans h.memDomain, k.optLevel.trans h.optLevel, k.grantTail.trans h.grantTail⟩

theorem State.setPc_outside (s : State) (v : Word) : SameOutside s (s.setPc v) :=
  ⟨rfl, rfl, rfl, rfl, rfl, rfl, rfl, rfl⟩

theorem State.writeAndAdvance_outside (s : State) (r : Reg) (v : Word) : SameOutside s (s.writeAndAdvance r v) := by
  constructor <;> simp

/-- The effective address depends on the registers alone. -/
theorem SameRegisters.effectiveAddress {s t : State} (h : SameRegisters s t) (rs : Reg) (imm : BitVec 16) :
    t.effectiveAddress rs imm = s.effectiveAddress rs imm :=
  congrArg (· + sext32 imm) (h rs)

/-- The state a load's granted DREAD and its register write leave. -/
theorem loadsOnly_of_granted {s : State} {a : Word} (hg : s.grantsNow a = true) (rt : Reg) (v : Word) :
    LoadsOnly rt a s ((s.asked .dread a).writeAndAdvance rt v) where
  registers r hr := State.reg_setReg_ne _ _ _ _ hr
  zero := State.reg_zero _
  memory k := by rw [State.writeAndAdvance_memory, State.asked_memory]
  history := by rw [State.writeAndAdvance_history, State.asked_history, hg]
  outside := (SameCore.asked s .dread a).outside.trans (State.writeAndAdvance_outside _ rt v)

/-- The state a store's granted DWRITE leaves, after requests `u` that stored nothing. -/
theorem storesOnly_written {s u : State} (hu : SameCore s u) (hm : u.memory = s.memory) (a v target : Word) :
    StoresOnly a s ((u.written a v).setPc target) where
  registers r := State.reg_congr hu.regs r
  memory k hk := by
    rw [State.setPc_memory, State.written_memory, Memory.readByte_writeWord_outside _ _ _ _ hk, hm]
  outside := (hu.trans (SameCore.written u a v)).outside.trans (State.setPc_outside _ target)

/-- A store's DWRITE takes one answer. -/
theorem State.answerAt_written (s : State) (a v : Word) (n : Nat) :
    (s.written a v).answerAt n = s.answerAt (n + 1) :=
  (State.answerAt_congr (s := s.asked (.dwrite v) a) rfl rfl rfl n).trans (s.answerAt_asked _ a n)

/-! ## Completion -/

section
variable {rs : Reg} {imm : BitVec 16} {s : State} (ha : Aligned (s.effectiveAddress rs imm))
  (hg : s.grantsNow (s.effectiveAddress rs imm) = true)
include ha hg

theorem loadOp_completes (part : Word → Word) (rt : Reg) :
    ∃ t, loadOp part rs rt imm s = .next t ∧ LoadsOnly rt (s.effectiveAddress rs imm) s t ∧ t.pc = s.pc + 4 ∧
      (rt ≠ 0 → t.reg rt = part (s.memory.readWord (s.effectiveAddress rs imm))) :=
  ⟨_, loadOp_granted part rs rt imm s ha hg, loadsOnly_of_granted hg rt _, rfl, State.reg_setReg_self _ rt _⟩

/-- A load of the low `n` bits. -/
theorem loadOp_completes_mod {part : Word → Word} {n : Nat} (hp : ∀ w, (part w).toNat = w.toNat % 2 ^ n) (rt : Reg) :
    ∃ t, loadOp part rs rt imm s = .next t ∧ LoadsOnly rt (s.effectiveAddress rs imm) s t ∧ t.pc = s.pc + 4 ∧
      (rt ≠ 0 → (t.reg rt).toNat = (s.memory.readWord (s.effectiveAddress rs imm)).toNat % 2 ^ n) := by
  obtain ⟨t, he, hframe, hpc, hreg⟩ := loadOp_completes ha hg part rt
  exact ⟨t, he, hframe, hpc, fun h => by rw [hreg h, hp]⟩

theorem execSw_completes (rt : Reg) :
    ∃ t, execSw rs rt imm s = .next t ∧ StoresOnly (s.effectiveAddress rs imm) s t ∧ t.pc = s.pc + 4 ∧
      t.memory.readWord (s.effectiveAddress rs imm) = s.reg rt ∧
      t.history = ⟨.dwrite (s.reg rt), s.effectiveAddress rs imm, true⟩ :: s.history := by
  obtain ⟨h, _⟩ | ⟨_, h, _⟩ | ⟨_, _, e⟩ := execSw_cases rs rt imm s
  · exact absurd ha h
  · exact absurd hg (by simp [h])
  · refine ⟨_, e, storesOnly_written (SameCore.refl s) rfl _ _ _, rfl, Memory.readWord_writeWord_self _ _ _, ?_⟩
    rw [State.setPc_history, State.written_history, hg]

/-- A partial store whose two requests are granted: the DREAD, then the DWRITE of the merged word. -/
theorem partialStoreOp_completes (h1 : s.answerAt 1 = true) (merge : Word → Word → Word) (rt : Reg) :
    ∃ t, partialStoreOp merge rs rt imm s = .next t ∧ StoresOnly (s.effectiveAddress rs imm) s t ∧ t.pc = s.pc + 4 ∧
      t.memory.readWord (s.effectiveAddress rs imm) =
        merge (s.memory.readWord (s.effectiveAddress rs imm)) (s.reg rt) ∧
      t.history = ⟨.dwrite (t.memory.readWord (s.effectiveAddress rs imm)), s.effectiveAddress rs imm, true⟩ ::
        ⟨.dread, s.effectiveAddress rs imm, true⟩ :: s.history ∧
      ∀ n, t.answerAt n = s.answerAt (n + 2) := by
  obtain ⟨h, _⟩ | ⟨_, h, _⟩ | ⟨_, _, h, _⟩ | ⟨_, _, _, e⟩ := partialStoreOp_cases merge rs rt imm s
  · exact absurd ha h
  · exact absurd hg (by simp [h])
  · exact absurd h1 (by simp [h])
  · refine ⟨_, e, storesOnly_written (SameCore.asked s _ _) rfl _ _ _, rfl, Memory.readWord_writeWord_self _ _ _, ?_,
      fun n => ?_⟩
    · have hholds := ((s.grantsNow_iff _).1 hg).2
      simp [Memory.readWord_writeWord_self, State.grantsNow_asked, h1, hholds, hg]
    · exact (State.answerAt_written _ _ _ n).trans (s.answerAt_asked _ _ (n + 1))

/-- A narrow load behind the partial store of its width, at the address formed again from the base: the part of the
register stored, whatever else stood in the word. -/
theorem partialStoreOp_then_loadOp {merge : Word → Word → Word} {part : Word → Word}
    (hpart : ∀ old v, part (merge old v) = part v) {rx ry : Reg} (hry : ry ≠ 0) (h1 : s.answerAt 1 = true)
    (h2 : s.answerAt 2 = true) {t : State} (ht : partialStoreOp merge rs rx imm s = .next t) :
    ∃ u, loadOp part rs ry imm t = .next u ∧ u.reg ry = part (s.reg rx) := by
  obtain ⟨_, he, hframe, _, hread, _, hans⟩ := partialStoreOp_completes ha hg h1 merge rx
  obtain rfl := Host.Outcome.next.inj (ht.symm.trans he)
  have hea := hframe.registers.effectiveAddress rs imm
  have hgt : t.grantsNow (s.effectiveAddress rs imm) = true :=
    (t.grantsNow_iff _).2 ⟨(hans 0).trans h2,
      (State.holds_congr hframe.outside.memDomain _).trans ((s.grantsNow_iff _).1 hg).2⟩
  obtain ⟨u, hu, _, _, hreg⟩ := loadOp_completes (hea ▸ ha) (hea ▸ hgt) part ry
  exact ⟨u, hu, by rw [hreg hry, hea, hread, hpart]⟩

end

/-- A record that stores makes no load-use hazard: it reads no memory (R71, R194). -/
theorem loadUse_of_memWrite {d : IdExPayload} (hd : d.ctl.Legal) (hw : d.ctl.memWrite = true) (w : Word) :
    loadUse (some d) w = false := by
  have hread : d.ctl.memRead = false := by simpa [hw] using hd.oneAccess
  simp [loadUse, hread]

/-! ## The statements -/

/-- Settles O20: the five rows by decoding what the encoder wrote, and the five completions from the one of a load of
the low 32, 16 or 8 bits. -/
theorem loadsComplete : Obligations.LoadsComplete := by
  unfold Obligations.LoadsComplete
  intro rs rt imm s a w load
  constructor
  · refine ⟨?_, ?_, ?_, ?_, ?_⟩ <;> exact hasRow_of_decode rfl (by simp [decode])
  · intro ha hg
    have half := loadOp_completes_mod ha hg maskHalf_toNat rt
    have byte := loadOp_completes_mod ha hg maskByte_toNat rt
    exact ⟨loadOp_completes ha hg (fun w => w) rt, half, half, byte, byte⟩

/-- Settles O21: the three rows, the one write of `sw`, and the read-merge-write pair of `sh` and `sb`, whose merged
word is the old upper part joined to the register's lower part. -/
theorem storesComplete : Obligations.StoresComplete := by
  unfold Obligations.StoresComplete
  intro rs rt imm s a old v
  refine ⟨?_, fun ha hg => ⟨execSw_completes ha hg rt, fun h1 => ⟨?_, ?_⟩⟩⟩
  · refine ⟨?_, ?_, ?_⟩ <;> exact hasRow_of_decode rfl (by simp [decode])
  · obtain ⟨t, he, hframe, hpc, hread, hlog, _⟩ := partialStoreOp_completes ha hg h1 mergeHalf rt
    exact ⟨t, he, hframe, hpc, hread.trans (mergeHalf_eq_append old v), hlog⟩
  · obtain ⟨t, he, hframe, hpc, hread, hlog, _⟩ := partialStoreOp_completes ha hg h1 mergeByte rt
    exact ⟨t, he, hframe, hpc, hread.trans (mergeByte_eq_append old v), hlog⟩

/-- Settles O23: a store leaves the base register and hence the address, so the load reads the merged word, of which its
mask keeps what the store put there; the signed spelling is the same load. -/
theorem storeThenLoadRoundTrip : Obligations.StoreThenLoadRoundTrip := by
  unfold Obligations.StoreThenLoadRoundTrip
  intro rs rx ry imm s t hry ha hans hholds
  have hg := (s.grantsNow_iff _).2 ⟨hans 0 (by decide), hholds⟩
  have h1 := hans 1 (by decide)
  have h2 := hans 2 (by decide)
  refine ⟨fun ht => ?_, fun ht => ?_, fun d w hw hd => loadUse_of_memWrite hd hw w⟩
  · obtain ⟨u, hu, hreg⟩ := partialStoreOp_then_loadOp ha hg maskByte_mergeByte hry h1 h2 ht
    exact ⟨u, u, hu, hu, hreg, hreg⟩
  · obtain ⟨u, hu, hreg⟩ := partialStoreOp_then_loadOp ha hg maskHalf_mergeHalf hry h1 h2 ht
    exact ⟨u, u, hu, hu, hreg, hreg⟩

end Sys2Proof.Machine
end

section
/-! PROOFS. Branches and jumps (44_branch_jump.md): a transfer of control leaves everything but `pc` as it was, and a
branch counts its offset in instructions from the next one. -/

namespace Sys2Proof.Machine

/-- The frame of every transfer of control that does not link: `setPc` touches `pc` alone. -/
theorem State.setPc_writesOnlyPc (s : State) (v : Word) : WritesOnlyPc s (s.setPc v) where
  registers := State.reg_setPc s v
  memory _ := rfl
  noRequest := ⟨rfl, rfl⟩
  outside := s.setPc_outside v

/-- Two zero bits below an extended offset: four times the offset (R54, R56). -/
theorem sext32_shiftLeft_two (imm : BitVec 16) : sext32 imm <<< 2 = BitVec.ofInt 32 (imm.toInt * 4) := by
  rw [BitVec.shiftLeft_eq_mul_twoPow, BitVec.ofInt_mul]
  rfl

/-- The target of the branch at `a` as an integer, modulo 2^32 (R56). -/
theorem toNat_branchTarget_sext32 (a : Word) (imm : BitVec 16) :
    ((branchTarget (a + 4) (sext32 imm)).toNat : Int) = ((a.toNat : Int) + 4 + imm.toInt * 4) % 2 ^ 32 := by
  have hnext : a + 4 = BitVec.ofInt 32 ((a.toNat : Int) + 4) := by
    rw [BitVec.ofInt_add, BitVec.ofInt_natCast, BitVec.ofNat_toNat, BitVec.setWidth_eq]
    rfl
  have htarget : branchTarget (a + 4) (sext32 imm) = BitVec.ofInt 32 ((a.toNat : Int) + 4 + imm.toInt * 4) := by
    rw [branchTarget, sext32_shiftLeft_two, hnext, ← BitVec.ofInt_add]
  rw [htarget, BitVec.toNat_ofInt, Int.toNat_of_nonneg (Int.emod_nonneg _ (by decide))]
  rfl

/-- A branch completes, whatever its condition. -/
theorem branchOp_completes (taken : Bool) (imm : BitVec 16) (s : State) :
    ∃ t, branchOp taken imm s = .next t ∧ WritesOnlyPc s t ∧
      (taken = true → (t.pc.toNat : Int) = ((s.pc.toNat : Int) + 4 + imm.toInt * 4) % 2 ^ 32) ∧
      (taken = false → t.pc = s.pc + 4) := by
  refine ⟨_, rfl, s.setPc_writesOnlyPc _, ?_, ?_⟩
  · rintro rfl
    exact toNat_branchTarget_sext32 s.pc imm
  · rintro rfl
    rfl

/-- Settles O24: the two rows by decoding what the encoder wrote, and both completions from the one of a branch, whose
condition is the comparison of the two registers. -/
theorem branchesComplete : Obligations.BranchesComplete := by
  unfold Obligations.BranchesComplete
  intro rs rt imm s
  refine ⟨?_, ?_, ?_⟩
  · constructor <;> exact hasRow_of_decode rfl (by simp [decode])
  · obtain ⟨t, he, hframe, htaken, hnext⟩ := branchOp_completes (s.reg rs == s.reg rt) imm s
    exact ⟨t, he, hframe, fun h => htaken (beq_iff_eq.2 h), fun h => hnext (beq_eq_false_iff_ne.2 h)⟩
  · obtain ⟨t, he, hframe, htaken, hnext⟩ := branchOp_completes (s.reg rs != s.reg rt) imm s
    exact ⟨t, he, hframe, fun h => htaken (bne_iff_ne.2 h), fun h => hnext (bne_eq_false_iff_eq.2 h)⟩

end Sys2Proof.Machine
end

section
/-! PROOFS. The memory stall (45_pipeline_stages.md, R168): when MEM's requests are denied, and what such a cycle leaves
as WB left it. -/

namespace Sys2Proof.Machine

/-! ## The log's IFETCH requests -/

@[simp] theorem firstRequest_isFetch (memRead byte halfword : Bool) (data : Word) :
    (firstRequest memRead byte halfword data).isFetch = false := by
  unfold firstRequest
  split <;> rfl

/-- A data request adds no IFETCH to the log. -/
theorem State.fetches_asked {k : RequestKind} (hk : k.isFetch = false) (s : State) (a : Word) :
    fetches (s.asked k a).history = fetches s.history := by
  simp [fetches, hk]

/-- MEM issues data requests only, one or two of them before it is denied (R165 to R167). -/
theorem memStage_denied_fetches {e : ExMemPayload} {s t : State} (h : memStage e s = .denied t) :
    fetches t.history = fetches s.history := by
  unfold memStage at h
  rcases dataAccess_cases e.memRead e.memWrite e.byte e.halfword e.aluResult e.writeData s with
    ⟨_, _, heq⟩ | ⟨_, _, heq⟩ | ⟨_, _, _, heq⟩ | ⟨_, _, _, _, _, _, heq⟩ | ⟨_, _, _, heq⟩ | ⟨_, _, _, _, _, _, heq⟩ |
    ⟨_, _, _, _, _, _, heq⟩ <;> rw [heq] at h <;> cases h
  case inr.inr.inl =>
    exact State.fetches_asked (firstRequest_isFetch _ _ _ _) _ _
  case inr.inr.inr.inl =>
    exact (State.fetches_asked rfl _ _).trans (State.fetches_asked rfl _ _)

/-! ## When MEM is denied -/

theorem writeBack_memGranted (s : State) (e : ExMemPayload) : (writeBack s).memGranted e = s.memGranted e := by
  simp [State.memGranted, writeBack_grantsNow, writeBack_answerAt]

/-- MEM at an aligned address, not all of its requests granted, answers denied: the record accesses memory, and the
denied request is the first, or the second of a partial store (R168). -/
theorem memStage_denied {s : State} {e : ExMemPayload} (ha : Aligned e.aluResult) (hg : s.memGranted e = false) :
    ∃ t, memStage e s = .denied t := by
  unfold memStage
  rcases dataAccess_cases e.memRead e.memWrite e.byte e.halfword e.aluResult e.writeData s with
    ⟨hr, hw, _⟩ | ⟨_, hna, _⟩ | ⟨_, _, _, heq⟩ | ⟨_, _, _, _, _, _, heq⟩ | ⟨hr, _, h0, _⟩ | ⟨_, _, hb, hh, _, h0, _⟩ |
    ⟨_, _, _, _, h0, h1, _⟩
  · simp [State.memGranted, ExMemPayload.accesses, hr, hw] at hg
  · exact absurd ha hna
  · exact ⟨_, heq⟩
  · exact ⟨_, heq⟩
  · simp [State.memGranted, ExMemPayload.isPartialStore, hr, h0] at hg
  · simp [State.memGranted, ExMemPayload.isPartialStore, hb, hh, h0] at hg
  · simp [State.memGranted, h0, h1] at hg

/-! ## The statement -/

/-- Settles O36: MEM, asked on the state WB left, is denied, and neither of the two touches EX/MEM, ID/EX, IF/ID,
`fetch_pc` or memory; the cycle ends there. -/
theorem memoryStallHoldsThePipeline : Obligations.MemoryStallHoldsThePipeline := by
  unfold Obligations.MemoryStallHoldsThePipeline
  intro s e hl he ha hg
  obtain ⟨u, hu⟩ := memStage_denied ha ((writeBack_memGranted s e).trans hg)
  obtain ⟨hcore, hmem⟩ := dataAccess_denied_core _ _ _ _ _ _ _ hu
  have hstep : step s = .next { u with memwb := none } := (step_pipelined hl).trans (advance_stall he hu)
  refine ⟨_, hstep, rfl, ?_, ?_, ?_, ?_, hcore.pc, State.reg_congr hcore.regs, fun k => ?_, ?_⟩
  · exact hcore.exmem.trans (writeBack_exmem s)
  · exact hcore.idex.trans (writeBack_idex s)
  · exact hcore.ifid.trans (writeBack_ifid s)
  · exact hcore.fetchPc.trans (writeBack_fetchPc s)
  · exact congrArg (Memory.readByte · k) (hmem.trans (writeBack_memory s))
  · exact (memStage_denied_fetches hu).trans (congrArg fetches (writeBack_history s))

end Sys2Proof.Machine
end

section
/-! PROOFS. The hazard units and the resolver (46_pipeline_hazards.md): where a forwarded operand comes from, when the
load-use interlock asks for a stall and why it never asks twice, and which target EX hands on. -/

namespace Sys2Proof.Machine

/-! ## Forwarding (R190) -/

theorem fwd_zero (em : Option ExMemPayload) (mw : Option MemWbPayload) (v : Word) : fwd em mw 0 v = v := by
  cases em <;> cases mw <;> simp [fwd]

/-- The younger record, in EX/MEM, hides MEM/WB. -/
theorem fwd_exmem {e : ExMemPayload} {src : Reg} (hs : src ≠ 0) (hw : e.regWrite = true) (hr : e.writeReg = src)
    (mw : Option MemWbPayload) (v : Word) : fwd (some e) mw src v = e.aluResult :=
  if_pos ⟨hs, hw, hr⟩

/-- An EX/MEM that does not write the register is passed over. -/
theorem fwd_of_exmem_misses {em : Option ExMemPayload} {src : Reg}
    (h : ¬ ∃ e, em = some e ∧ e.regWrite = true ∧ e.writeReg = src) (mw : Option MemWbPayload) (v : Word) :
    fwd em mw src v = fwd none mw src v := by
  cases em with
  | none => rfl
  | some e =>
    have hmiss : ¬ (src ≠ 0#5 ∧ e.regWrite = true ∧ e.writeReg = src) := fun ⟨_, hw, hr⟩ => h ⟨e, rfl, hw, hr⟩
    exact if_neg hmiss

theorem fwd_none_memwb {m : MemWbPayload} {src : Reg} (hs : src ≠ 0) (hw : m.regWrite = true) (hr : m.writeReg = src)
    (v : Word) : fwd none (some m) src v = if m.memToReg then m.memReadData else m.aluResult :=
  if_pos ⟨hs, hw, hr⟩

theorem fwd_none_of_memwb_misses {mw : Option MemWbPayload} {src : Reg}
    (h : ¬ ∃ m, mw = some m ∧ m.regWrite = true ∧ m.writeReg = src) (v : Word) : fwd none mw src v = v := by
  cases mw with
  | none => rfl
  | some m =>
    have hmiss : ¬ (src ≠ 0#5 ∧ m.regWrite = true ∧ m.writeReg = src) := fun ⟨_, hw, hr⟩ => h ⟨m, rfl, hw, hr⟩
    exact if_neg hmiss

/-- Settles O45: one rule for each source of the operand, EX/MEM passed over before MEM/WB is asked. -/
theorem forwardingPriority : Obligations.ForwardingPriority := by
  unfold Obligations.ForwardingPriority
  intro em mw src v fromMem fromWb
  refine ⟨?_, ?_, ?_, ?_⟩
  · rintro rfl
    exact fwd_zero em mw v
  · rintro e hs rfl hw hr
    exact fwd_exmem hs hw hr mw v
  · rintro m hs hmem rfl hw hr
    rw [fwd_of_exmem_misses hmem, fwd_none_memwb hs hw hr]
  · intro hmem hwb
    rw [fwd_of_exmem_misses hmem, fwd_none_of_memwb_misses hwb]

/-! ## The load-use interlock (R194, R195) -/

theorem loadUse_eq_true_iff (idex : Option IdExPayload) (w : Word) :
    loadUse idex w = true ↔
      ∃ d, idex = some d ∧ d.ctl.memRead = true ∧ d.rt ≠ 0 ∧ (d.rt = rsOf w ∨ d.rt = rtOf w) := by
  cases idex with
  | none => simp [loadUse]
  | some d => simp [loadUse, and_assoc]

theorem State.loadUseStall_eq_true_iff (s : State) :
    s.loadUseStall = true ↔ ∃ f, s.ifid = some f ∧ loadUse s.idex f.instruction = true := by
  unfold State.loadUseStall
  cases s.ifid <;> simp

/-- The bubble's control word is inert: it reads no memory. -/
theorem loadUse_bubble (p4 w : Word) : loadUse (some (bubblePayload p4)) w = false := rfl

theorem State.loadUseStall_of_ifid_none {s : State} (h : s.ifid = none) : s.loadUseStall = false := by
  simp [State.loadUseStall, h]

theorem State.loadUseStall_of_idex_bubble {s : State} {p4 : Word} (h : s.idex = some (bubblePayload p4)) :
    s.loadUseStall = false := by
  unfold State.loadUseStall
  split
  · rw [h, loadUse_bubble]
  · rfl

/-- What makes MEM answer denied is that not all of its requests are granted (R168). -/
theorem memGranted_of_memStage_denied {e : ExMemPayload} {s t : State} (h : memStage e s = .denied t) :
    s.memGranted e = false := by
  unfold memStage at h
  rcases dataAccess_cases e.memRead e.memWrite e.byte e.halfword e.aluResult e.writeData s with
    ⟨_, _, heq⟩ | ⟨_, _, heq⟩ | ⟨hacc, _, h0, _⟩ | ⟨hr, hw, hp, _, _, h1, _⟩ | ⟨_, _, _, heq⟩ |
    ⟨_, _, _, _, _, _, heq⟩ | ⟨_, _, _, _, _, _, heq⟩
  case inr.inr.inl =>
    have haccess : e.accesses = true := (Bool.or_eq_true _ _).mpr hacc
    simp [State.memGranted, haccess, h0]
  case inr.inr.inr.inl => simp [State.memGranted, ExMemPayload.accesses, ExMemPayload.isPartialStore, hr, hw, hp, h1]
  all_goals rw [heq] at h; cases h

/-- Where MEM does not stall, a pipelined step is a full cycle (R175). -/
theorem step_cases_of_memCompletes {s t : State} (hl : s.optLevel = .pipelined) (hm : s.memCompletes)
    (h : step s = .next t) :
    ∃ s1 mw em target out, MemDone s s1 mw ∧ exStage s = .ok (em, target) ∧
      ifStage s.loadUseStall s1 = .ok out ∧ t = commit target out (idStage s s1) em mw := by
  rcases advance_cases ((step_pipelined hl).symm.trans h) with ⟨e, u, he, hu, _⟩ | hfull
  · have hgranted := (writeBack_memGranted s e).trans (hm e he)
    exact absurd (memGranted_of_memStage_denied hu) (by simp [hgranted])
  · exact hfull

/-- The end of a stalled cycle asks for no stall: a redirect empties IF/ID, and without one ID/EX holds the bubble. -/
theorem commit_stalled_loadUseStall {s : State} (h : s.loadUseStall = true) (s1 : State) (target : Option Word)
    (out : IfOut) (em : Option ExMemPayload) (mw : Option MemWbPayload) :
    (commit target out (idStage s s1) em mw).loadUseStall = false := by
  cases target with
  | some p => exact State.loadUseStall_of_ifid_none rfl
  | none =>
    obtain ⟨_, d, _, hd, _⟩ := loadUseStall_cases h
    exact State.loadUseStall_of_idex_bubble (idStage_stall h hd)

/-- Settles O46: detection clause by clause from the interlock's own equations; a stall lasts one cycle because such a
cycle leaves IF/ID empty or a bubble in ID/EX. -/
theorem loadUseDetection : Obligations.LoadUseDetection := by
  unfold Obligations.LoadUseDetection
  refine ⟨loadUse_eq_true_iff, State.loadUseStall_eq_true_iff, loadUse_bubble, ?_⟩
  intro s t hl hm hstall hstep
  obtain ⟨s1, mw, em, target, out, _, _, _, rfl⟩ := step_cases_of_memCompletes hl hm hstep
  exact commit_stalled_loadUseStall hstall s1 target out em mw

/-! ## The resolver (R197, R198) -/

theorem zeroFlag_eq_true_iff (r : Word) : zeroFlag r = true ↔ r = 0 := beq_iff_eq

theorem takenBranch_eq_true_iff (c : Control) (zero : Bool) :
    takenBranch c zero = true ↔
      (c.branch = true ∧ c.bne = false ∧ zero = true) ∨ (c.branch = true ∧ c.bne = true ∧ zero = false) := by
  simp [takenBranch, and_assoc]

section
variable {c : Control} {zero : Bool} (p4 imm op1 : Word)

theorem redirect_taken (h : takenBranch c zero = true) : redirect c zero p4 imm op1 = some (branchTarget p4 imm) :=
  if_pos h

theorem redirect_jump (h : ¬ takenBranch c zero = true) (hj : c.jump = true) :
    redirect c zero p4 imm op1 = some (jumpTarget p4 imm) := by
  simp [redirect, h, hj]

theorem redirect_jumpReg (h : ¬ takenBranch c zero = true) (hj : c.jump = false) (hr : c.jumpReg = true) :
    redirect c zero p4 imm op1 = some op1 := by
  simp [redirect, h, hj, hr]

theorem redirect_none (h : ¬ takenBranch c zero = true) (hj : c.jump = false) (hr : c.jumpReg = false) :
    redirect c zero p4 imm op1 = none := by
  simp [redirect, h, hj, hr]

end

/-- What EX hands to the resolver, and what it makes of the answer: `zero` of the forwarded operands' result, the
redirect chosen on it, and `pc_commit` (R171, R197). -/
theorem execute_resolves {d : IdExPayload} {em : Option ExMemPayload} {mw : Option MemWbPayload} {out : ExOut}
    (h : execute d em mw = .ok out) :
    let op1 := if d.ctl.shift then zextShamt d.shamt else fwd em mw d.rs d.readData1
    let op2 := if d.ctl.aluSrc then d.imm else fwd em mw d.rt d.readData2
    out.exmem.zero = zeroFlag (alu d.ctl.aluOp d.funct d.opcode op1 op2) ∧
      out.redirect = redirect d.ctl out.exmem.zero d.pcPlus4 d.imm op1 ∧
      out.exmem.pcCommit = out.redirect.getD d.pcPlus4 := by
  rcases execute_cases d em mw with ⟨_, he⟩ | ⟨hlisted, _⟩
  · cases he.symm.trans h
  · unfold execute at h
    rw [hlisted] at h
    cases h
    exact ⟨rfl, rfl, rfl⟩

/-- Settles O49: EX asks the resolver on this cycle's `zero`, whose four answers are the four cases of the rule. -/
theorem resolverRule : Obligations.ResolverRule := by
  unfold Obligations.ResolverRule
  intro d em mw out h taken op1 op2
  obtain ⟨hzero, hredirect, hcommit⟩ := execute_resolves h
  have htaken : takenBranch d.ctl out.exmem.zero = true ↔ taken := takenBranch_eq_true_iff d.ctl out.exmem.zero
  refine ⟨?_, ?_, ?_, ?_, ?_, ?_, ?_⟩
  · rw [hzero]
    exact zeroFlag_eq_true_iff _
  · intro ht
    exact hredirect.trans (redirect_taken _ _ _ (htaken.2 ht))
  · intro ht hj
    exact hredirect.trans (redirect_jump _ _ _ (mt htaken.1 ht) hj)
  · intro ht hj hr
    exact hredirect.trans (redirect_jumpReg _ _ _ (mt htaken.1 ht) hj hr)
  · intro ht hj hr
    exact hredirect.trans (redirect_none _ _ _ (mt htaken.1 ht) hj hr)
  · intro target ht
    rw [hcommit, ht]
    rfl
  · intro hn
    rw [hcommit, hn]
    rfl

end Sys2Proof.Machine
end

section
/-! PROOFS. Encoding and decoding (30_encoding.md, 40_decoder.md): the two round trips, the three kinds of word, and the
decode table, the destination and the immediate read off the instruction a word stands for. -/

namespace Sys2Proof.Machine

/-! ## The round trips -/

/-- The R-format words are decoded by their `funct` alone. -/
theorem decode_encodeR (rs rt rd : Reg) (shamt : BitVec 5) (f : BitVec 6) :
    decode (encodeR rs rt rd shamt f) = decodeFunct (encodeR rs rt rd shamt f) := by
  simp [decode]

/-- No bit of an instruction is lost: the opcode, and under opcode 0 the `funct`, selects the constructor, and every
other bit of the word is one of its fields. -/
theorem decode_encode (i : Instr) : decode (encode i) = .ok i := by
  cases i with
  | add | sub | and | or | xor | nor | slt | sltu | sll | srl | sra | jr =>
    exact (decode_encodeR ..).trans (by simp [decodeFunct])
  | _ => simp [encode, decode]

/-- Settles O1: the round trip, constructor by constructor. -/
theorem decodeOfEncodeIsIdentity : Obligations.DecodeOfEncodeIsIdentity := by
  unfold Obligations.DecodeOfEncodeIsIdentity
  exact decode_encode

/-- A word with opcode 0 is put together again from its R-format fields, `funct` included. -/
theorem encode_of_decodeFunct {w : Word} {i : Instr} (hop : opcodeOf w = 0) (h : decodeFunct w = .ok i) :
    encode i = w := by
  have hfields := encodeR_fields w hop
  unfold decodeFunct at h
  split at h
  case h_13 => cases h
  all_goals
    rename_i hf
    cases h
    rw [hf] at hfields
    exact hfields

/-- Every row but those of opcode 0 is a row of the J format, opcodes 2 and 3, or of the I format. -/
theorem encode_of_decode {w : Word} {i : Instr} (h : decode w = .ok i) : encode i = w := by
  have hI := encodeI_fields w
  have hJ := encodeJ_fields w
  unfold decode at h
  split at h
  case h_1 hop => exact encode_of_decodeFunct hop h
  case h_2 hop | h_3 hop =>
    cases h
    rw [hop] at hJ
    exact hJ
  case h_22 => cases h
  all_goals
    rename_i hop
    cases h
    rw [hop] at hI
    exact hI

/-- Settles O2: the fields the decoder extracts make up the word again. -/
theorem encodeOfDecodeIsIdentity : Obligations.EncodeOfDecodeIsIdentity := by
  unfold Obligations.EncodeOfDecodeIsIdentity
  exact fun _ _ => encode_of_decode

/-! ## The three kinds of word (R58, R59, R63) -/

/-- The opcodes of R58. -/
def listedOpcodes : List (BitVec 6) :=
  [0x00, 0x02, 0x03, 0x04, 0x05, 0x08, 0x09, 0x0A, 0x0B, 0x0C, 0x0D, 0x0E, 0x0F, 0x20, 0x21, 0x23, 0x24, 0x25, 0x28,
    0x29, 0x2B]

/-- The `funct` codes of R59, those of `listedFunct`. -/
def listedFuncts : List (BitVec 6) := [0x00, 0x02, 0x03, 0x08, 0x20, 0x22, 0x24, 0x25, 0x26, 0x27, 0x2A, 0x2B]

theorem listedFunct_eq_true_iff (f : BitVec 6) : listedFunct f = true ↔ f ∈ listedFuncts := List.contains_iff_mem

theorem listedFunct_eq_false {f : BitVec 6} (h : f ∉ listedFuncts) : listedFunct f = false :=
  Bool.eq_false_iff.2 (mt (listedFunct_eq_true_iff f).1 h)

theorem opcodeOf_encode_mem (i : Instr) : opcodeOf (encode i) ∈ listedOpcodes := by
  cases i <;> simp [encode, listedOpcodes]

theorem functOf_encode_mem (i : Instr) (h : opcodeOf (encode i) = 0) : functOf (encode i) ∈ listedFuncts := by
  cases i <;> simp [encode] at h <;> simp [encode, listedFuncts]

theorem decodeFunct_error {w : Word} {r : Reject} (h : decodeFunct w = .error r) :
    functOf w ∉ listedFuncts ∧ r = .unlistedFunct (functOf w) := by
  unfold decodeFunct at h
  split at h
  case h_13 =>
    cases h
    refine ⟨?_, rfl⟩
    simp only [listedFuncts, List.mem_cons, List.not_mem_nil, or_false, not_or]
    and_intros <;> assumption
  all_goals cases h

theorem decode_error {w : Word} {r : Reject} (h : decode w = .error r) :
    (opcodeOf w ∉ listedOpcodes ∧ r = .unrecognizedOpcode (opcodeOf w)) ∨
    (opcodeOf w = 0 ∧ functOf w ∉ listedFuncts ∧ r = .unlistedFunct (functOf w)) := by
  unfold decode at h
  split at h
  case h_1 hop => exact .inr ⟨hop, decodeFunct_error h⟩
  case h_22 =>
    cases h
    refine .inl ⟨?_, rfl⟩
    simp only [listedOpcodes, List.mem_cons, List.not_mem_nil, or_false, not_or]
    and_intros <;> assumption
  all_goals cases h

/-- Everything a word can be: an encoded instruction, of an opcode outside the map, of a `funct` outside it. -/
theorem word_cases (w : Word) :
    (∃ i, encode i = w ∧ decode w = .ok i) ∨
    (opcodeOf w ∉ listedOpcodes ∧ decode w = .error (.unrecognizedOpcode (opcodeOf w))) ∨
    (opcodeOf w = 0 ∧ functOf w ∉ listedFuncts ∧ decode w = .error (.unlistedFunct (functOf w))) := by
  cases h : decode w with
  | ok i => exact .inl ⟨i, encode_of_decode h, rfl⟩
  | error r =>
    obtain ⟨hop, rfl⟩ | ⟨hop, hf, rfl⟩ := decode_error h
    · exact .inr (.inl ⟨hop, rfl⟩)
    · exact .inr (.inr ⟨hop, hf, rfl⟩)

theorem decode_unrecognized {w : Word} (h : opcodeOf w ∉ listedOpcodes) :
    decode w = .error (.unrecognizedOpcode (opcodeOf w)) := by
  obtain ⟨i, rfl, _⟩ | ⟨_, hd⟩ | ⟨hop, _⟩ := word_cases w
  · exact absurd (opcodeOf_encode_mem i) h
  · exact hd
  · exact absurd (by simp [hop, listedOpcodes]) h

theorem decode_unlisted {w : Word} (hop : opcodeOf w = 0) (hf : functOf w ∉ listedFuncts) :
    decode w = .error (.unlistedFunct (functOf w)) := by
  obtain ⟨i, rfl, _⟩ | ⟨h, _⟩ | ⟨_, _, hd⟩ := word_cases w
  · exact absurd (functOf_encode_mem i hop) hf
  · exact absurd (by simp [hop, listedOpcodes]) h
  · exact hd

/-- Settles O3: the three kinds of word, each with the memberships that tell it from the others. -/
theorem everyWordHasOneOfThreeOutcomes : Obligations.EveryWordHasOneOfThreeOutcomes := by
  unfold Obligations.EveryWordHasOneOfThreeOutcomes
  intro w listed functs
  obtain ⟨i, rfl, hd⟩ | ⟨hop, hd⟩ | ⟨hop, hf, hd⟩ := word_cases w
  · exact .inl ⟨⟨i, hd⟩, opcodeOf_encode_mem i, functOf_encode_mem i⟩
  · exact .inr (.inl ⟨hd, hop⟩)
  · exact .inr (.inr ⟨hd, hop, hf⟩)

/-- Settles O4: each word's opcode, `funct` and fields are read off its binary digits. -/
theorem sampleWordsDecode : Obligations.SampleWordsDecode := by
  unfold Obligations.SampleWordsDecode
  decide

/-- Settles O5: 32 bits of a word are the word, and its four bytes make it up again. -/
theorem tableWordDecoderIsTheDecoder : Obligations.TableWordDecoderIsTheDecoder := by
  unfold Obligations.TableWordDecoderIsTheDecoder
  intro w i
  have hw : tableWord 32 w.toNat = w := by
    unfold tableWord
    rw [Nat.mod_eq_of_lt w.isLt, BitVec.ofNat_toNat, BitVec.setWidth_eq]
  unfold decodeTableWord
  rw [hw, decodeBytes_wordBytes]
  cases decode w <;> simp

/-! ## The decode table (R73 to R83) -/

theorem controlWord_encode (i : Instr) : controlWord (encode i) = controlOfInstr i := by
  unfold controlWord
  rw [decode_encode]

theorem controlWord_unrecognized {w : Word} (h : opcodeOf w ∉ listedOpcodes) : controlWord w = Control.inert := by
  unfold controlWord
  rw [decode_unrecognized h]

theorem controlWord_unlisted {w : Word} (hop : opcodeOf w = 0) (hf : functOf w ∉ listedFuncts) :
    controlWord w = Control.rType := by
  unfold controlWord
  rw [decode_unlisted hop hf]

/-- Every other word of opcode 0, listed `funct` or not, gets the common R-type row (R62, R73). -/
theorem controlWord_rType {w : Word} (hop : opcodeOf w = 0) (h0 : functOf w ≠ 0x00) (h2 : functOf w ≠ 0x02)
    (h3 : functOf w ≠ 0x03) (h8 : functOf w ≠ 0x08) : controlWord w = Control.rType := by
  obtain ⟨i, rfl, _⟩ | ⟨h, _⟩ | ⟨_, hf, _⟩ := word_cases w
  · rw [controlWord_encode]
    cases i <;> simp [encode] at hop h0 h2 h3 h8 <;> rfl
  · exact absurd (by simp [hop, listedOpcodes]) h
  · exact controlWord_unlisted hop hf

/-- Settles O7: the opcode, and under opcode 0 the `funct`, selects the instruction, and the instruction its row. -/
theorem decodeTableRows : Obligations.DecodeTableRows := by
  unfold Obligations.DecodeTableRows
  intro w
  simp only [List.mem_cons, List.not_mem_nil, or_false]
  refine ⟨?_, ?_, ?_, ?_, ?_, ?_, ?_, ?_, ?_, ?_, ?_, ?_⟩
  · rintro hop (hf | hf | hf) <;> simp only [controlWord, decode, decodeFunct, hop, hf] <;> rfl
  · intro hop hf
    simp only [controlWord, decode, decodeFunct, hop, hf]
    rfl
  · intro hop h0 h2 h3 h8
    exact controlWord_rType hop h0 h2 h3 h8
  · rintro (h | h | h | h) <;> simp only [controlWord, decode, h] <;> rfl
  · rintro (h | h | h | h) <;> simp only [controlWord, decode, h] <;> rfl
  · rintro (h | h | h | h | h) <;> simp only [controlWord, decode, h] <;> rfl
  · rintro (h | h | h) <;> simp only [controlWord, decode, h] <;> rfl
  · intro h
    simp only [controlWord, decode, h]
    rfl
  · intro h
    simp only [controlWord, decode, h]
    rfl
  · intro h
    simp only [controlWord, decode, h]
    rfl
  · intro h
    simp only [controlWord, decode, h]
    rfl
  · intro h
    exact controlWord_unrecognized (by simpa [listedOpcodes] using h)

/-- The destination by opcode (R83). -/
theorem destination_controlWord (w : Word) :
    destination (controlWord w) (rtOf w) (rdOf w) =
      if opcodeOf w = 0x03 then 31 else if opcodeOf w = 0x00 then rdOf w else rtOf w := by
  obtain ⟨i, rfl, _⟩ | ⟨h, _⟩ | ⟨hop, hf, _⟩ := word_cases w
  · rw [controlWord_encode]
    cases i <;> simp only [encode, opcodeOf_encodeR, opcodeOf_encodeI, opcodeOf_encodeJ] <;> rfl
  · have h3 : opcodeOf w ≠ 0x03 := fun e => h (by simp [e, listedOpcodes])
    have h0 : opcodeOf w ≠ 0x00 := fun e => h (by simp [e, listedOpcodes])
    rw [controlWord_unrecognized h, if_neg h3, if_neg h0]
    rfl
  · rw [controlWord_unlisted hop hf, hop]
    rfl

/-- The immediate by opcode (R54, R82). -/
theorem imm32_controlWord (w : Word) :
    imm32 w (controlWord w) =
      if opcodeOf w ∈ ([0x0C, 0x0D, 0x0E, 0x0F] : List (BitVec 6)) then zext32 (immOf w)
      else if opcodeOf w ∈ ([0x02, 0x03] : List (BitVec 6)) then zextJaddr (jaddrOf w)
      else sext32 (immOf w) := by
  obtain ⟨i, rfl, _⟩ | ⟨h, _⟩ | ⟨hop, hf, _⟩ := word_cases w
  · rw [controlWord_encode]
    cases i <;> simp only [encode, opcodeOf_encodeR, opcodeOf_encodeI, opcodeOf_encodeJ] <;> rfl
  · have hz : opcodeOf w ∉ ([0x0C, 0x0D, 0x0E, 0x0F] : List (BitVec 6)) := fun e =>
      h ((by decide : [0x0C, 0x0D, 0x0E, 0x0F] ⊆ listedOpcodes) e)
    have hj : opcodeOf w ∉ ([0x02, 0x03] : List (BitVec 6)) := fun e =>
      h ((by decide : [0x02, 0x03] ⊆ listedOpcodes) e)
    rw [controlWord_unrecognized h, if_neg hz, if_neg hj]
    rfl
  · rw [controlWord_unlisted hop hf, hop]
    rfl

/-- Settles O9: the three extensions, each with the integer it keeps. -/
theorem immediateExtension : Obligations.ImmediateExtension := by
  unfold Obligations.ImmediateExtension
  intro w imm
  have himm : imm = _ := imm32_controlWord w
  refine ⟨fun hz => ?_, fun hj => ?_, fun hs => ?_⟩
  · rw [himm, if_pos hz]
    exact BitVec.toNat_setWidth_of_le (by decide)
  · have hz : opcodeOf w ∉ ([0x0C, 0x0D, 0x0E, 0x0F] : List (BitVec 6)) := by
      obtain e | e : opcodeOf w = 0x02 ∨ opcodeOf w = 0x03 := by simpa using hj
      all_goals rw [e]; decide
    rw [himm, if_neg hz, if_pos hj]
    exact BitVec.toNat_setWidth_of_le (by decide)
  · have hz : opcodeOf w ∉ ([0x0C, 0x0D, 0x0E, 0x0F] : List (BitVec 6)) := fun e =>
      hs (List.mem_append_right [0x02, 0x03] e)
    have hj : opcodeOf w ∉ ([0x02, 0x03] : List (BitVec 6)) := fun e =>
      hs (List.mem_append_left [0x0C, 0x0D, 0x0E, 0x0F] e)
    rw [himm, if_neg hz, if_neg hj]
    exact BitVec.toInt_signExtend_of_le (by decide)

end Sys2Proof.Machine
end

section
/-! PROOFS. Memory, the ALU instructions and the jumps (20_memory.md, 41_alu_register.md, 42_alu_immediate.md,
43_load_store.md, 44_branch_jump.md): one frame for every instruction that writes a register, and each operation as
arithmetic on integers or on bits. -/

namespace Sys2Proof.Machine

/-! ## Memory (R32, R36) -/

/-- Settles O12: the store's laws at the same word, at another, and at a byte outside it. -/
theorem memoryReadAfterWrite : Obligations.MemoryReadAfterWrite := by
  unfold Obligations.MemoryReadAfterWrite
  intro m a b v ha hb
  refine ⟨?_, m.readByte_writeWord_outside a v, m.wf_writeWord a v⟩
  split
  case isTrue h => rw [h, m.readWord_writeWord_self]
  case isFalse h => exact m.readWord_writeWord_ne a b v ha hb h

/-! ## The frame of an instruction that writes a register -/

theorem State.writeAndAdvance_writesOnly (s : State) (d : Reg) (v : Word) : WritesOnly d s (s.writeAndAdvance d v) where
  registers r hr := State.reg_setReg_ne s d r v hr
  zero := State.reg_zero _
  memory k := by rw [State.writeAndAdvance_memory]
  noRequest := ⟨State.writeAndAdvance_grants s d v, State.writeAndAdvance_history s d v⟩
  outside := s.writeAndAdvance_outside d v

theorem State.reg_writeAndAdvance_self (s : State) {d : Reg} (v : Word) (h : d ≠ 0) :
    (s.writeAndAdvance d v).reg d = v :=
  State.reg_setReg_self s d v h

/-- Such an instruction completes; what it wrote has whatever property `P` its value has. -/
theorem writeAndAdvance_completes {s : State} {d : Reg} {v : Word} {r : Result} (P : Word → Prop)
    (hr : r = .next (s.writeAndAdvance d v)) (hv : P v) :
    ∃ t, r = .next t ∧ WritesOnly d s t ∧ t.pc = s.pc + 4 ∧ (d ≠ 0 → P (t.reg d)) :=
  ⟨_, hr, s.writeAndAdvance_writesOnly d v, rfl, fun h => (s.reg_writeAndAdvance_self v h).symm ▸ hv⟩

/-! ## The operations as arithmetic -/

/-- The bits of a word. -/
def HasBits (bit : Nat → Bool) (x : Word) : Prop := ∀ k, k < 32 → x.getLsbD k = bit k

theorem toNat_sub_word (a b : Word) : ((a - b).toNat : Int) = ((a.toNat : Int) - (b.toNat : Int)) % 2 ^ 32 := by
  have := b.isLt
  rw [BitVec.toNat_sub]
  omega

theorem toNat_setLess (a b : Word) : (setLess a b).toNat = if a.toInt < b.toInt then 1 else 0 := by
  unfold setLess
  split <;> rfl

theorem toNat_setLessUnsigned (a b : Word) : (setLessUnsigned a b).toNat = if a.toNat < b.toNat then 1 else 0 := by
  unfold setLessUnsigned
  split <;> rfl

theorem toInt_sext32 (imm : BitVec 16) : (sext32 imm).toInt = imm.toInt :=
  BitVec.toInt_signExtend_of_le (by decide)

theorem toNat_sext32 (imm : BitVec 16) : ((sext32 imm).toNat : Int) = imm.toInt % 2 ^ 32 := by
  have hsext : sext32 imm = BitVec.ofInt 32 imm.toInt := rfl
  rw [hsext, BitVec.toNat_ofInt, Int.toNat_of_nonneg (Int.emod_nonneg _ (by decide))]
  rfl

/-- A sum with a sign-extended immediate is the integer sum modulo 2^32, no carry lost but the last (R111, R125). -/
theorem toNat_add_sext32 (a : Word) (imm : BitVec 16) :
    ((a + sext32 imm).toNat : Int) = ((a.toNat : Int) + imm.toInt) % 2 ^ 32 := by
  have := toNat_sext32 imm
  rw [BitVec.toNat_add]
  omega

/-- Zero extension keeps the low 16 bits and clears the rest (R54). -/
theorem getLsbD_zext32 (imm : BitVec 16) {k : Nat} (hk : k < 32) :
    (zext32 imm).getLsbD k = (decide (k < 16) && imm.getLsbD k) := by
  rw [zext32, BitVec.getLsbD_setWidth, decide_eq_true hk, Bool.true_and]
  by_cases h : k < 16
  · simp [h]
  · simp [h, BitVec.getLsbD_of_ge imm k (by omega)]

theorem toNat_upperHalf (imm : BitVec 16) : (upperHalf imm).toNat = imm.toNat * 2 ^ 16 := by
  rw [upperHalf, BitVec.toNat_append, Nat.shiftLeft_eq]
  exact Nat.or_zero _

/-! ## Register ALU instructions and shifts -/

/-- Settles O13: the sum and the difference of two words, as integers modulo 2^32. -/
theorem addSubWrap : Obligations.AddSubWrap := by
  unfold Obligations.AddSubWrap
  intro rs rt rd sh s
  exact ⟨writeAndAdvance_completes (fun x => x.toNat = _) rfl (BitVec.toNat_add _ _),
    writeAndAdvance_completes (fun x => (x.toNat : Int) = _) rfl (toNat_sub_word _ _)⟩

/-- Settles O14: the four operations, bit by bit. -/
theorem registerLogicIsBitwise : Obligations.RegisterLogicIsBitwise := by
  unfold Obligations.RegisterLogicIsBitwise
  intro rs rt rd sh s a b
  refine ⟨writeAndAdvance_completes (HasBits fun k => a.getLsbD k && b.getLsbD k) rfl fun k _ => BitVec.getLsbD_and,
    writeAndAdvance_completes (HasBits fun k => a.getLsbD k || b.getLsbD k) rfl fun k _ => BitVec.getLsbD_or,
    writeAndAdvance_completes (HasBits fun k => a.getLsbD k ^^ b.getLsbD k) rfl fun k _ => BitVec.getLsbD_xor,
    writeAndAdvance_completes (HasBits fun k => !(a.getLsbD k || b.getLsbD k)) rfl fun k hk => ?_⟩
  rw [BitVec.getLsbD_not, decide_eq_true hk, Bool.true_and, BitVec.getLsbD_or]

/-- Settles O15: the four comparisons, the immediate ones against the sign-extended immediate. -/
theorem setLessThanCompares : Obligations.SetLessThanCompares := by
  unfold Obligations.SetLessThanCompares
  intro rs rt rd sh imm s
  refine ⟨writeAndAdvance_completes (fun x => x.toNat = _) rfl (toNat_setLess _ _),
    writeAndAdvance_completes (fun x => x.toNat = _) rfl (toNat_setLessUnsigned _ _),
    writeAndAdvance_completes (fun x => x.toNat = _) rfl ?_, writeAndAdvance_completes (fun x => x.toNat = _) rfl ?_⟩
  · rw [toNat_setLess, toInt_sext32]
  · rw [toNat_setLessUnsigned, ← toNat_sext32]
    simp only [Nat.cast_lt]

/-- Settles O16: a shift left as a product, the two shifts right as quotients rounded down. -/
theorem shiftsScaleByPowersOfTwo : Obligations.ShiftsScaleByPowersOfTwo := by
  unfold Obligations.ShiftsScaleByPowersOfTwo
  intro rs rt rd sh s
  refine ⟨writeAndAdvance_completes (fun x => x.toNat = _) rfl ?_,
    writeAndAdvance_completes (fun x => x.toNat = _) rfl ?_, writeAndAdvance_completes (fun x => x.toInt = _) rfl ?_⟩
  · rw [BitVec.toNat_shiftLeft, Nat.shiftLeft_eq]
  · rw [BitVec.toNat_ushiftRight, Nat.shiftRight_eq_div_pow]
  · rw [BitVec.toInt_sshiftRight, Int.shiftRight_eq_div_pow]
    norm_cast

/-! ## Immediate ALU instructions -/

/-- Settles O17: `addi` and `addiu` are one operation, the sum with the sign-extended immediate. -/
theorem addImmediateWraps : Obligations.AddImmediateWraps := by
  unfold Obligations.AddImmediateWraps
  intro rs rt imm s
  obtain ⟨t, he, hframe, hpc, hreg⟩ :=
    writeAndAdvance_completes (fun x => (x.toNat : Int) = _) rfl (toNat_add_sext32 (s.reg rs) imm)
  exact ⟨t, he, he, hframe, hpc, hreg⟩

/-- Settles O18: the three bitwise operations with an immediate that is zero above bit 15, and the immediate moved
there. -/
theorem immediateLogicAndUpper : Obligations.ImmediateLogicAndUpper := by
  unfold Obligations.ImmediateLogicAndUpper
  intro rs rt imm s a
  refine ⟨writeAndAdvance_completes (HasBits fun k => decide (k < 16) && (a.getLsbD k && imm.getLsbD k)) rfl
      fun k hk => ?_,
    writeAndAdvance_completes (HasBits fun k => a.getLsbD k || (decide (k < 16) && imm.getLsbD k)) rfl fun k hk => ?_,
    writeAndAdvance_completes (HasBits fun k => a.getLsbD k ^^ (decide (k < 16) && imm.getLsbD k)) rfl fun k hk => ?_,
    writeAndAdvance_completes (fun x => x.toNat = _) rfl (toNat_upperHalf imm)⟩
  · rw [BitVec.getLsbD_and, getLsbD_zext32 imm hk, Bool.and_left_comm]
  · rw [BitVec.getLsbD_or, getLsbD_zext32 imm hk]
  · rw [BitVec.getLsbD_xor, getLsbD_zext32 imm hk]

/-- Settles O10: the fields in question are no arguments of the operations. -/
theorem dontCareFieldsHaveNoEffect : Obligations.DontCareFieldsHaveNoEffect := by
  unfold Obligations.DontCareFieldsHaveNoEffect
  intros
  exact ⟨rfl, rfl, rfl, rfl, rfl, rfl, rfl, rfl, rfl, rfl, rfl, rfl, rfl⟩

/-! ## Effective addresses -/

/-- Settles O19: an effective address is a sum with a sign-extended immediate. -/
theorem effectiveAddressSum : Obligations.EffectiveAddressSum := by
  unfold Obligations.EffectiveAddressSum
  exact fun rs imm s => toNat_add_sext32 (s.reg rs) imm

section
variable {rs : Reg} {imm : BitVec 16} {s : State} (h : ¬ Aligned (s.effectiveAddress rs imm)) (rt : Reg)
include h

theorem loadOp_misaligned (part : Word → Word) :
    loadOp part rs rt imm s = .refused (.misalignedData (s.effectiveAddress rs imm)) := by
  unfold loadOp
  rw [s.readPort_misaligned .dread _ h]

theorem execSw_misaligned : execSw rs rt imm s = .refused (.misalignedData (s.effectiveAddress rs imm)) := by
  unfold execSw
  rw [s.writePort_misaligned _ _ h]
  rfl

theorem partialStoreOp_misaligned (merge : Word → Word → Word) :
    partialStoreOp merge rs rt imm s = .refused (.misalignedData (s.effectiveAddress rs imm)) := by
  unfold partialStoreOp State.updatePort
  rw [s.readPort_misaligned .dread _ h]
  rfl

end

/-- Settles O22: the refusal of a load, of `sw` and of a partial store. -/
theorem misalignedDataIsRefused : Obligations.MisalignedDataIsRefused := by
  unfold Obligations.MisalignedDataIsRefused
  intro rs rt imm s h i hi
  simp only [List.mem_cons, List.not_mem_nil, or_false] at hi
  obtain rfl | rfl | rfl | rfl | rfl | rfl | rfl | rfl := hi
  · exact loadOp_misaligned h rt _
  · exact loadOp_misaligned h rt _
  · exact loadOp_misaligned h rt _
  · exact loadOp_misaligned h rt _
  · exact loadOp_misaligned h rt _
  · exact execSw_misaligned h rt
  · exact partialStoreOp_misaligned h rt _
  · exact partialStoreOp_misaligned h rt _

/-! ## Jumps -/

/-- A jump's target as an integer: the 256 MiB region of `A + 4`, then the field counted in instructions (R57). -/
theorem toNat_jumpAddress (p4 : Word) (jaddr : BitVec 26) :
    (jumpAddress p4 jaddr).toNat = p4.toNat / 2 ^ 28 * 2 ^ 28 + jaddr.toNat * 4 := by
  have hj := jaddr.isLt
  have hregion : (p4.extractLsb' 28 4).toNat = p4.toNat / 2 ^ 28 := by
    have := p4.isLt
    rw [BitVec.extractLsb'_toNat, Nat.shiftRight_eq_div_pow]
    omega
  rw [jumpAddress, BitVec.toNat_append, BitVec.toNat_append, hregion, Nat.shiftLeft_eq, Nat.shiftLeft_eq]
  rw [Nat.mul_comm _ (2 ^ 26), ← Nat.two_pow_add_eq_or_of_lt hj]
  exact (Nat.or_zero _).trans (by omega)

/-- The frame of `jal`: x[31] and `pc`. -/
theorem setReg_setPc_writesOnly (s : State) (d : Reg) (v target : Word) :
    WritesOnly d s ((s.setReg d v).setPc target) where
  registers r hr := State.reg_setReg_ne s d r v hr
  zero := State.reg_zero _
  memory k := by rw [State.setPc_memory, State.setReg_memory]
  noRequest := ⟨State.setReg_grants s d v, State.setReg_history s d v⟩
  outside := (s.writeAndAdvance_outside d v).trans (State.setPc_outside _ target)

/-- Settles O25: the rows by decoding what the encoder wrote, and the frames of `setPc` and of the link. -/
theorem jumpsComplete : Obligations.JumpsComplete := by
  unfold Obligations.JumpsComplete
  intro rs rt rd sh jaddr s
  have htarget := toNat_jumpAddress (s.pc + 4) jaddr
  refine ⟨⟨?_, ?_, ?_⟩, ?_, ?_, ?_⟩
  · exact ⟨opcodeOf_encodeJ _ _, controlWord_encode _⟩
  · exact ⟨opcodeOf_encodeJ _ _, controlWord_encode _⟩
  · exact ⟨opcodeOf_encodeR _ _ _ _ _, controlWord_encode _⟩
  · exact ⟨_, rfl, s.setPc_writesOnlyPc _, htarget⟩
  · exact ⟨_, rfl, setReg_setPc_writesOnly s 31 _ _, State.reg_setReg_self s 31 _ (by decide), htarget⟩
  · exact ⟨_, rfl, s.setPc_writesOnlyPc _, rfl⟩

/-! ## Alignment of targets (R56, R57, R151) -/

theorem aligned_branchTarget {p4 : Word} (h : Aligned p4) (imm : Word) : Aligned (branchTarget p4 imm) := by
  have h4 : p4.toNat % 4 = 0 := h
  unfold Aligned branchTarget
  rw [BitVec.toNat_add, BitVec.toNat_shiftLeft, Nat.shiftLeft_eq]
  omega

theorem aligned_jumpAddress (p4 : Word) (jaddr : BitVec 26) : Aligned (jumpAddress p4 jaddr) := by
  unfold Aligned
  rw [toNat_jumpAddress]
  omega

/-- The two parts the pipeline joins by OR do not overlap: they are R57's concatenation, whatever the immediate's upper
bits. -/
theorem jumpTarget_eq_jumpAddress (p4 imm : Word) : jumpTarget p4 imm = jumpAddress p4 (imm.extractLsb' 0 26) := by
  have hmasks : jumpTarget p4 imm =
      (p4 &&& (BitVec.allOnes 4 ++ 0#28)) ||| ((imm &&& (0#6 ++ BitVec.allOnes 26)) <<< 2) := rfl
  rw [hmasks]
  apply BitVec.eq_of_getLsbD_eq; intro i hi
  simp only [jumpAddress, BitVec.getLsbD_append, BitVec.getLsbD_or, BitVec.getLsbD_and, BitVec.getLsbD_shiftLeft,
    BitVec.getLsbD_extractLsb', BitVec.getLsbD_allOnes, BitVec.getLsbD_zero]
  grind

/-- The jump field as ID carries it makes R57's target (D16). -/
theorem jumpTarget_zextJaddr (p4 : Word) (jaddr : BitVec 26) :
    jumpTarget p4 (zextJaddr jaddr) = jumpAddress p4 jaddr := by
  have hfield : (zextJaddr jaddr).extractLsb' 0 26 = jaddr := by
    rw [zextJaddr, BitVec.extractLsb'_setWidth_of_le (by decide)]
    exact BitVec.extractLsb'_eq_self
  rw [jumpTarget_eq_jumpAddress, hfield]

/-- Settles O26: both targets end in two zero bits, and the pipeline's jump target is R57's concatenation. -/
theorem transferTargetsStayAligned : Obligations.TransferTargetsStayAligned := by
  unfold Obligations.TransferTargetsStayAligned
  intro p4 imm jaddr h
  refine ⟨aligned_branchTarget h imm, ?_, aligned_jumpAddress p4 jaddr, jumpTarget_zextJaddr p4 jaddr⟩
  rw [jumpTarget_eq_jumpAddress]
  exact aligned_jumpAddress p4 _

end Sys2Proof.Machine
end

section
/-! PROOFS. EX on its operands, and the single-cycle model (45_pipeline_stages.md section 4, 47_reference_model.md): the
reference datapath is EX, MEM and WB run one after the other on one word, and it is the instructions' meanings. -/

namespace Sys2Proof.Machine

/-! ## EX (R169 to R171) -/

/-- Forwarding only chooses the operands: EX on forwarded values is EX on a record that holds them. -/
theorem execute_forwarded (d : IdExPayload) (em : Option ExMemPayload) (mw : Option MemWbPayload) :
    execute d em mw =
      execute { d with readData1 := fwd em mw d.rs d.readData1, readData2 := fwd em mw d.rt d.readData2 } none none :=
  rfl

/-- A record made of a word, with the operands the registers hold, is the one ID makes. -/
theorem IdExPayload.FromWord.eq_decodeOut {d : IdExPayload} {w : Word} (h : d.FromWord w) {s : State}
    (h1 : d.readData1 = s.reg (rsOf w)) (h2 : d.readData2 = s.reg (rtOf w)) : d = decodeOut ⟨w, d.pcPlus4⟩ s := by
  obtain ⟨hctl, himm, hrs, hrt, hrd, hop, hfunct, hshamt, hbubble⟩ := h
  rw [hctl] at himm
  cases d
  simp_all [decodeOut]

theorem decodeOut_fromWord (w p4 : Word) (s : State) : (decodeOut ⟨w, p4⟩ s).FromWord w :=
  ⟨rfl, rfl, rfl, rfl, rfl, rfl, rfl, rfl, rfl⟩

/-- EX on the forwarded operands is EX on the registers they equal. -/
theorem IdExPayload.FromWord.execute_eq {d : IdExPayload} {w : Word} (h : d.FromWord w) {s : State}
    {em : Option ExMemPayload} {mw : Option MemWbPayload} (h1 : fwd em mw d.rs d.readData1 = s.reg (rsOf w))
    (h2 : fwd em mw d.rt d.readData2 = s.reg (rtOf w)) :
    execute d em mw = execute (decodeOut ⟨w, d.pcPlus4⟩ s) none none := by
  have hd : ({ d with readData1 := fwd em mw d.rs d.readData1, readData2 := fwd em mw d.rt d.readData2 } :
      IdExPayload).FromWord w := { h with }
  rw [execute_forwarded, hd.eq_decodeOut h1 h2]

/-- What an EX/MEM record copies from the ID/EX record it is made of: the signals of the later stages, the destination
and the bubble mark (R169, R171). -/
structure ExMemPayload.CopiedFrom (e : ExMemPayload) (d : IdExPayload) : Prop where
  regWrite : e.regWrite = d.ctl.regWrite
  memToReg : e.memToReg = d.ctl.memToReg
  link : e.link = d.ctl.link
  halfword : e.halfword = d.ctl.halfword
  byte : e.byte = d.ctl.byte
  memRead : e.memRead = d.ctl.memRead
  memWrite : e.memWrite = d.ctl.memWrite
  writeReg : e.writeReg = destination d.ctl d.rt d.rd
  bubble : e.bubble = d.bubble

theorem execute_copies {d : IdExPayload} {em : Option ExMemPayload} {mw : Option MemWbPayload} {out : ExOut}
    (h : execute d em mw = .ok out) : out.exmem.CopiedFrom d := by
  obtain ⟨_, he⟩ | ⟨hlisted, _⟩ := execute_cases d em mw
  · cases he.symm.trans h
  · unfold execute at h
    rw [hlisted] at h
    cases h
    constructor <;> rfl

/-- What EX computes for EX/MEM: the ALU's result, or a link's `pc_plus_4`, and the store data (R169, R170). -/
theorem execute_results {d : IdExPayload} {em : Option ExMemPayload} {mw : Option MemWbPayload} {out : ExOut}
    (h : execute d em mw = .ok out) :
    let op1 := if d.ctl.shift then zextShamt d.shamt else fwd em mw d.rs d.readData1
    let op2 := if d.ctl.aluSrc then d.imm else fwd em mw d.rt d.readData2
    out.exmem.aluResult = (if d.ctl.link then d.pcPlus4 else alu d.ctl.aluOp d.funct d.opcode op1 op2) ∧
      out.exmem.writeData = fwd em mw d.rt d.readData2 := by
  obtain ⟨_, he⟩ | ⟨hlisted, _⟩ := execute_cases d em mw
  · cases he.symm.trans h
  · unfold execute at h
    rw [hlisted] at h
    cases h
    exact ⟨rfl, rfl⟩

/-- Settles O8: the destination of every word by opcode, and the same choice in EX. -/
theorem destinationRegisterChoice : Obligations.DestinationRegisterChoice := by
  unfold Obligations.DestinationRegisterChoice
  exact ⟨destination_controlWord, fun _ _ _ _ h => (execute_copies h).writeReg⟩

/-! ## The control word of a load or store (R76, R77) -/

/-- An access forms its address as base plus sign-extended displacement, transfers no control and links nothing. -/
structure Control.FormsAddress (c : Control) : Prop where
  aluSrc : c.aluSrc = true
  aluOp : c.aluOp = .add
  shift : c.shift = false
  zeroExtend : c.zeroExtend = false
  branch : c.branch = false
  jump : c.jump = false
  jumpReg : c.jumpReg = false
  link : c.link = false
  regDest : c.regDest = false

theorem controlOfInstr_formsAddress (i : Instr)
    (h : (controlOfInstr i).memRead = true ∨ (controlOfInstr i).memWrite = true) : (controlOfInstr i).FormsAddress := by
  cases i with
  | lw | lh | lhu | lb | lbu | sw | sh | sb => exact ⟨rfl, rfl, rfl, rfl, rfl, rfl, rfl, rfl, rfl⟩
  | _ => exact absurd h (by simp [controlOfInstr, Control.rType, Control.shiftType, Control.jumpRegister,
      Control.immediate, Control.immediateZext])

theorem controlWord_formsAddress {w : Word} (h : (controlWord w).memRead = true ∨ (controlWord w).memWrite = true) :
    (controlWord w).FormsAddress := by
  obtain ⟨i, rfl, _⟩ | ⟨hop, _⟩ | ⟨hop, hf, _⟩ := word_cases w
  · rw [controlWord_encode] at h ⊢
    exact controlOfInstr_formsAddress i h
  · rw [controlWord_unrecognized hop] at h
    exact absurd h (by decide)
  · rw [controlWord_unlisted hop hf] at h
    exact absurd h (by decide)

/-- A linking word makes no access. -/
theorem controlWord_link_no_access {w : Word} (h : (controlWord w).link = true) :
    (controlWord w).memRead = false ∧ (controlWord w).memWrite = false := by
  have hno : ¬ ((controlWord w).memRead = true ∨ (controlWord w).memWrite = true) := fun hacc =>
    absurd (controlWord_formsAddress hacc).link (by simp [h])
  simpa [not_or] using hno

/-! ## WB as a function of the record -/

/-- The commit of one MEM/WB record (R163). -/
def State.retire (s : State) (m : MemWbPayload) : State :=
  (if m.regWrite then s.setReg m.writeReg m.value else s).setPc m.pcCommit

theorem writeBack_eq_retire {s : State} {m : MemWbPayload} (h : s.memwb = some m) : writeBack s = s.retire m :=
  writeBack_some h

@[simp] theorem State.retire_pc (s : State) (m : MemWbPayload) : (s.retire m).pc = m.pcCommit := rfl

@[simp] theorem State.retire_memory (s : State) (m : MemWbPayload) : (s.retire m).memory = s.memory := by
  unfold State.retire; split <;> simp

@[simp] theorem State.retire_history (s : State) (m : MemWbPayload) : (s.retire m).history = s.history := by
  unfold State.retire; split <;> simp

theorem State.reg_retire (s : State) (m : MemWbPayload) (r : Reg) :
    (s.retire m).reg r = if m.regWrite = true ∧ m.writeReg = r ∧ r ≠ 0 then m.value else s.reg r := by
  unfold State.retire
  cases m.regWrite
  · simp
  · simp only [if_true, State.reg_setPc, State.reg_setReg, true_and]
    by_cases h : m.writeReg = r
    · subst h; rfl
    · rw [if_neg (fun e => h e.1.symm), if_neg (fun e => h e.1)]

theorem State.retire_outside (s : State) (m : MemWbPayload) : SameOutside s (s.retire m) := by
  unfold State.retire
  split
  · exact (s.writeAndAdvance_outside m.writeReg m.value).trans (State.setPc_outside _ _)
  · exact s.setPc_outside _

theorem State.retire_stored_zero (s : State) (m : MemWbPayload) : (s.retire m).regs[0] = s.regs[0] := by
  unfold State.retire
  split
  · exact s.setReg_stored_zero _ _
  · rfl

/-! ## One word through the stages -/

/-- EX, MEM and WB on one word, with nothing in the latches (R220). -/
def stagesInOneGo (w : Word) (s : State) : Result :=
  match execute (decodeOut ⟨w, s.pcPlus4⟩ s) none none with
  | .error r => .refused r
  | .ok out =>
    match memStage out.exmem s with
    | .misaligned => .refused (.misalignedData out.exmem.aluResult)
    | .denied s1 => .next s1
    | .granted d s1 => .next (s1.retire (memOut out.exmem d))

/-- The reference datapath is the pipeline's stages with the latches removed (R220). A link passes its `pc_plus_4`
where the others pass the ALU's result, and makes no access. -/
theorem datapathWord_eq_stagesInOneGo (w : Word) (s : State) : datapathWord w s = stagesInOneGo w s := by
  unfold datapathWord stagesInOneGo execute
  dsimp only [decodeOut, fwd]
  by_cases hr : aluRefuses (controlWord w).aluOp (functOf w) = true
  · simp only [hr, if_true]
  · simp only [hr, memStage, memOut, State.retire, MemWbPayload.value]
    by_cases hl : (controlWord w).link = true
    · obtain ⟨hread, hwrite⟩ := controlWord_link_no_access hl
      simp only [hl, hread, hwrite, if_true, dataAccess, Bool.false_eq_true, if_false]
      rfl
    · simp only [hl, Bool.false_eq_true, if_false]
      rfl

/-! ## The reference datapath is the meanings -/

/-- Two words are equal exactly when their difference is zero: the branches' comparison (R78, R146). -/
theorem zeroFlag_sub (a b : Word) : zeroFlag (a - b) = (a == b) := by
  rw [Bool.eq_iff_iff, zeroFlag_eq_true_iff, beq_iff_eq]
  exact sub_eq_zero

theorem zextShamt_amount (sh : BitVec 5) : (zextShamt sh).extractLsb' 0 5 = sh := by
  rw [zextShamt, BitVec.extractLsb'_setWidth_of_le (by decide)]
  exact BitVec.extractLsb'_eq_self

theorem upperHalf_eq_shift (imm : BitVec 16) : zext32 imm <<< 16 = upperHalf imm := by
  apply BitVec.eq_of_toNat_eq
  rw [toNat_upperHalf, zext32, BitVec.toNat_shiftLeft, BitVec.toNat_setWidth_of_le (by decide), Nat.shiftLeft_eq]
  have := imm.isLt
  omega

section
variable {w : Word} (s : State)

/-- Opcode 0 but `jr` and the shifts: the ALU's result for the `funct`. -/
theorem datapathWord_rType (hc : controlWord w = Control.rType) (hf : listedFunct (functOf w) = true) :
    datapathWord w s =
      .next (s.writeAndAdvance (rdOf w) (aluR (functOf w) (s.reg (rsOf w)) (s.reg (rtOf w)))) := by
  simp [datapathWord, hc, Control.rType, aluRefuses, hf, dataAccess, alu, redirect, takenBranch, destination,
    State.writeAndAdvance]

/-- The shifts: the amount as operand 1. -/
theorem datapathWord_shiftType (hc : controlWord w = Control.shiftType) (hf : listedFunct (functOf w) = true) :
    datapathWord w s =
      .next (s.writeAndAdvance (rdOf w) (aluR (functOf w) (zextShamt (shamtOf w)) (s.reg (rtOf w)))) := by
  simp [datapathWord, hc, Control.shiftType, Control.rType, aluRefuses, hf, dataAccess, alu, redirect, takenBranch,
    destination, State.writeAndAdvance]

theorem datapathWord_jumpRegister (hc : controlWord w = Control.jumpRegister)
    (hf : listedFunct (functOf w) = true) : datapathWord w s = .next (s.setPc (s.reg (rsOf w))) := by
  simp [datapathWord, hc, Control.jumpRegister, aluRefuses, hf, dataAccess, redirect, takenBranch]

/-- The immediate instructions, sign- or zero-extended: the ALU's result for the opcode. -/
theorem datapathWord_immediate {z : Bool} (hc : controlWord w = { Control.immediate with zeroExtend := z }) :
    datapathWord w s =
      .next (s.writeAndAdvance (rtOf w)
        (aluI (opcodeOf w) (s.reg (rsOf w)) (if z then zext32 (immOf w) else sext32 (immOf w)))) := by
  simp [datapathWord, hc, Control.immediate, aluRefuses, dataAccess, alu, redirect, takenBranch, destination, imm32,
    State.writeAndAdvance]

theorem datapathWord_load {half byte : Bool}
    (hc : controlWord w = { Control.load with halfword := half, byte := byte }) :
    datapathWord w s = loadOp (loadedWord byte half) (rsOf w) (rtOf w) (immOf w) s := by
  unfold loadOp State.effectiveAddress
  rcases s.readPort_cases .dread (s.reg (rsOf w) + sext32 (immOf w)) with ⟨_, e⟩ | ⟨_, _, e⟩ | ⟨_, _, e⟩ <;>
    simp [datapathWord, hc, Control.load, aluRefuses, alu, redirect, takenBranch, destination, imm32, dataAccess_load,
      State.writeAndAdvance, e]

theorem datapathWord_wordStore (hc : controlWord w = Control.store) :
    datapathWord w s = execSw (rsOf w) (rtOf w) (immOf w) s := by
  unfold execSw storeEnd State.effectiveAddress
  rcases s.writePort_cases (s.reg (rsOf w) + sext32 (immOf w)) (s.reg (rtOf w)) with ⟨_, e⟩ | ⟨_, _, e⟩ | ⟨_, _, e⟩
  all_goals
    simp [datapathWord, hc, Control.store, aluRefuses, alu, redirect, takenBranch, imm32, dataAccess_word, e] <;> rfl

theorem datapathWord_partialStore {half byte : Bool} (hw : (byte || half) = true)
    (hc : controlWord w = { Control.store with halfword := half, byte := byte }) :
    datapathWord w s = partialStoreOp (storedWord byte half) (rsOf w) (rtOf w) (immOf w) s := by
  unfold partialStoreOp storeEnd State.effectiveAddress
  rcases s.updatePort_cases (s.reg (rsOf w) + sext32 (immOf w)) (fun old => storedWord byte half old (s.reg (rtOf w)))
    with ⟨_, e⟩ | ⟨_, _, e⟩ | ⟨_, _, _, e⟩ | ⟨_, _, _, e⟩
  all_goals
    simp [datapathWord, hc, Control.store, aluRefuses, alu, redirect, takenBranch, imm32,
      dataAccess_partial byte half _ _ _ hw, e] <;> rfl

theorem datapathWord_branch {bne : Bool} (hc : controlWord w = { branch := true, bne := bne, aluOp := .sub }) :
    datapathWord w s = branchOp ((s.reg (rsOf w) == s.reg (rtOf w)) ^^ bne) (immOf w) s := by
  cases bne <;> cases h : (s.reg (rsOf w) == s.reg (rtOf w)) <;>
    simp [datapathWord, hc, aluRefuses, dataAccess, alu, redirect, takenBranch, branchOp, zeroFlag_sub, imm32, h]

theorem datapathWord_jump {link : Bool} (hc : controlWord w = { jump := true, link := link, regWrite := link }) :
    datapathWord w s =
      .next ((if link then s.setReg 31 s.pcPlus4 else s).setPc (jumpAddress s.pcPlus4 (jaddrOf w))) := by
  cases link <;>
    simp [datapathWord, hc, aluRefuses, dataAccess, redirect, takenBranch, destination, imm32, jumpTarget_zextJaddr]

/-- The reference datapath runs an encoded instruction as its meaning says, family by family of the decode table. -/
theorem datapathWord_encode (i : Instr) : datapathWord (encode i) s = exec i s := by
  have hc := controlWord_encode i
  cases i with
  | add | sub | and | or | xor | nor | slt | sltu =>
    rw [datapathWord_rType s hc (by simp [encode, listedFunct])]
    simp only [encode, rsOf_encodeR, rtOf_encodeR, rdOf_encodeR, functOf_encodeR]
    rfl
  | sll | srl | sra =>
    rw [datapathWord_shiftType s hc (by simp [encode, listedFunct])]
    simp only [encode, rtOf_encodeR, rdOf_encodeR, functOf_encodeR, shamtOf_encodeR, aluR, zextShamt_amount]
    rfl
  | jr =>
    rw [datapathWord_jumpRegister s hc (by simp [encode, listedFunct])]
    simp only [encode, rsOf_encodeR]
    rfl
  | addi | addiu | slti | sltiu =>
    rw [datapathWord_immediate (z := false) s hc]
    simp only [encode, rsOf_encodeI, rtOf_encodeI, immOf_encodeI, opcodeOf_encodeI]
    rfl
  | andi | ori | xori =>
    rw [datapathWord_immediate (z := true) s hc]
    simp only [encode, rsOf_encodeI, rtOf_encodeI, immOf_encodeI, opcodeOf_encodeI]
    rfl
  | lui =>
    rw [datapathWord_immediate (z := true) s hc]
    simp only [encode, rtOf_encodeI, immOf_encodeI, opcodeOf_encodeI, aluI, if_true, upperHalf_eq_shift]
    rfl
  | lw =>
    rw [datapathWord_load (half := false) (byte := false) s hc]
    simp only [encode, rsOf_encodeI, rtOf_encodeI, immOf_encodeI]
    rfl
  | lh | lhu =>
    rw [datapathWord_load (half := true) (byte := false) s hc]
    simp only [encode, rsOf_encodeI, rtOf_encodeI, immOf_encodeI]
    rfl
  | lb | lbu =>
    rw [datapathWord_load (half := false) (byte := true) s hc]
    simp only [encode, rsOf_encodeI, rtOf_encodeI, immOf_encodeI]
    rfl
  | sw =>
    rw [datapathWord_wordStore s hc]
    simp only [encode, rsOf_encodeI, rtOf_encodeI, immOf_encodeI]
    rfl
  | sh =>
    rw [datapathWord_partialStore (half := true) (byte := false) s rfl hc]
    simp only [encode, rsOf_encodeI, rtOf_encodeI, immOf_encodeI]
    rfl
  | sb =>
    rw [datapathWord_partialStore (half := false) (byte := true) s rfl hc]
    simp only [encode, rsOf_encodeI, rtOf_encodeI, immOf_encodeI]
    rfl
  | beq =>
    rw [datapathWord_branch (bne := false) s hc, Bool.xor_false]
    simp only [encode, rsOf_encodeI, rtOf_encodeI, immOf_encodeI]
    rfl
  | bne =>
    rw [datapathWord_branch (bne := true) s hc, Bool.xor_true]
    simp only [encode, rsOf_encodeI, rtOf_encodeI, immOf_encodeI]
    rfl
  | j =>
    rw [datapathWord_jump (link := false) s hc]
    simp only [encode, jaddrOf_encodeJ]
    rfl
  | jal =>
    rw [datapathWord_jump (link := true) s hc]
    simp only [encode, jaddrOf_encodeJ]
    rfl

/-- A word outside the map does nothing but move `pc` (R61, R80). -/
theorem datapathWord_inert (hc : controlWord w = Control.inert) : datapathWord w s = execUnrecognized s := by
  simp [datapathWord, hc, Control.inert, aluRefuses, dataAccess, redirect, takenBranch, execUnrecognized]

/-- An unlisted `funct` is refused (R62). -/
theorem datapathWord_refuses (hc : controlWord w = Control.rType) (hf : listedFunct (functOf w) = false) :
    datapathWord w s = .refused (.unlistedFunct (functOf w)) := by
  simp [datapathWord, hc, Control.rType, aluRefuses, hf]

/-- The reference datapath is the meanings, on every word. -/
theorem datapathWord_eq_execWord (w : Word) : datapathWord w s = execWord w s := by
  obtain ⟨i, rfl, hd⟩ | ⟨h, hd⟩ | ⟨hop, hf, hd⟩ := word_cases w
  · rw [execWord_ok hd, datapathWord_encode]
  · rw [datapathWord_inert s (controlWord_unrecognized h), execWord, hd]
  · rw [datapathWord_refuses s (controlWord_unlisted hop hf) (listedFunct_eq_false hf), execWord, hd]

end

/-- Settles O29: one fetch, then the same answer on the word fetched. -/
theorem referenceDatapathEqualsMeanings : Obligations.ReferenceDatapathEqualsMeanings := by
  unfold Obligations.ReferenceDatapathEqualsMeanings
  intro s
  unfold datapathStep singleCycleStep
  exact congrArg (fetchThen · s) (funext fun w => funext fun s => datapathWord_eq_execWord s w)

end Sys2Proof.Machine
end

section
/-! PROOFS. MEM, and a single-cycle call (45_pipeline_stages.md section 3, 47_reference_model.md): what MEM hands on,
stores and asks, and with it everything a call of the single-cycle model can do. -/

namespace Sys2Proof.Machine

/-! ## What a completed MEM hands on and stores (R164 to R167) -/

/-- The memory data of the record MEM hands to WB. -/
def ExMemPayload.loaded (e : ExMemPayload) (m : Memory) : Word :=
  if e.memRead then loadedWord e.byte e.halfword (m.readWord e.aluResult) else 0

/-- The memory a completed MEM leaves. -/
def ExMemPayload.stored (e : ExMemPayload) (m : Memory) : Memory :=
  if e.memRead = false ∧ e.memWrite = true then
    m.writeWord e.aluResult (storedWord e.byte e.halfword (m.readWord e.aluResult) e.writeData)
  else m

theorem ExMemPayload.loaded_of_not_memRead {e : ExMemPayload} (h : e.memRead = false) (m : Memory) :
    e.loaded m = 0 := by
  simp [ExMemPayload.loaded, h]

theorem ExMemPayload.stored_of_not_memWrite {e : ExMemPayload} (h : e.memWrite = false) (m : Memory) :
    e.stored m = m := by
  simp [ExMemPayload.stored, h]

/-- No byte outside the word the record names changes. -/
theorem ExMemPayload.readByte_stored (e : ExMemPayload) (m : Memory) {k : Nat}
    (hk : ∀ i, i < 4 → k ≠ byteKey e.aluResult i) : (e.stored m).readByte k = m.readByte k := by
  unfold ExMemPayload.stored
  split
  · exact m.readByte_writeWord_outside _ _ k hk
  · rfl

theorem ExMemPayload.wf_stored (e : ExMemPayload) {m : Memory} (h : m.wf) : (e.stored m).wf := by
  unfold ExMemPayload.stored
  split
  · exact Memory.wf_writeWord _ _ _ h
  · exact h

theorem memStage_no_access {e : ExMemPayload} (h : e.accesses = false) (s : State) : memStage e s = .granted 0 s := by
  obtain ⟨hr, hw⟩ : e.memRead = false ∧ e.memWrite = false := by simpa [ExMemPayload.accesses] using h
  simp [memStage, dataAccess, hr, hw]

theorem memStage_granted {e : ExMemPayload} {s t : State} {d : Word} (h : memStage e s = .granted d t) :
    d = e.loaded s.memory ∧ t.memory = e.stored s.memory ∧ SameCore s t := by
  have hcore := dataAccess_granted_core _ _ _ _ _ _ _ h
  unfold memStage at h
  unfold ExMemPayload.loaded ExMemPayload.stored
  rcases dataAccess_cases e.memRead e.memWrite e.byte e.halfword e.aluResult e.writeData s with
    ⟨hr, hw, heq⟩ | ⟨_, _, heq⟩ | ⟨_, _, _, heq⟩ | ⟨_, _, _, _, _, _, heq⟩ | ⟨hr, _, _, heq⟩ |
    ⟨hr, hw, hb, hh, _, _, heq⟩ | ⟨hr, hw, _, _, _, _, heq⟩ <;> rw [heq] at h <;> cases h
  · simp [hr, hw, hcore]
  · simp [hr, hcore]
  · simp [hr, hw, hb, hh, hcore, storedWord]
  · simp [hr, hw, hcore]

/-- What makes MEM refuse the cycle (R35). -/
theorem memStage_misaligned {e : ExMemPayload} {s : State} (h : memStage e s = .misaligned) :
    e.accesses = true ∧ ¬ Aligned e.aluResult := by
  unfold memStage at h
  rcases dataAccess_cases e.memRead e.memWrite e.byte e.halfword e.aluResult e.writeData s with
    ⟨_, _, heq⟩ | ⟨hacc, hna, _⟩ | ⟨_, _, _, heq⟩ | ⟨_, _, _, _, _, _, heq⟩ | ⟨_, _, _, heq⟩ |
    ⟨_, _, _, _, _, _, heq⟩ | ⟨_, _, _, _, _, _, heq⟩
  case inr.inl => exact ⟨(Bool.or_eq_true _ _).mpr hacc, hna⟩
  all_goals rw [heq] at h; cases h

theorem State.aligned_of_grantsNow {s : State} {a : Word} (h : s.grantsNow a = true) : Aligned a := by
  have hholds := ((s.grantsNow_iff a).1 h).2
  simp only [State.holds, Bool.and_eq_true, decide_eq_true_eq] at hholds
  exact hholds.1

/-- MEM with all of its requests granted completes (R168). -/
theorem memStage_of_memGranted {e : ExMemPayload} {s : State} (h : s.memGranted e = true) :
    ∃ d t, memStage e s = .granted d t := by
  cases hm : memStage e s with
  | granted d t => exact ⟨d, t, rfl⟩
  | denied t => exact absurd (memGranted_of_memStage_denied hm) (by simp [h])
  | misaligned =>
    obtain ⟨hacc, hna⟩ := memStage_misaligned hm
    have hg : s.grantsNow e.aluResult = true := by
      simp only [State.memGranted, hacc, Bool.not_true, Bool.false_or, Bool.and_eq_true] at h
      exact h.1
    exact absurd (State.aligned_of_grantsNow hg) hna

/-! ## What MEM asks (R31, R37, R41) -/

/-- The requests of a record, newest first: a DREAD before a DWRITE, at the record's aligned address, each of a kind the
record makes. -/
structure ExMemPayload.Requests (e : ExMemPayload) (new : List Request) : Prop where
  ordered : new.Pairwise (fun later earlier => earlier.kind.rank < later.kind.rank)
  each : ∀ r ∈ new, Aligned r.addr ∧ r.addr = e.aluResult ∧ r.kind.isFetch = false ∧ e.accesses = true ∧
    (r.kind = .dread → e.memRead = true ∨ e.isPartialStore = true) ∧ (∀ v, r.kind = .dwrite v → e.memWrite = true)

theorem ExMemPayload.requests_nil (e : ExMemPayload) : e.Requests [] :=
  ⟨.nil, fun _ h => absurd h (List.not_mem_nil)⟩

section
variable {e : ExMemPayload} (ha : Aligned e.aluResult) (granted : Bool)
include ha

theorem ExMemPayload.requests_dread (h : e.memRead = true ∨ e.isPartialStore = true) :
    e.Requests [⟨.dread, e.aluResult, granted⟩] := by
  have hacc : e.accesses = true := by
    simp only [ExMemPayload.accesses, ExMemPayload.isPartialStore, Bool.or_eq_true, Bool.and_eq_true] at h ⊢
    tauto
  refine ⟨List.pairwise_singleton _ _, fun r hr => ?_⟩
  obtain rfl := List.mem_singleton.1 hr
  exact ⟨ha, rfl, rfl, hacc, fun _ => h, fun v hv => by cases hv⟩

theorem ExMemPayload.requests_dwrite (h : e.memWrite = true) (v : Word) :
    e.Requests [⟨.dwrite v, e.aluResult, granted⟩] := by
  refine ⟨List.pairwise_singleton _ _, fun r hr => ?_⟩
  obtain rfl := List.mem_singleton.1 hr
  exact ⟨ha, rfl, rfl, by simp [ExMemPayload.accesses, h], (fun hv => by cases hv), fun _ _ => h⟩

theorem ExMemPayload.requests_pair (h : e.isPartialStore = true) (v : Word) (granted1 : Bool) :
    e.Requests [⟨.dwrite v, e.aluResult, granted1⟩, ⟨.dread, e.aluResult, granted⟩] := by
  have hwrite : e.memWrite = true := by
    simp only [ExMemPayload.isPartialStore, Bool.and_eq_true] at h
    exact h.1.2
  refine ⟨by simp [RequestKind.rank], fun r hr => ?_⟩
  obtain rfl | hr := List.mem_cons.1 hr
  · exact (ExMemPayload.requests_dwrite ha granted1 hwrite v).each _ (List.mem_singleton.2 rfl)
  · exact (ExMemPayload.requests_dread ha granted (.inr h)).each _ hr

end

/-- A completed MEM has had every request granted. -/
theorem memStage_granted_log {e : ExMemPayload} {s t : State} {d : Word} (h : memStage e s = .granted d t) :
    ∃ new, t.history = new ++ s.history ∧ e.Requests new ∧ ∀ r ∈ new, r.granted = true := by
  unfold memStage at h
  rcases dataAccess_cases e.memRead e.memWrite e.byte e.halfword e.aluResult e.writeData s with
    ⟨hr, hw, heq⟩ | ⟨_, _, heq⟩ | ⟨_, _, _, heq⟩ | ⟨_, _, _, _, _, _, heq⟩ | ⟨hr, ha, hg, heq⟩ |
    ⟨hr, hw, hb, hh, ha, hg, heq⟩ | ⟨hr, hw, hp, ha, hg, h1, heq⟩ <;> rw [heq] at h <;> cases h
  · exact ⟨[], rfl, e.requests_nil, by simp⟩
  · exact ⟨_, rfl, ExMemPayload.requests_dread ha _ (.inl hr), by simp [hg]⟩
  · exact ⟨_, rfl, ExMemPayload.requests_dwrite ha _ hw _, by simp [hg]⟩
  · have hpartial : e.isPartialStore = true := by simpa [ExMemPayload.isPartialStore, hr, hw] using hp
    have hholds := ((s.grantsNow_iff _).1 hg).2
    exact ⟨_, rfl, ExMemPayload.requests_pair ha _ hpartial _ _, by simp [State.grantsNow_asked, hg, h1, hholds]⟩

/-- A stalled MEM has had one request denied. -/
theorem memStage_denied_log {e : ExMemPayload} {s t : State} (h : memStage e s = .denied t) :
    ∃ new, t.history = new ++ s.history ∧ e.Requests new ∧ ∃ r ∈ new, r.granted = false := by
  unfold memStage at h
  rcases dataAccess_cases e.memRead e.memWrite e.byte e.halfword e.aluResult e.writeData s with
    ⟨_, _, heq⟩ | ⟨_, _, heq⟩ | ⟨hacc, ha, hg, heq⟩ | ⟨hr, hw, hp, ha, hg, h1, heq⟩ | ⟨_, _, _, heq⟩ |
    ⟨_, _, _, _, _, _, heq⟩ | ⟨_, _, _, _, _, _, heq⟩ <;> rw [heq] at h <;> cases h
  · refine ⟨[_], rfl, ?_, by simp [hg]⟩
    unfold firstRequest
    split
    · rename_i hk
      refine ExMemPayload.requests_dread ha _ ?_
      simp only [ExMemPayload.isPartialStore, Bool.and_eq_true, Bool.or_eq_true, Bool.not_eq_true'] at hk ⊢
      cases hr : e.memRead <;> simp_all
    · rename_i hk
      exact ExMemPayload.requests_dwrite ha _ (by simp_all) _
  · have hpartial : e.isPartialStore = true := by simpa [ExMemPayload.isPartialStore, hr, hw] using hp
    exact ⟨_, rfl, ExMemPayload.requests_pair ha _ hpartial _ _, by simp [State.grantsNow_asked, h1]⟩

/-! ## A single-cycle call -/

theorem unchangedButPort_of_core {s t : State} (hc : SameCore s t) (hm : t.memory = s.memory) :
    UnchangedButPort s t := by
  refine ⟨t.grants, t.history, ?_⟩
  obtain ⟨_, _, _, _, _, _, _, _, _, _⟩ := hc
  cases t
  simp_all

/-- Everything a call that answers a next state can be: its fetch denied, its data request denied, or one word run
through EX, MEM and WB. -/
theorem singleCycleStep_cases {s t : State} (h : singleCycleStep s = .next t) :
    (s.grantsNow s.pc = false ∧ t = s.asked .ifetch s.pc) ∨
    (s.grantsNow s.pc = true ∧ ∃ out,
      execute (decodeOut ⟨s.memory.readWord s.pc, s.pcPlus4⟩ (s.asked .ifetch s.pc)) none none = .ok out ∧
      (memStage out.exmem (s.asked .ifetch s.pc) = .denied t ∨
        ∃ d s1, memStage out.exmem (s.asked .ifetch s.pc) = .granted d s1 ∧
          t = s1.retire (memOut out.exmem d))) := by
  unfold singleCycleStep at h
  rcases fetchThen_cases execWord s with ⟨_, e⟩ | ⟨_, hg, e⟩ | ⟨_, hg, e⟩ <;> rw [e] at h
  · cases h
  · cases h
    exact .inl ⟨hg, rfl⟩
  · rw [← datapathWord_eq_execWord, datapathWord_eq_stagesInOneGo] at h
    unfold stagesInOneGo at h
    refine .inr ⟨hg, ?_⟩
    split at h
    case h_1 => cases h
    case h_2 out hout =>
      refine ⟨out, hout, ?_⟩
      split at h
      case h_1 => cases h
      case h_2 s1 hm =>
        cases h
        exact .inl hm
      case h_3 d s1 hm =>
        cases h
        exact .inr ⟨d, s1, hm, rfl⟩

/-- Settles O30: a denied request was the fetch or one of MEM's, and neither kind moves anything but the answers and
the log; a call whose requests were all granted has no denied one. -/
theorem deniedCallChangesNothing : Obligations.DeniedCallChangesNothing := by
  unfold Obligations.DeniedCallChangesNothing
  intro s t new hl hstep hnew hdenied
  have hfetch := SameCore.asked s .ifetch s.pc
  rcases singleCycleStep_cases ((step_singleCycle hl).symm.trans hstep) with
    ⟨_, rfl⟩ | ⟨hg, out, _, hm | ⟨d, s1, hm, rfl⟩⟩
  · exact unchangedButPort_of_core hfetch rfl
  · obtain ⟨hcore, hmem⟩ := dataAccess_denied_core _ _ _ _ _ _ _ hm
    exact unchangedButPort_of_core (hfetch.trans hcore) hmem
  · obtain ⟨data, hlog, _, hgranted⟩ := memStage_granted_log hm
    rw [State.retire_history, hlog, State.asked_history, hg] at hnew
    have hall : new = data ++ [⟨.ifetch, s.pc, true⟩] :=
      List.append_cancel_right (hnew.symm.trans (List.append_cons _ _ _))
    obtain ⟨r, hr, hfalse⟩ := hdenied
    rw [hall, List.mem_append, List.mem_singleton] at hr
    rcases hr with hr | rfl
    · exact absurd (hgranted r hr) (by simp [hfalse])
    · cases hfalse

/-- Neither the port nor the commit of a record reaches the latches, the fetch pointer or the configuration. -/
theorem singleCycleStep_outside {s t : State} (h : singleCycleStep s = .next t) : SameOutside s t := by
  have hfetch := (SameCore.asked s .ifetch s.pc).outside
  rcases singleCycleStep_cases h with ⟨_, rfl⟩ | ⟨_, out, _, hm | ⟨d, s1, hm, rfl⟩⟩
  · exact hfetch
  · exact hfetch.trans (dataAccess_denied_core _ _ _ _ _ _ _ hm).1.outside
  · exact (hfetch.trans (dataAccess_granted_core _ _ _ _ _ _ _ hm).outside).trans (s1.retire_outside _)

/-- The requests of a call are new entries of the log. -/
theorem singleCycleStep_log {s t : State} (h : singleCycleStep s = .next t) :
    ∃ new, t.history = new ++ s.history := by
  have hfetch : (s.asked .ifetch s.pc).history = [⟨.ifetch, s.pc, s.grantsNow s.pc⟩] ++ s.history := rfl
  rcases singleCycleStep_cases h with ⟨_, rfl⟩ | ⟨_, out, _, hm | ⟨d, s1, hm, rfl⟩⟩
  · exact ⟨_, hfetch⟩
  · obtain ⟨new, hlog, _⟩ := memStage_denied_log hm
    exact ⟨_, by rw [hlog, hfetch, ← List.append_assoc]⟩
  · obtain ⟨new, hlog, _⟩ := memStage_granted_log hm
    exact ⟨_, by rw [State.retire_history, hlog, hfetch, ← List.append_assoc]⟩

/-- Settles O31: what any call of the model leaves outside the architectural state. -/
theorem singleCycleLeavesThePipelineAlone : Obligations.SingleCycleLeavesThePipelineAlone := by
  unfold Obligations.SingleCycleLeavesThePipelineAlone
  exact fun s t hl hstep => singleCycleStep_outside ((step_singleCycle hl).symm.trans hstep)

/-! ## A call whose fetch is granted -/

theorem step_of_fetched {s : State} (hl : s.optLevel = .singleCycle) (ha : Aligned s.pc)
    (hg : s.grantsNow s.pc = true) :
    step s = execWord (s.memory.readWord s.pc) (s.asked .ifetch s.pc) := by
  rw [step_singleCycle hl, singleCycleStep, fetchThen, s.readPort_granted .ifetch s.pc ha hg]

theorem decodeBytes_ok {b0 b1 b2 b3 : Byte} {i : Instr} {rest : List Byte}
    (h : decodeBytes [b0, b1, b2, b3] = .ok (i, rest)) : decode (wordOfBytes b0 b1 b2 b3) = .ok i := by
  simp only [decodeBytes] at h
  cases hd : decode (wordOfBytes b0 b1 b2 b3) with
  | ok j =>
    obtain ⟨rfl, _⟩ : j = i ∧ rest = [] := by simpa [hd] using h
    rfl
  | error r => simp [hd] at h

/-- Settles O27: the word at `pc` is its four bytes put together, and a decoded word is run by its meaning. -/
theorem stepRunsTheDecodedInstruction : Obligations.StepRunsTheDecodedInstruction := by
  unfold Obligations.StepRunsTheDecodedInstruction
  intro s i rest hl ha hg hd
  rw [step_of_fetched hl ha hg]
  exact execWord_ok (decodeBytes_ok hd) _

theorem decodeTableWord_some {nbits w : Nat} {i : Instr} (h : decodeTableWord nbits w = some i) :
    decode (tableWord nbits w) = .ok i := by
  unfold decodeTableWord at h
  rw [decodeBytes_wordBytes] at h
  cases hd : decode (tableWord nbits w) with
  | ok j => simpa [hd] using h
  | error r => simp [hd] at h

/-- The fetch of a placed word is granted: the first of the three answers, at an address made populated. -/
theorem withFetchWord_grantsNow {s : State} (ha : Aligned s.pc) (nbits w : Nat) :
    (s.withFetchWord nbits w).grantsNow s.pc = true := by
  have hdomain : (s.withFetchWord nbits w).memDomain =
      if s.holds s.pc then s.memDomain else ⟨s.pc.toNat, 4⟩ :: s.memDomain := rfl
  refine (State.grantsNow_iff _ _).2 ⟨rfl, ?_⟩
  cases hh : s.holds s.pc with
  | true =>
    rw [hh, if_pos rfl] at hdomain
    exact (State.holds_congr hdomain s.pc).trans hh
  | false =>
    rw [hh, if_neg (by decide)] at hdomain
    simpa [State.holds, hdomain] using ha

/-- Settles O28: the word placed is the word fetched. -/
theorem placedWordIsRunNext : Obligations.PlacedWordIsRunNext := by
  unfold Obligations.PlacedWordIsRunNext
  intro s nbits w i ha hd
  have hword : (s.withFetchWord nbits w).memory.readWord s.pc = tableWord nbits w :=
    Memory.readWord_writeWord_self _ _ _
  refine (step_of_fetched (s := s.withFetchWord nbits w) rfl ha (withFetchWord_grantsNow ha nbits w)).trans ?_
  exact execWord_ok ((congrArg decode hword).trans (decodeTableWord_some hd)) _

/-! ## Words outside the map (R61, R62) -/

theorem execWord_unrecognized {w : Word} (h : opcodeOf w ∉ listedOpcodes) (s : State) :
    execWord w s = .next (s.setPc s.pcPlus4) := by
  rw [execWord, decode_unrecognized h]
  rfl

theorem execWord_unlisted {w : Word} (hop : opcodeOf w = 0) (hf : functOf w ∉ listedFuncts) (s : State) :
    execWord w s = .refused (.unlistedFunct (functOf w)) := by
  rw [execWord, decode_unlisted hop hf]

/-- EX of the inert control word: nothing to write, to access or to redirect (R80). -/
theorem execute_inert {d : IdExPayload} (hd : d.ctl = Control.inert) (em : Option ExMemPayload)
    (mw : Option MemWbPayload) :
    ∃ out, execute d em mw = .ok out ∧ out.redirect = none ∧ out.exmem.pcCommit = d.pcPlus4 ∧
      out.exmem.regWrite = false ∧ out.exmem.memRead = false ∧ out.exmem.memWrite = false := by
  obtain ⟨hr, _⟩ | ⟨_, out, he⟩ := execute_cases d em mw
  · rw [hd] at hr
    cases hr
  · have hcopy := execute_copies he
    obtain ⟨_, hredirect, hcommit⟩ := execute_resolves he
    have hnone : out.redirect = none := by
      rw [hredirect, hd]
      exact redirect_none _ _ _ (by simp [takenBranch, Control.inert]) rfl rfl
    refine ⟨out, he, hnone, by rw [hcommit, hnone]; rfl, ?_, ?_, ?_⟩
    · rw [hcopy.regWrite, hd]; rfl
    · rw [hcopy.memRead, hd]; rfl
    · rw [hcopy.memWrite, hd]; rfl

/-- Settles O32: the meaning of an unrecognized opcode after its fetch, and EX of its inert control word. -/
theorem unrecognizedOpcodeIsNoOp : Obligations.UnrecognizedOpcodeIsNoOp := by
  unfold Obligations.UnrecognizedOpcodeIsNoOp
  intro w hop
  refine ⟨fun s hl ha hg hw => ?_, fun p4 s em mw => execute_inert (controlWord_unrecognized hop) em mw⟩
  have hstep : step s = _ := step_of_fetched hl ha hg
  rw [hw, execWord_unrecognized hop] at hstep
  refine ⟨_, hstep, rfl, fun r => rfl, fun k => rfl, ?_, ?_⟩
  · exact (SameCore.asked s .ifetch s.pc).outside.trans (State.setPc_outside _ _)
  · rw [State.setPc_history, State.asked_history, hg]

/-! ## EX against the meanings -/

/-- EX never refuses a word that decodes: its `funct`, if it selects the operation, is listed (R62, R170). -/
theorem aluRefuses_encode (i : Instr) : aluRefuses (controlWord (encode i)).aluOp (functOf (encode i)) = false := by
  rw [controlWord_encode]
  cases i with
  | add | sub | and | or | xor | nor | slt | sltu | sll | srl | sra | jr =>
    simp [encode, aluRefuses, listedFunct]
  | _ => rfl

theorem execute_encode {w : Word} {i : Instr} (h : decode w = .ok i) (p4 : Word) (s : State) :
    ∃ out, execute (decodeOut ⟨w, p4⟩ s) none none = .ok out := by
  obtain rfl := encode_of_decode h
  obtain ⟨hr, _⟩ | ⟨_, hout⟩ := execute_cases (decodeOut ⟨encode i, p4⟩ s) none none
  · cases (aluRefuses_encode i).symm.trans hr
  · exact hout

/-- EX of a load or store: the address, the data, the destination `rt`, and no redirect (R125, R169). -/
theorem execute_access {d : IdExPayload} {w : Word} (hd : d.FromWord w) {em : Option ExMemPayload}
    {mw : Option MemWbPayload} {out : ExOut} (h : execute d em mw = .ok out) (hacc : out.exmem.accesses = true) :
    out.exmem.aluResult = fwd em mw d.rs d.readData1 + sext32 (immOf w) ∧
      out.exmem.writeData = fwd em mw d.rt d.readData2 ∧ out.exmem.writeReg = d.rt ∧ out.redirect = none ∧
      out.exmem.pcCommit = d.pcPlus4 := by
  have hcopy := execute_copies h
  have hc : d.ctl.memRead = true ∨ d.ctl.memWrite = true :=
    (Bool.or_eq_true _ _).mp (hcopy.memRead ▸ hcopy.memWrite ▸ hacc)
  have hform : d.ctl.FormsAddress := by
    rw [hd.ctl] at hc ⊢
    exact controlWord_formsAddress hc
  obtain ⟨_, hredirect, hcommit⟩ := execute_resolves h
  have hnone : out.redirect = none :=
    hredirect.trans (redirect_none _ _ _ (by simp [takenBranch, hform.branch]) hform.jump hform.jumpReg)
  obtain ⟨hresult, hdata⟩ := execute_results h
  refine ⟨?_, hdata, ?_, hnone, by rw [hcommit, hnone]; rfl⟩
  · have himm : d.imm = sext32 (immOf w) := by
      rw [hd.imm]
      simp [imm32, hform.zeroExtend, hform.jump]
    rw [hresult]
    simp [hform.link, hform.aluSrc, hform.aluOp, hform.shift, himm, alu]
  · rw [hcopy.writeReg]
    simp [destination, hform.link, hform.regDest]

/-- The value WB will write for a record that is no load is EX's result. -/
theorem value_of_no_load {w p4 : Word} {s : State} {out : ExOut}
    (h : execute (decodeOut ⟨w, p4⟩ s) none none = .ok out) (hr : out.exmem.memRead = false) (d : Word) :
    (memOut out.exmem d).value = out.exmem.aluResult := by
  have hcopy := execute_copies h
  have hno : out.exmem.memToReg = false :=
    hcopy.memToReg.trans ((controlWord_legal w).loadIffMemToReg.trans (hcopy.memRead.symm.trans hr))
  simp [MemWbPayload.value, memOut, hno]

/-- An instruction that is no access is run by EX and WB alone. -/
theorem exec_of_no_access {w : Word} {i : Instr} (hd : decode w = .ok i) {a : State} {out : ExOut}
    (h : execute (decodeOut ⟨w, a.pcPlus4⟩ a) none none = .ok out) (hacc : out.exmem.accesses = false) :
    exec i a = .next (a.retire (memOut out.exmem 0)) := by
  rw [← execWord_ok hd, ← datapathWord_eq_execWord, datapathWord_eq_stagesInOneGo, stagesInOneGo, h]
  simp only [memStage_no_access hacc]

/-- Settles O39: EX sees the operands through forwarding alone; without an access the meaning is EX and WB, with one EX
forms the address. -/
theorem executeAgreesWithMeaning : Obligations.ExecuteAgreesWithMeaning := by
  unfold Obligations.ExecuteAgreesWithMeaning
  intro a w i d em mw hdec hd hp4 h1 h2
  have heq := hd.execute_eq h1 h2
  rw [hp4] at heq
  obtain ⟨out, hout⟩ := execute_encode hdec (a.pc + 4) a
  have hex := heq.trans hout
  refine ⟨out, hex, fun hno => ?_, fun hacc => ?_⟩
  · have hread : out.exmem.memRead = false := ((Bool.or_eq_false_iff).1 hno).1
    refine ⟨_, exec_of_no_access hdec hout hno, rfl, fun r => ?_⟩
    rw [State.reg_retire, value_of_no_load hout hread]
    rfl
  · obtain ⟨haddr, hdata, _, _, hcommit⟩ := execute_access hd hex hacc
    rw [h1] at haddr
    exact ⟨haddr, hdata.trans h2, hcommit.trans hp4⟩

/-! ## Reset (R27, R250) -/

theorem reset_reg {s : State} (h : s.regs = Vector.replicate 32 0) (r : Reg) : s.reg r = 0 := by
  simp [State.reg, h]

/-- Settles O57, by evaluation of the reset state. -/
theorem resetState : Obligations.ResetState := by
  unfold Obligations.ResetState
  exact ⟨reset_reg rfl, rfl, rfl, ⟨rfl, rfl, rfl, rfl⟩, rfl, fun _ => rfl⟩

/-- Settles O58: the two models' arguments, and the rest. -/
theorem initializeResetsTheCore : Obligations.InitializeResetsTheCore := by
  unfold Obligations.InitializeResetsTheCore
  intro s level
  refine ⟨fun h => ?_, fun h => ?_⟩
  · obtain rfl | rfl : level = 0 ∨ level = 1 := by omega
    · exact ⟨_, rfl, ⟨rfl, rfl, rfl, rfl⟩, reset_reg rfl, rfl, rfl, rfl, rfl, fun _ => rfl, fun h => by cases h⟩
    · exact ⟨_, rfl, ⟨rfl, rfl, rfl, rfl⟩, reset_reg rfl, rfl, rfl, rfl, rfl, (fun h => by cases h), fun _ => rfl⟩
  · unfold hostInitialize
    split
    · omega
    · omega
    · rfl

/-- Empty latches meet every clause about a latch. -/
theorem inv_of_drained {s : State} (hm : s.memory.wf) (hz : s.regs[0] = 0) (hd : s.Drained) : s.Inv where
  memory := hm
  zero := hz
  noLatches _ := hd
  idex d h := by cases hd.idex.symm.trans h
  exmem e h := by cases hd.exmem.symm.trans h
  memwb m h := by cases hd.memwb.symm.trans h
  bubbleInEx d h := by cases hd.idex.symm.trans h
  bubbleInMem e h := by cases hd.exmem.symm.trans h
  bubbleInWb m h := by cases hd.memwb.symm.trans h

/-- Settles O55: the latches are empty after reset. -/
theorem resetMeetsTheInvariant : Obligations.ResetMeetsTheInvariant := by
  unfold Obligations.ResetMeetsTheInvariant
  exact ⟨inv_of_drained Memory.wf_empty rfl ⟨rfl, rfl, rfl, rfl⟩,
    fun level entry s hm => inv_of_drained hm rfl ⟨rfl, rfl, rfl, rfl⟩⟩

end Sys2Proof.Machine
end

section
/-! PROOFS. The pipeline's cycle (45_pipeline_stages.md): what a cycle leaves in every part of the state, read
off its two kinds, the memory stall and the full cycle. -/

namespace Sys2Proof.Machine

/-! ## MEM and IF in a full cycle -/

/-- What a completed MEM leaves behind a WB that stored nothing. -/
theorem memStage_writeBack_granted {e : ExMemPayload} {s s1 : State} {d : Word}
    (h : memStage e (writeBack s) = .granted d s1) : d = e.loaded s.memory ∧ s1.memory = e.stored s.memory := by
  obtain ⟨hd, hm, _⟩ := memStage_granted h
  rw [writeBack_memory] at hd hm
  exact ⟨hd, hm⟩

theorem memDone_of_memCompletes {s : State} (h : s.memCompletes) : ∃ s1 mw, MemDone s s1 mw := by
  cases he : s.exmem with
  | none => exact ⟨_, _, .empty he⟩
  | some e =>
    obtain ⟨d, s1, hm⟩ := memStage_of_memGranted ((writeBack_memGranted s e).trans (h e he))
    exact ⟨s1, _, .completed e d s1 he hm⟩

theorem State.memCompletes_of_none {s : State} (h : s.exmem = none) : s.memCompletes := by
  intro e he
  cases h.symm.trans he

theorem State.memCompletes_of_granted {s : State} {e : ExMemPayload} (he : s.exmem = some e)
    (hg : s.memGranted e = true) : s.memCompletes := by
  intro e' he'
  obtain rfl := Option.some.inj (he.symm.trans he')
  exact hg

/-- Once MEM has completed, the front of the cycle decides (R175). -/
theorem advance_of_memDone {s s1 : State} {mw : Option MemWbPayload} (h : MemDone s s1 mw) :
    advance s = advanceFront s s1 mw := by
  unfold advance
  cases h with
  | empty h => rw [h]
  | completed e d s1 h hm => simp only [h, hm]

section
variable {s s1 : State} {mw : Option MemWbPayload} (h : MemDone s s1 mw)
include h

theorem MemDone.of_none (he : s.exmem = none) : s1 = writeBack s ∧ mw = none := by
  cases h with
  | empty => exact ⟨rfl, rfl⟩
  | completed e d _ hsome => cases he.symm.trans hsome

theorem MemDone.of_some {e : ExMemPayload} (he : s.exmem = some e) :
    mw = some (memOut e (e.loaded s.memory)) ∧ s1.memory = e.stored s.memory := by
  cases h with
  | empty hnone => cases he.symm.trans hnone
  | completed e' d _ hsome hm =>
    obtain rfl := Option.some.inj (he.symm.trans hsome)
    obtain ⟨hd, hmem⟩ := memStage_writeBack_granted hm
    exact ⟨by rw [hd], hmem⟩

end

/-- IF reaches no further than the answers and the log. -/
theorem ifStage_core {stall : Bool} {s : State} {out : IfOut} (h : ifStage stall s = .ok out) :
    SameCore s out.state ∧ out.state.memory = s.memory := by
  rcases ifStage_cases h with ⟨_, rfl⟩ | ⟨_, _, _, rfl⟩ | ⟨_, _, _, rfl⟩
  · exact ⟨SameCore.refl s, rfl⟩
  · exact ⟨SameCore.asked s _ _, rfl⟩
  · exact ⟨SameCore.asked s _ _, rfl⟩

/-! ## What every cycle leaves -/

/-- The parts of the state that WB alone decides, and those no stage reaches. -/
structure CommittedBy (w t : State) : Prop where
  regs : t.regs = w.regs
  pc : t.pc = w.pc
  memDomain : t.memDomain = w.memDomain
  optLevel : t.optLevel = w.optLevel
  grantTail : t.grantTail = w.grantTail

theorem SameCore.committedBy {s t : State} (h : SameCore s t) : CommittedBy s t :=
  ⟨h.regs, h.pc, h.memDomain, h.optLevel, h.grantTail⟩

section
variable {s t : State} (h : advance s = .next t)
include h

theorem advance_committedBy : CommittedBy (writeBack s) t := by
  rcases advance_cases h with ⟨e, s1, _, hm, rfl⟩ | ⟨s1, mw, em, target, out, hm, _, hi, rfl⟩
  · have hcore := (dataAccess_denied_core _ _ _ _ _ _ _ hm).1
    exact { hcore.committedBy with }
  · have hcore := hm.core.trans (ifStage_core hi).1
    constructor
    · rw [commit_regs, hcore.regs]
    · rw [commit_pc, hcore.pc]
    · rw [commit_memDomain, hcore.memDomain]
    · rw [commit_optLevel, hcore.optLevel]
    · rw [commit_grantTail, hcore.grantTail]

/-- Memory is as it was, or as the record in EX/MEM leaves it. -/
theorem advance_memory : t.memory = s.memory ∨ ∃ e, s.exmem = some e ∧ t.memory = e.stored s.memory := by
  rcases advance_cases h with ⟨e, s1, _, hm, rfl⟩ | ⟨s1, mw, em, target, out, hm, _, hi, rfl⟩
  · exact .inl ((dataAccess_denied_core _ _ _ _ _ _ _ hm).2.trans (writeBack_memory s))
  · rw [commit_memory, (ifStage_core hi).2]
    cases he : s.exmem with
    | none => exact .inl ((hm.of_none he).1 ▸ writeBack_memory s)
    | some e => exact .inr ⟨e, rfl, (hm.of_some he).2⟩

/-- MEM/WB is empty, or holds the record that stood in EX/MEM. -/
theorem advance_memwb : t.memwb = none ∨ ∃ e, s.exmem = some e ∧ t.memwb = some (memOut e (e.loaded s.memory)) := by
  rcases advance_cases h with ⟨e, s1, _, hm, rfl⟩ | ⟨s1, mw, em, target, out, hm, _, hi, rfl⟩
  · exact .inl rfl
  · rw [commit_memwb]
    cases he : s.exmem with
    | none => exact .inl (hm.of_none he).2
    | some e => exact .inr ⟨e, rfl, (hm.of_some he).1⟩

end

theorem MemWbPayload.value_eq (m : MemWbPayload) :
    m.value = if m.link = false ∧ m.memToReg = true then m.memReadData else m.aluResult := by
  unfold MemWbPayload.value
  cases m.link <;> simp

/-- Settles O34: `pc` and the registers are what WB left, and MEM/WB what MEM made. -/
theorem writeBackIsTheOnlyCommit : Obligations.WriteBackIsTheOnlyCommit := by
  unfold Obligations.WriteBackIsTheOnlyCommit
  intro s t hl hstep
  have hadv := (step_pipelined hl).symm.trans hstep
  have hw := advance_committedBy hadv
  refine ⟨fun m hm => ⟨?_, fun r => ?_⟩, fun hm => ⟨?_, fun r => ?_⟩, fun m hm => ?_⟩
  · rw [hw.pc, writeBack_eq_retire hm, State.retire_pc]
  · rw [State.reg_congr hw.regs, writeBack_reg, hm, ← m.value_eq]
    exact if_congr (and_congr_right fun _ => and_comm) rfl rfl
  · rw [hw.pc, writeBack_none hm]
  · rw [State.reg_congr hw.regs, writeBack_none hm]
  · rcases advance_memwb hadv with hnone | ⟨e, he, hsome⟩
    · cases hnone.symm.trans hm
    · obtain rfl := Option.some.inj (hsome.symm.trans hm)
      exact ⟨e, he, rfl, rfl⟩

/-- Settles O35: a record leaves every byte outside its word, and one that is no store every byte. -/
theorem onlyMemWritesMemory : Obligations.OnlyMemWritesMemory := by
  unfold Obligations.OnlyMemWritesMemory
  intro s t hl hstep
  have hmem := advance_memory ((step_pipelined hl).symm.trans hstep)
  refine ⟨fun e he k hk => ?_, fun hno k => ?_⟩
  · rcases hmem with hsame | ⟨e', he', hstored⟩
    · rw [hsame]
    · obtain rfl := Option.some.inj (he.symm.trans he')
      rw [hstored, e.readByte_stored _ hk]
  · rcases hmem with hsame | ⟨e, he, hstored⟩
    · rw [hsame]
    · rw [hstored, ExMemPayload.stored_of_not_memWrite (hno e he)]

/-- A cycle whose EX/MEM holds a record with its requests granted hands that record on. -/
theorem step_memwb_of_granted {s t : State} {e : ExMemPayload} (hl : s.optLevel = .pipelined) (he : s.exmem = some e)
    (hg : s.memGranted e = true) (hstep : step s = .next t) :
    t.memwb = some (memOut e (e.loaded s.memory)) ∧ t.memory = e.stored s.memory := by
  obtain ⟨s1, mw, em, target, out, hm, _, hi, rfl⟩ :=
    step_cases_of_memCompletes hl (State.memCompletes_of_granted he hg) hstep
  rw [commit_memwb, commit_memory, (ifStage_core hi).2]
  exact hm.of_some he

theorem toNat_loadedWord (byte half : Bool) (w : Word) :
    (loadedWord byte half w).toNat = w.toNat % (if byte then 2 ^ 8 else if half then 2 ^ 16 else 2 ^ 32) := by
  unfold loadedWord
  split
  · exact maskByte_toNat w
  · split
    · exact maskHalf_toNat w
    · exact (Nat.mod_eq_of_lt w.isLt).symm

theorem storedWord_eq (byte half : Bool) (old v : Word) :
    storedWord byte half old v =
      if byte then old.extractLsb' 8 24 ++ v.extractLsb' 0 8
      else if half then old.extractLsb' 16 16 ++ v.extractLsb' 0 16 else v := by
  unfold storedWord
  rw [mergeByte_eq_append, mergeHalf_eq_append]

/-- Settles O37: the record handed on, and its memory data. -/
theorem loadsAndNonAccessesPassMem : Obligations.LoadsAndNonAccessesPassMem := by
  unfold Obligations.LoadsAndNonAccessesPassMem
  intro s t e hl he hw hg hstep
  obtain ⟨hwb, hmem⟩ := step_memwb_of_granted hl he hg hstep
  rw [ExMemPayload.stored_of_not_memWrite hw] at hmem
  refine ⟨_, hwb, rfl, rfl, rfl, rfl, rfl, rfl, rfl, fun k => by rw [hmem], fun hr => ?_, fun hr => ?_⟩
  · exact ExMemPayload.loaded_of_not_memRead hr _
  · rw [← toNat_loadedWord]
    exact congrArg BitVec.toNat (if_pos hr)

/-- Settles O38: the record handed on, and the one word stored. -/
theorem storesWriteInMem : Obligations.StoresWriteInMem := by
  unfold Obligations.StoresWriteInMem
  intro s t e hl he hr hw hg hstep old
  obtain ⟨hwb, hmem⟩ := step_memwb_of_granted hl he hg hstep
  refine ⟨⟨_, hwb, rfl, rfl, rfl, ExMemPayload.loaded_of_not_memRead hr _⟩, fun k hk => ?_, ?_⟩
  · rw [hmem, e.readByte_stored _ hk]
  · rw [hmem, ExMemPayload.stored, if_pos ⟨hr, hw⟩, Memory.readWord_writeWord_self, storedWord_eq]

/-! ## ID and IF (R172 to R174) -/

theorem State.loadUseStall_of_idex_none {s : State} (h : s.idex = none) : s.loadUseStall = false := by
  unfold State.loadUseStall
  split
  · rw [h]
    rfl
  · rfl

/-- In a cycle with no memory stall and no redirect the front latches take what ID and IF made. -/
theorem step_cases_of_no_redirect {s t : State} (hl : s.optLevel = .pipelined) (hm : s.memCompletes)
    (hno : ∀ em target, exStage s = .ok (em, target) → target = none) (hstep : step s = .next t) :
    ∃ s1 mw em out, MemDone s s1 mw ∧ ifStage s.loadUseStall s1 = .ok out ∧
      t = commit none out (idStage s s1) em mw := by
  obtain ⟨s1, mw, em, target, out, hdone, hx, hi, ht⟩ := step_cases_of_memCompletes hl hm hstep
  obtain rfl := hno em target hx
  exact ⟨s1, mw, em, out, hdone, hi, ht⟩

/-- Settles O40: ID reads the registers WB left, which the rest of the cycle leaves. -/
theorem decodeReadsAfterWriteBack : Obligations.DecodeReadsAfterWriteBack := by
  unfold Obligations.DecodeReadsAfterWriteBack
  intro s t f hl hm hf hstall hno hstep
  obtain ⟨s1, mw, em, out, _, hi, rfl⟩ := step_cases_of_no_redirect hl hm hno hstep
  have hreg : ∀ r, (commit none out (idStage s s1) em mw).reg r = s1.reg r :=
    State.reg_congr ((commit_regs ..).trans (ifStage_core hi).1.regs)
  refine ⟨_, (commit_none_idex ..).trans (idStage_decode hstall hf), decodeOut_fromWord _ _ _, rfl, ?_, ?_⟩
  · exact (hreg _).symm
  · exact (hreg _).symm

/-- Settles O41: IF's one request at the `fetch_pc` no other stage moved, granted or denied. -/
theorem fetchFillsOrEmptiesIfId : Obligations.FetchFillsOrEmptiesIfId := by
  unfold Obligations.FetchFillsOrEmptiesIfId
  intro s t hl hm hstall hno hstep
  obtain ⟨s1, mw, em, out, hdone, hi, rfl⟩ := step_cases_of_no_redirect hl hm hno hstep
  have hpc : s1.fetchPc = s.fetchPc := hdone.core.fetchPc.trans (writeBack_fetchPc s)
  rw [hstall] at hi
  rw [← hpc]
  rcases ifStage_cases hi with ⟨hs, _⟩ | ⟨_, _, hg, rfl⟩ | ⟨_, _, hg, rfl⟩
  · cases hs
  · refine ⟨true, s1.history, ?_, fun _ => ⟨rfl, rfl⟩, fun h => nomatch h⟩
    rw [commit_history, State.asked_history, hg]
  · refine ⟨false, s1.history, ?_, (fun h => nomatch h), fun _ => ⟨rfl, rfl⟩⟩
    rw [commit_history, State.asked_history, hg]

/-- Settles O42: each stage hands on an empty slot for an empty latch, and a redirect only empties more. -/
theorem emptySlotsMoveDown : Obligations.EmptySlotsMoveDown := by
  unfold Obligations.EmptySlotsMoveDown
  intro s t hl hstep
  refine ⟨fun he => ?_, fun hm hd => ?_, fun hm hf => ?_⟩
  · rcases advance_memwb ((step_pipelined hl).symm.trans hstep) with hnone | ⟨e, hsome, _⟩
    · exact hnone
    · cases he.symm.trans hsome
  · obtain ⟨s1, mw, em, target, out, _, hx, _, rfl⟩ := step_cases_of_memCompletes hl hm hstep
    rcases exStage_cases hx with ⟨_, hem, _⟩ | ⟨d, _, hsome, _⟩
    · exact (commit_exmem ..).trans hem
    · cases hd.symm.trans hsome
  · obtain ⟨s1, mw, em, target, out, _, _, _, rfl⟩ := step_cases_of_memCompletes hl hm hstep
    rw [idStage_none hf]
    cases target <;> rfl

/-! ## The requests of one cycle (R31, R41) -/

/-- The data requests of a cycle: none, or some of those of the record in EX/MEM. -/
def State.DataRequests (s : State) (data : List Request) : Prop :=
  data = [] ∨ ∃ e, s.exmem = some e ∧ e.Requests data

/-- MEM's requests in a full cycle, all of them granted. -/
theorem MemDone.log {s s1 : State} {mw : Option MemWbPayload} (h : MemDone s s1 mw) :
    ∃ data, s1.history = data ++ s.history ∧ s.DataRequests data ∧ ∀ r ∈ data, r.granted = true := by
  cases h with
  | empty => exact ⟨[], writeBack_history s, .inl rfl, by simp⟩
  | completed e d _ he hm =>
    obtain ⟨data, hlog, hdata, hgranted⟩ := memStage_granted_log hm
    exact ⟨data, hlog.trans (congrArg (data ++ ·) (writeBack_history s)), .inr ⟨e, he, hdata⟩, hgranted⟩

/-- IF's request, if any. -/
theorem ifStage_log {stall : Bool} {s : State} {out : IfOut} (h : ifStage stall s = .ok out) :
    (stall = true ∧ out.state.history = s.history) ∨
    (stall = false ∧ Aligned s.fetchPc ∧
      out.state.history = ⟨.ifetch, s.fetchPc, s.grantsNow s.fetchPc⟩ :: s.history) := by
  rcases ifStage_cases h with ⟨hs, rfl⟩ | ⟨hs, ha, _, rfl⟩ | ⟨hs, ha, _, rfl⟩
  · exact .inl ⟨hs, rfl⟩
  · exact .inr ⟨hs, ha, rfl⟩
  · exact .inr ⟨hs, ha, rfl⟩

/-- The law of the requests one cycle makes (R31, R35, R41). -/
structure State.CycleRequests (s : State) (new : List Request) : Prop where
  ordered : new.Pairwise (fun later earlier => earlier.kind.rank < later.kind.rank)
  each : ∀ r ∈ new, Aligned r.addr ∧
    (r.kind = .ifetch → r.addr = s.fetchPc) ∧
    (r.kind ≠ .ifetch → ∃ e, s.exmem = some e ∧ e.accesses = true ∧ r.addr = e.aluResult ∧
      (r.kind = .dread → e.memRead = true ∨ e.isPartialStore = true) ∧
      (∀ v, r.kind = .dwrite v → e.memWrite = true))

section
variable {s : State} {data : List Request} (h : s.DataRequests data)
include h

theorem State.DataRequests.not_fetch : ∀ r ∈ data, r.kind.isFetch = false := by
  obtain rfl | ⟨e, _, hdata⟩ := h
  · simp
  · intro r hr
    obtain ⟨_, _, hk, _⟩ := hdata.each r hr
    exact hk

/-- A cycle without a fetch: a stall's. -/
theorem State.DataRequests.cycleRequests : s.CycleRequests data := by
  obtain rfl | ⟨e, he, hdata⟩ := h
  · exact ⟨.nil, by simp⟩
  · refine ⟨hdata.ordered, fun r hr => ?_⟩
    obtain ⟨ha, haddr, hk, hacc, hread, hwrite⟩ := hdata.each r hr
    exact ⟨ha, fun hf => (by rw [hf] at hk; cases hk), fun _ => ⟨e, he, hacc, haddr, hread, hwrite⟩⟩

/-- A cycle whose fetch comes after the data requests. -/
theorem State.DataRequests.cycleRequests_fetch (ha : Aligned s.fetchPc) (granted : Bool) :
    s.CycleRequests (⟨.ifetch, s.fetchPc, granted⟩ :: data) := by
  have hcycle := h.cycleRequests
  refine ⟨List.pairwise_cons.2 ⟨fun r hr => ?_, hcycle.ordered⟩, fun r hr => ?_⟩
  · have hk := h.not_fetch r hr
    cases hkind : r.kind with
    | ifetch => rw [hkind] at hk; cases hk
    | dread => exact (by decide : 0 < 2)
    | dwrite v => exact (by decide : 1 < 2)
  · obtain rfl | hr := List.mem_cons.1 hr
    · exact ⟨ha, fun _ => rfl, fun hne => absurd rfl hne⟩
    · exact hcycle.each r hr

end

/-- The log of one cycle. -/
theorem advance_log {s t : State} (h : advance s = .next t) :
    ∃ new, t.history = new ++ s.history ∧ s.CycleRequests new := by
  rcases advance_cases h with ⟨e, s1, he, hm, rfl⟩ | ⟨s1, mw, em, target, out, hm, _, hi, rfl⟩
  · obtain ⟨data, hlog, hdata, _⟩ := memStage_denied_log hm
    have hd : s.DataRequests data := .inr ⟨e, he, hdata⟩
    exact ⟨data, hlog.trans (congrArg (data ++ ·) (writeBack_history s)), hd.cycleRequests⟩
  · obtain ⟨data, hlog, hd, _⟩ := hm.log
    have hpc : s1.fetchPc = s.fetchPc := hm.core.fetchPc.trans (writeBack_fetchPc s)
    rw [commit_history]
    rcases ifStage_log hi with ⟨_, hf⟩ | ⟨_, ha, hf⟩
    · exact ⟨data, hf.trans hlog, hd.cycleRequests⟩
    · rw [hpc] at ha hf
      exact ⟨_ :: data, hf.trans (congrArg (_ :: ·) hlog), hd.cycleRequests_fetch ha _⟩

/-- Settles O43: MEM's requests, then IF's. -/
theorem requestsOfOneCycle : Obligations.RequestsOfOneCycle := by
  unfold Obligations.RequestsOfOneCycle
  intro s t hl hstep
  obtain ⟨new, hlog, hnew⟩ := advance_log ((step_pipelined hl).symm.trans hstep)
  exact ⟨new, hlog, hnew.ordered, hnew.each⟩

/-! ## Refusals (R35, R170) -/

theorem exStage_error {s : State} {r : Refusal} (h : exStage s = .error r) :
    ∃ d, s.idex = some d ∧ d.ctl.aluOp = .r ∧ listedFunct d.funct = false ∧ r = .unlistedFunct d.funct := by
  cases hd : s.idex with
  | none => cases (exStage_none hd).symm.trans h
  | some d =>
    rw [exStage_some hd] at h
    obtain ⟨hr, he⟩ | ⟨_, out, he⟩ := execute_cases d s.exmem s.memwb <;> rw [he] at h
    · cases h
      obtain ⟨hop, hf⟩ : d.ctl.aluOp = .r ∧ listedFunct d.funct = false := by simpa [aluRefuses] using hr
      exact ⟨d, rfl, hop, hf, rfl⟩
    · cases h

theorem ifStage_error {stall : Bool} {s : State} {r : Refusal} (h : ifStage stall s = .error r) :
    ¬ Aligned s.fetchPc ∧ r = .misalignedFetch s.fetchPc := by
  unfold ifStage at h
  split at h
  · cases h
  · rcases s.readPort_cases .ifetch s.fetchPc with ⟨ha, e⟩ | ⟨_, _, e⟩ | ⟨_, _, e⟩ <;> rw [e] at h <;> cases h
    exact ⟨ha, rfl⟩

/-- Everything a cycle in which MEM completed can answer. -/
theorem advanceFront_cases {s s1 : State} {mw : Option MemWbPayload} (hm : MemDone s s1 mw) :
    (∃ t, advanceFront s s1 mw = .next t) ∨
    (∃ d, s.idex = some d ∧ d.ctl.aluOp = .r ∧ listedFunct d.funct = false ∧
      advanceFront s s1 mw = .refused (.unlistedFunct d.funct)) ∨
    (¬ Aligned s.fetchPc ∧ advanceFront s s1 mw = .refused (.misalignedFetch s.fetchPc)) := by
  unfold advanceFront
  cases hx : exStage s with
  | error r =>
    obtain ⟨d, hd, hop, hf, rfl⟩ := exStage_error hx
    exact .inr (.inl ⟨d, hd, hop, hf, rfl⟩)
  | ok p =>
    cases hi : ifStage s.loadUseStall s1 with
    | error r =>
      obtain ⟨ha, rfl⟩ := ifStage_error hi
      rw [hm.core.fetchPc, writeBack_fetchPc] at ha ⊢
      exact .inr (.inr ⟨ha, rfl⟩)
    | ok out => exact .inl ⟨_, rfl⟩

/-- Settles O44: MEM's answer first, then EX's and IF's. -/
theorem pipelineRefusesOnlyThese : Obligations.PipelineRefusesOnlyThese := by
  unfold Obligations.PipelineRefusesOnlyThese
  intro s hl
  have hfront : ∀ s1 mw, MemDone s s1 mw → step s = advanceFront s s1 mw := fun s1 mw hm =>
    (step_pipelined hl).trans (advance_of_memDone hm)
  cases he : s.exmem with
  | none =>
    have hm : MemDone s _ _ := .empty he
    rw [hfront _ _ hm]
    rcases advanceFront_cases hm with hnext | hfunct | hfetch
    · exact .inl hnext
    · exact .inr (.inr (.inl hfunct))
    · exact .inr (.inr (.inr hfetch))
  | some e =>
    cases hmem : memStage e (writeBack s) with
    | granted d s1 =>
      have hm : MemDone s _ _ := .completed e d s1 he hmem
      rw [hfront _ _ hm]
      rcases advanceFront_cases hm with hnext | hfunct | hfetch
      · exact .inl hnext
      · exact .inr (.inr (.inl hfunct))
      · exact .inr (.inr (.inr hfetch))
    | denied s1 => exact .inl ⟨_, (step_pipelined hl).trans (advance_stall he hmem)⟩
    | misaligned =>
      obtain ⟨hacc, hna⟩ := memStage_misaligned hmem
      refine .inr (.inl ⟨e, rfl, hacc, hna, ?_⟩)
      rw [step_pipelined hl, advance]
      simp only [he, hmem]

/-- Settles O33: the meaning of such a word after its fetch, and EX on its R-type control word. -/
theorem unlistedFunctIsRefusedAtExecution : Obligations.UnlistedFunctIsRefusedAtExecution := by
  unfold Obligations.UnlistedFunctIsRefusedAtExecution
  intro w hop hf
  refine ⟨fun s hl ha hg hw => ?_, fun s d hl hm hd hfrom => ?_⟩
  · rw [step_of_fetched hl ha hg, hw, execWord_unlisted hop hf]
  · obtain ⟨s1, mw, hdone⟩ := memDone_of_memCompletes hm
    have hrefuses : aluRefuses d.ctl.aluOp d.funct = true := by
      rw [hfrom.ctl, hfrom.funct, controlWord_unlisted hop hf]
      simp [aluRefuses, Control.rType, listedFunct_eq_false hf]
    obtain ⟨_, he⟩ | ⟨hno, _⟩ := execute_cases d s.exmem s.memwb
    · rw [step_pipelined hl, advance_of_memDone hdone, advanceFront, exStage_some hd, he, hfrom.funct]
    · cases hrefuses.symm.trans hno

end Sys2Proof.Machine
end

section
/-! PROOFS. Stalls, bubbles and redirects (46_pipeline_hazards.md), and the invariant every step keeps. -/

namespace Sys2Proof.Machine

/-! ## The load-use stall -/

/-- A stalled load is what ID made of a word: a bubble loads nothing (R194, R195). -/
theorem stalled_load {s : State} (hinv : s.Inv) (h : s.loadUseStall = true) :
    ∃ d w, s.idex = some d ∧ d.FromWord w ∧ d.ctl.memRead = true := by
  obtain ⟨_, d, _, hd, hread, _⟩ := loadUseStall_cases h
  obtain ⟨p, rfl⟩ | ⟨w, hw⟩ := hinv.idex d hd
  · cases hread
  · exact ⟨d, w, hd, hw, hread⟩

/-- EX of a load: it moves on to EX/MEM as a load to `rt`, and its `pc_commit` is the next address (R169). -/
theorem execute_load {d : IdExPayload} {w : Word} (hd : d.FromWord w) (hread : d.ctl.memRead = true)
    {em : Option ExMemPayload} {mw : Option MemWbPayload} {out : ExOut} (h : execute d em mw = .ok out) :
    out.exmem.memRead = true ∧ out.exmem.writeReg = d.rt ∧ out.redirect = none ∧ out.exmem.pcCommit = d.pcPlus4 := by
  have hload : out.exmem.memRead = true := (execute_copies h).memRead.trans hread
  have hacc : out.exmem.accesses = true := by simp [ExMemPayload.accesses, hload]
  obtain ⟨_, _, hdest, hredirect, hcommit⟩ := execute_access hd h hacc
  exact ⟨hload, hdest, hredirect, hcommit⟩

/-- What EX makes of a record that stands in ID/EX. -/
theorem exStage_of_idex {s : State} {d : IdExPayload} {em : Option ExMemPayload} {target : Option Word}
    (hd : s.idex = some d) (h : exStage s = .ok (em, target)) :
    ∃ out, execute d s.exmem s.memwb = .ok out ∧ em = some out.exmem ∧ target = out.redirect := by
  rcases exStage_cases h with ⟨hnone, _⟩ | ⟨d', out, hd', hout, hem, htarget⟩
  · cases hd.symm.trans hnone
  · obtain rfl := Option.some.inj (hd.symm.trans hd')
    exact ⟨out, hout, hem, htarget⟩

/-- Settles O51: the stalled record is a load, and a load transfers no control. -/
theorem stallAndRedirectExclude : Obligations.StallAndRedirectExclude := by
  unfold Obligations.StallAndRedirectExclude
  intro s em target hinv hstall hx
  obtain ⟨d, w, hd, hw, hread⟩ := stalled_load hinv hstall
  obtain ⟨out, hout, _, rfl⟩ := exStage_of_idex hd hx
  obtain ⟨_, _, hnone, _⟩ := execute_load hw hread hout
  exact hnone

theorem State.DataRequests.fetches_append {s : State} {data : List Request} (h : s.DataRequests data)
    (log : List Request) : fetches (data ++ log) = fetches log := by
  have hnil : data.filter (fun r => r.kind.isFetch) = [] :=
    List.filter_eq_nil_iff.2 fun r hr => by simp [h.not_fetch r hr]
  unfold fetches
  rw [List.filter_append, hnil, List.nil_append]

/-- Settles O47: the load moves on, ID makes the bubble, IF issues nothing. -/
theorem loadUseStallInsertsBubble : Obligations.LoadUseStallInsertsBubble := by
  unfold Obligations.LoadUseStallInsertsBubble
  intro s t hinv hl hm hstall hstep
  obtain ⟨s1, mw, em, target, out, hdone, hx, hi, rfl⟩ := step_cases_of_memCompletes hl hm hstep
  obtain ⟨d, w, hd, hw, hread⟩ := stalled_load hinv hstall
  obtain ⟨o, ho, rfl, rfl⟩ := exStage_of_idex hd hx
  obtain ⟨hload, hdest, hnone, hcommit⟩ := execute_load hw hread ho
  rw [hstall] at hi
  obtain ⟨_, rfl⟩ | ⟨h, _⟩ | ⟨h, _⟩ := ifStage_cases hi
  case inr.inl | inr.inr => cases h
  obtain ⟨data, hlog, hdata, _⟩ := hdone.log
  rw [hnone, idStage_stall hstall hd]
  refine ⟨d, _, _, hd, rfl, rfl, hload, hdest, hcommit, rfl, rfl, rfl, ?_, ?_, ?_⟩
  · exact hdone.core.ifid.trans (writeBack_ifid s)
  · exact hdone.core.fetchPc.trans (writeBack_fetchPc s)
  · exact (congrArg fetches hlog).trans (hdata.fetches_append _)

/-- Settles O48: WB of a record that writes no register, with the `pc` it finds. -/
theorem bubbleRetirementChangesNothing : Obligations.BubbleRetirementChangesNothing := by
  unfold Obligations.BubbleRetirementChangesNothing
  intro s t m hinv hl hm hb hstep
  have hw := advance_committedBy ((step_pipelined hl).symm.trans hstep)
  have hwrite : m.regWrite = false := (hinv.memwb m hm).bubble hb
  refine ⟨?_, fun r => ?_⟩
  · rw [hw.pc, writeBack_eq_retire hm, State.retire_pc, hinv.bubbleInWb m hm hb]
  · rw [State.reg_congr hw.regs, writeBack_eq_retire hm, State.reg_retire, if_neg (by simp [hwrite])]

/-! ## Redirects and memory stalls -/

/-- Settles O50: the commit of a cycle with a redirect. -/
theorem redirectFlushesTwoSlots : Obligations.RedirectFlushesTwoSlots := by
  unfold Obligations.RedirectFlushesTwoSlots
  intro s t d out target hl hm hd hout hredirect hstep
  have hpc := (advance_committedBy ((step_pipelined hl).symm.trans hstep)).pc
  obtain ⟨s1, mw, em, tg, o, _, hx, _, rfl⟩ := step_cases_of_memCompletes hl hm hstep
  obtain ⟨out', hout', rfl, rfl⟩ := exStage_of_idex hd hx
  obtain rfl : out = out' := Except.ok.inj (hout.symm.trans hout')
  obtain ⟨_, _, hcommit⟩ := execute_resolves hout
  rw [hredirect] at hcommit hpc ⊢
  exact ⟨rfl, rfl, rfl, rfl, hcommit, hpc⟩

/-- Settles O52: the stall cycle empties MEM/WB, so the operand is the one ID read. -/
theorem forwardingLossUnderMemoryStall : Obligations.ForwardingLossUnderMemoryStall := by
  unfold Obligations.ForwardingLossUnderMemoryStall
  intro s m e d hl hm he hd hwrite hreg ha hg hmiss
  obtain ⟨t, hstep, hwb, hex, hid, _, _, _, hregs, _, _⟩ := memoryStallHoldsThePipeline s e hl he ha hg
  have hlost : ∀ src v, src = m.writeReg → fwd t.exmem t.memwb src v = v := by
    rintro src v rfl
    have hno : ¬ ∃ e', t.exmem = some e' ∧ e'.regWrite = true ∧ e'.writeReg = m.writeReg := by
      rintro ⟨e', he', hw⟩
      obtain rfl := Option.some.inj (he'.symm.trans (hex.trans he))
      exact hmiss hw
    rw [fwd_of_exmem_misses hno, hwb]
    exact fwd_none_of_memwb_misses (by simp) v
  refine ⟨t, hstep, ?_, hid.trans hd, hlost _ _, hlost _ _⟩
  rw [hregs, writeBack_eq_retire hm, State.reg_retire, if_pos ⟨hwrite, rfl, hreg⟩]

/-- Settles O53: such a request is denied whatever the answers, and an empty MEM/WB commits nothing. -/
theorem requestOutsideDomainIsStuck : Obligations.RequestOutsideDomainIsStuck := by
  unfold Obligations.RequestOutsideDomainIsStuck
  intro s e hl he hacc ha hout hwb
  have hg : s.memGranted e = false := by simp [State.memGranted, hacc, State.grantsNow, hout]
  obtain ⟨u, hu⟩ := memStage_denied ha hg
  obtain ⟨hcore, hmem⟩ := dataAccess_denied_core _ _ _ _ _ _ _ hu
  rw [← writeBack_none hwb] at hu
  refine ⟨_, (step_pipelined hl).trans (advance_stall he hu), ?_⟩
  exact unchangedButPort_of_core { hcore with memwb := hwb.symm } hmem

/-! ## The configuration and the log -/

/-- Settles O56: in either model. -/
theorem configurationIsFixedForARun : Obligations.ConfigurationIsFixedForARun := by
  unfold Obligations.ConfigurationIsFixedForARun
  intro s t hstep
  cases hl : s.optLevel with
  | singleCycle =>
    have hcall := (step_singleCycle hl).symm.trans hstep
    have hout := singleCycleStep_outside hcall
    exact ⟨hout.optLevel.trans hl, hout.memDomain, hout.grantTail, singleCycleStep_log hcall⟩
  | pipelined =>
    have hadv := (step_pipelined hl).symm.trans hstep
    have hw := advance_committedBy hadv
    obtain ⟨new, hlog, _⟩ := advance_log hadv
    exact ⟨hw.optLevel.trans ((writeBack_optLevel s).trans hl), hw.memDomain.trans (writeBack_memDomain s),
      hw.grantTail.trans (writeBack_grantTail s), new, hlog⟩

/-! ## The invariant: latch contents -/

/-- The contents ID can give ID/EX (R173, R195). -/
def IdExPayload.Made (d : IdExPayload) : Prop := (∃ p, d = bubblePayload p) ∨ ∃ w, d.FromWord w

theorem IdExPayload.Made.eq_bubble {d : IdExPayload} (h : d.Made) (hb : d.bubble = true) :
    d = bubblePayload d.pcPlus4 := by
  obtain ⟨p, rfl⟩ | ⟨w, hw⟩ := h
  · rfl
  · cases hw.bubble.symm.trans hb

/-- EX makes legal records of the contents ID makes (R71). -/
theorem execute_legal {d : IdExPayload} (hd : d.Made) {em : Option ExMemPayload} {mw : Option MemWbPayload}
    {out : ExOut} (h : execute d em mw = .ok out) : out.exmem.Legal := by
  have hcopy := execute_copies h
  obtain ⟨p, rfl⟩ | ⟨w, hw⟩ := hd
  · constructor
    · rw [hcopy.memRead]; rfl
    · rw [hcopy.halfword]; rfl
    · rw [hcopy.memToReg, hcopy.memRead]; rfl
    · intro hstore; cases hcopy.memWrite.symm.trans hstore
    · intro hl; cases hcopy.link.symm.trans hl
    · exact fun _ => ⟨hcopy.regWrite, hcopy.memRead, hcopy.memWrite⟩
  · have hlegal := controlWord_legal w
    rw [← hw.ctl] at hlegal
    constructor
    · rw [hcopy.memRead, hcopy.memWrite]; exact hlegal.oneAccess
    · rw [hcopy.halfword, hcopy.byte]; exact hlegal.oneWidth
    · rw [hcopy.memToReg, hcopy.memRead]; exact hlegal.loadIffMemToReg
    · intro hstore
      exact hcopy.regWrite.trans (hlegal.noWrite (.inl (hcopy.memWrite.symm.trans hstore)))
    · intro hl
      have hctl := hcopy.link.symm.trans hl
      obtain ⟨hnr, hnw⟩ := controlWord_link_no_access (hw.ctl ▸ hctl)
      rw [← hw.ctl] at hnr hnw
      exact ⟨hcopy.regWrite.trans (hlegal.linkIsJump hctl).2, hcopy.writeReg.trans (destination_of_link hctl _ _),
        hcopy.memRead.trans hnr, hcopy.memWrite.trans hnw⟩
    · intro hb
      cases hw.bubble.symm.trans (hcopy.bubble.symm.trans hb)

/-- MEM hands a legal record on as a legal one. -/
theorem memOut_legal {e : ExMemPayload} (h : e.Legal) (d : Word) : (memOut e d).Legal where
  linkTarget hl := by
    obtain ⟨hwrite, hreg, hread, _⟩ := h.linkTarget hl
    exact ⟨hwrite, hreg, h.loadIffMemToReg.trans hread⟩
  bubble hb := (h.bubble hb).1

/-- EX of a bubble: a bubble with the address it was given. -/
theorem execute_bubble {p : Word} {em : Option ExMemPayload} {mw : Option MemWbPayload} {out : ExOut}
    (h : execute (bubblePayload p) em mw = .ok out) :
    out.exmem.bubble = true ∧ out.exmem.regWrite = false ∧ out.exmem.accesses = false ∧ out.redirect = none ∧
      out.exmem.pcCommit = p := by
  obtain ⟨o, ho, hnone, hcommit, hwrite, hmr, hmw⟩ := execute_inert (d := bubblePayload p) rfl em mw
  obtain rfl : out = o := Except.ok.inj (h.symm.trans ho)
  exact ⟨(execute_copies h).bubble, hwrite, by simp [ExMemPayload.accesses, hmr, hmw], hnone, hcommit⟩

/-- Everything ID can make: a stall's bubble, or the record of the word in IF/ID. -/
theorem idStage_cases {s written : State} {d : IdExPayload} (h : idStage s written = some d) :
    (∃ l, s.loadUseStall = true ∧ s.idex = some l ∧ d = bubblePayload l.pcPlus4) ∨
    (∃ f, s.loadUseStall = false ∧ s.ifid = some f ∧ d = decodeOut f written) := by
  cases hs : s.loadUseStall with
  | true =>
    obtain ⟨_, l, _, hl, _⟩ := loadUseStall_cases hs
    exact .inl ⟨l, rfl, hl, (Option.some.inj ((idStage_stall hs hl).symm.trans h)).symm⟩
  | false =>
    cases hf : s.ifid with
    | none => cases (idStage_none hf).symm.trans h
    | some f => exact .inr ⟨f, rfl, rfl, (Option.some.inj ((idStage_decode hs hf).symm.trans h)).symm⟩

/-- A commit that leaves a record in ID/EX has no redirect. -/
theorem commit_idex_some {target : Option Word} {out : IfOut} {d : Option IdExPayload} {em : Option ExMemPayload}
    {mw : Option MemWbPayload} {r : IdExPayload} (h : (commit target out d em mw).idex = some r) : d = some r := by
  cases target with
  | none => exact h
  | some t => cases h

/-! ## The invariant: every step -/

/-- The memory's canonical form and the stored x[0] over a single-cycle call. -/
theorem singleCycleStep_stored {s t : State} (h : singleCycleStep s = .next t) (hm : s.memory.wf)
    (hz : s.regs[0] = 0) : t.memory.wf ∧ t.regs[0] = 0 := by
  rcases singleCycleStep_cases h with ⟨_, rfl⟩ | ⟨_, out, _, hd | ⟨d, s1, hd, rfl⟩⟩
  · exact ⟨hm, hz⟩
  · obtain ⟨hcore, hsame⟩ := dataAccess_denied_core _ _ _ _ _ _ _ hd
    rw [hsame]
    exact ⟨hm, (congrArg (fun v : Vector Word 32 => v[0]) hcore.regs).trans hz⟩
  · obtain ⟨_, hstored, hcore⟩ := memStage_granted hd
    rw [State.retire_memory, hstored, State.retire_stored_zero]
    exact ⟨out.exmem.wf_stored hm, (congrArg (fun v : Vector Word 32 => v[0]) hcore.regs).trans hz⟩

/-- The same over a cycle of the pipeline. -/
theorem advance_stored {s t : State} (h : advance s = .next t) (hm : s.memory.wf) (hz : s.regs[0] = 0) :
    t.memory.wf ∧ t.regs[0] = 0 := by
  refine ⟨?_, ?_⟩
  · rcases advance_memory h with hsame | ⟨e, _, hstored⟩
    · rw [hsame]
      exact hm
    · rw [hstored]
      exact e.wf_stored hm
  · have hregs := congrArg (fun v : Vector Word 32 => v[0]) (advance_committedBy h).regs
    exact hregs.trans ((writeBack_stored_zero s).trans hz)

/-- A cycle whose EX/MEM holds an access that is denied: the latches but MEM/WB stay, and no bubble accesses memory. -/
theorem inv_of_stall {s s1 : State} {e : ExMemPayload} (hinv : s.Inv) (hl : s.optLevel = .pipelined)
    (he : s.exmem = some e) (hd : memStage e (writeBack s) = .denied s1) (hm : s1.memory.wf) (hz : s1.regs[0] = 0) :
    State.Inv { s1 with memwb := none } := by
  have hcore := (dataAccess_denied_core _ _ _ _ _ _ _ hd).1
  have hidex : s1.idex = s.idex := hcore.idex.trans (writeBack_idex s)
  have hexmem : s1.exmem = s.exmem := hcore.exmem.trans (writeBack_exmem s)
  have hlevel : s1.optLevel = s.optLevel := hcore.optLevel.trans (writeBack_optLevel s)
  constructor
  · exact hm
  · exact hz
  · intro h
    cases hl.symm.trans (hlevel.symm.trans h)
  · intro d h
    exact hinv.idex d (hidex.symm.trans h)
  · intro e' h
    exact hinv.exmem e' (hexmem.symm.trans h)
  · intro m h
    cases h
  · intro d h hb
    obtain ⟨e', he', hload, hcommit⟩ := hinv.bubbleInEx d (hidex.symm.trans h) hb
    exact ⟨e', hexmem.trans he', hload, hcommit⟩
  · intro e' h hb
    obtain rfl := Option.some.inj (he.symm.trans (hexmem.symm.trans h))
    obtain ⟨_, hmr, hmw⟩ := (hinv.exmem e he).bubble hb
    cases (memStage_no_access (by simp [ExMemPayload.accesses, hmr, hmw]) _).symm.trans hd
  · intro m h
    cases h

/-- A full cycle: each latch takes what the stage before it made, and each link of the bubble's chain moves on with
its record. -/
theorem inv_of_full_cycle {s s1 : State} {mw : Option MemWbPayload} {em : Option ExMemPayload} {target : Option Word}
    {out : IfOut} (hinv : s.Inv) (hdone : MemDone s s1 mw) (hx : exStage s = .ok (em, target))
    (hl : (commit target out (idStage s s1) em mw).optLevel = .pipelined)
    (hm : (commit target out (idStage s s1) em mw).memory.wf)
    (hz : (commit target out (idStage s s1) em mw).regs[0] = 0)
    (hpc : (commit target out (idStage s s1) em mw).pc = (writeBack s).pc) :
    (commit target out (idStage s s1) em mw).Inv := by
  constructor
  · exact hm
  · exact hz
  · intro h
    cases hl.symm.trans h
  · intro d h
    obtain ⟨l, _, _, rfl⟩ | ⟨f, _, _, rfl⟩ := idStage_cases (commit_idex_some h)
    · exact .inl ⟨_, rfl⟩
    · exact .inr ⟨_, decodeOut_fromWord _ _ _⟩
  · intro e h
    rw [commit_exmem] at h
    rcases exStage_cases hx with ⟨_, hnone, _⟩ | ⟨d, o, hd, ho, hem, _⟩
    · cases hnone.symm.trans h
    · obtain rfl := Option.some.inj (hem.symm.trans h)
      exact execute_legal (hinv.idex d hd) ho
  · intro m h
    rw [commit_memwb] at h
    cases he : s.exmem with
    | none => cases (hdone.of_none he).2.symm.trans h
    | some e =>
      obtain rfl := Option.some.inj ((hdone.of_some he).1.symm.trans h)
      exact memOut_legal (hinv.exmem e he) _
  · intro d h hb
    obtain ⟨l, hstall, hidex, rfl⟩ | ⟨f, _, _, rfl⟩ := idStage_cases (commit_idex_some h)
    · obtain ⟨l', w, hl', hw, hread⟩ := stalled_load hinv hstall
      obtain rfl := Option.some.inj (hidex.symm.trans hl')
      obtain ⟨o, ho, rfl, _⟩ := exStage_of_idex hidex hx
      obtain ⟨hload, _, _, hcommit⟩ := execute_load hw hread ho
      exact ⟨_, commit_exmem .., hload, hcommit⟩
    · cases hb
  · intro e h hb
    rw [commit_exmem] at h
    rcases exStage_cases hx with ⟨_, hnone, _⟩ | ⟨d, o, hd, ho, hem, _⟩
    · cases hnone.symm.trans h
    · obtain rfl := Option.some.inj (hem.symm.trans h)
      have hdb : d.bubble = true := (execute_copies ho).bubble.symm.trans hb
      obtain ⟨e', he', _, hcommit'⟩ := hinv.bubbleInEx d hd hdb
      rw [IdExPayload.Made.eq_bubble (hinv.idex d hd) hdb] at ho
      obtain ⟨_, _, _, _, hcommit⟩ := execute_bubble ho
      exact ⟨_, (commit_memwb ..).trans (hdone.of_some he').1, hcommit'.trans hcommit.symm⟩
  · intro m h hb
    rw [commit_memwb] at h
    cases he : s.exmem with
    | none => cases (hdone.of_none he).2.symm.trans h
    | some e =>
      obtain rfl := Option.some.inj ((hdone.of_some he).1.symm.trans h)
      obtain ⟨m', hm', hcommit⟩ := hinv.bubbleInMem e he hb
      rw [hpc, writeBack_eq_retire hm', State.retire_pc]
      exact hcommit.symm

/-- Settles O54: a single-cycle call uses no latch; a cycle of the pipeline is a memory stall or a full cycle. -/
theorem everyStepKeepsTheInvariant : Obligations.EveryStepKeepsTheInvariant := by
  unfold Obligations.EveryStepKeepsTheInvariant
  intro s t hinv hstep
  cases hl : s.optLevel with
  | singleCycle =>
    have hcall := (step_singleCycle hl).symm.trans hstep
    have hout := singleCycleStep_outside hcall
    have hd := hinv.noLatches hl
    obtain ⟨hm, hz⟩ := singleCycleStep_stored hcall hinv.memory hinv.zero
    exact inv_of_drained hm hz ⟨hout.ifid.trans hd.ifid, hout.idex.trans hd.idex, hout.exmem.trans hd.exmem,
      hout.memwb.trans hd.memwb⟩
  | pipelined =>
    have hadv := (step_pipelined hl).symm.trans hstep
    obtain ⟨hm, hz⟩ := advance_stored hadv hinv.memory hinv.zero
    have hw := advance_committedBy hadv
    rcases advance_cases hadv with ⟨e, s1, he, hd, rfl⟩ | ⟨s1, mw, em, target, out, hdone, hx, _, rfl⟩
    · exact inv_of_stall hinv hl he hd hm hz
    · exact inv_of_full_cycle hinv hdone hx (hw.optLevel.trans ((writeBack_optLevel s).trans hl)) hm hz hw.pc

end Sys2Proof.Machine
end

section
/-! PROOFS. Runs (70_reset_and_hazards.md): a run taken apart step by step with its log, and the first retirement. -/

namespace Sys2Proof.Machine

/-! ## Runs -/

theorem run_succ_of_step {s s' : State} (h : step s = .next s') (k : Nat) : core.run (k + 1) s = core.run k s' := by
  have hcore : core.step s = step s := rfl
  rw [Host.Core.run.eq_2 core s k, hcore, h]

theorem run_succ {k : Nat} {s t : State} (h : core.run (k + 1) s = .next t) :
    ∃ s', step s = .next s' ∧ core.run k s' = .next t := by
  cases hstep : step s with
  | next s' => exact ⟨s', rfl, (run_succ_of_step hstep k).symm.trans h⟩
  | fault r => cases r
  | refused r =>
    have hcore : core.step s = step s := rfl
    rw [Host.Core.run.eq_2 core s k, hcore, hstep] at h
    cases h

theorem run_zero {s t : State} (h : core.run 0 s = .next t) : t = s :=
  (Host.Outcome.next.inj h).symm

/-- The log only grows along a run. -/
theorem run_log {k : Nat} {s t : State} (h : core.run k s = .next t) : ∃ new, t.history = new ++ s.history := by
  induction k generalizing s with
  | zero => exact ⟨[], by rw [run_zero h]; rfl⟩
  | succ k ih =>
    obtain ⟨s', hstep, hrun⟩ := run_succ h
    obtain ⟨_, _, _, first, hfirst⟩ := configurationIsFixedForARun s s' hstep
    obtain ⟨rest, hrest⟩ := ih hrun
    exact ⟨rest ++ first, by rw [hrest, hfirst, List.append_assoc]⟩

/-- A run's first step, and the part of the run's log that is that step's. -/
theorem run_succ_log {k : Nat} {s t : State} {new : List Request} (h : core.run (k + 1) s = .next t)
    (hlog : t.history = new ++ s.history) :
    ∃ s' first rest, step s = .next s' ∧ core.run k s' = .next t ∧ s'.history = first ++ s.history ∧
      t.history = rest ++ s'.history ∧ new = rest ++ first := by
  obtain ⟨s', hstep, hrun⟩ := run_succ h
  obtain ⟨_, _, _, first, hfirst⟩ := configurationIsFixedForARun s s' hstep
  obtain ⟨rest, hrest⟩ := run_log hrun
  refine ⟨s', first, rest, hstep, hrun, hfirst, hrest, ?_⟩
  rw [hlog, hfirst, ← List.append_assoc] at hrest
  exact List.append_cancel_right hrest

theorem instrRetirements_succ {s s' : State} (h : step s = .next s') (k : Nat) :
    instrRetirements (k + 1) s = (if s.retiresInstr then 1 else 0) + instrRetirements k s' := by
  rw [instrRetirements, h]

theorem retiresInstr_of_none {s : State} (h : s.memwb = none) : s.retiresInstr = false := by
  simp [State.retiresInstr, h]

theorem retiresInstr_of_some {s : State} {m : MemWbPayload} (h : s.memwb = some m) : s.retiresInstr = !m.bubble := by
  simp [State.retiresInstr, h]

/-! ## Cycles with no data request denied -/

/-- Where a cycle's log shows no denied data request, MEM did not stall. -/
theorem full_cycle_of_log {s t : State} {first : List Request} (hl : s.optLevel = .pipelined)
    (hstep : step s = .next t) (hlog : t.history = first ++ s.history) (hgranted : DataRequestsGranted first) :
    ∃ s1 mw em target out, MemDone s s1 mw ∧ exStage s = .ok (em, target) ∧
      ifStage s.loadUseStall s1 = .ok out ∧ t = commit target out (idStage s s1) em mw := by
  rcases advance_cases ((step_pipelined hl).symm.trans hstep) with ⟨e, s1, he, hm, rfl⟩ | hfull
  · obtain ⟨data, hdata, hreq, r, hr, hdenied⟩ := memStage_denied_log hm
    rw [writeBack_history] at hdata
    obtain rfl : first = data := List.append_cancel_right (hlog.symm.trans hdata)
    obtain ⟨_, _, hk, _⟩ := hreq.each r hr
    cases (hgranted r hr hk).symm.trans hdenied
  · exact hfull

theorem dataRequestsGranted_of_all {log : List Request} (h : ∀ r ∈ log, r.granted = true) : DataRequestsGranted log :=
  fun r hr _ => h r hr

/-! ## The first instruction's way through the pipeline -/

section
variable {s t : State} (hl : s.optLevel = .pipelined) (hstep : step s = .next t)
include hl hstep

/-- A granted fetch fills IF/ID, when nothing in ID/EX stalls or redirects it. -/
theorem ifid_filled {first : List Request} (hd : s.idex = none) (hlog : t.history = first ++ s.history)
    (hgranted : ∀ r ∈ first, r.granted = true) : ∃ f, t.ifid = some f := by
  obtain ⟨s1, mw, em, target, out, hdone, hx, hi, rfl⟩ :=
    full_cycle_of_log hl hstep hlog (dataRequestsGranted_of_all hgranted)
  obtain ⟨rfl, rfl⟩ : em = none ∧ target = none := by
    cases (exStage_none hd).symm.trans hx
    exact ⟨rfl, rfl⟩
  obtain ⟨data, hdata, _⟩ := hdone.log
  rw [State.loadUseStall_of_idex_none hd] at hi
  obtain ⟨h, _⟩ | ⟨_, _, _, rfl⟩ | ⟨_, _, hdenied, rfl⟩ := ifStage_cases hi
  · cases h
  · exact ⟨_, rfl⟩
  · rw [commit_history, State.asked_history, hdata, ← List.cons_append] at hlog
    obtain rfl := List.append_cancel_right hlog
    cases hdenied.symm.trans (hgranted _ List.mem_cons_self)

/-- The word in IF/ID becomes a record in ID/EX. -/
theorem idex_filled {f : IfIdPayload} (hf : s.ifid = some f) (hd : s.idex = none) (he : s.exmem = none) :
    ∃ d, t.idex = some d ∧ d.bubble = false := by
  obtain ⟨s1, mw, em, target, out, _, hx, _, rfl⟩ :=
    step_cases_of_memCompletes hl (State.memCompletes_of_none he) hstep
  obtain ⟨rfl, rfl⟩ : em = none ∧ target = none := by
    cases (exStage_none hd).symm.trans hx
    exact ⟨rfl, rfl⟩
  exact ⟨_, (commit_none_idex ..).trans (idStage_decode (State.loadUseStall_of_idex_none hd) hf), rfl⟩

/-- The record in ID/EX becomes one in EX/MEM. -/
theorem exmem_filled {d : IdExPayload} (hd : s.idex = some d) (hb : d.bubble = false) (he : s.exmem = none) :
    ∃ e, t.exmem = some e ∧ e.bubble = false := by
  obtain ⟨s1, mw, em, target, out, _, hx, _, rfl⟩ :=
    step_cases_of_memCompletes hl (State.memCompletes_of_none he) hstep
  obtain ⟨o, ho, rfl, _⟩ := exStage_of_idex hd hx
  exact ⟨_, commit_exmem .., (execute_copies ho).bubble.trans hb⟩

/-- The record in EX/MEM, none of its requests denied, becomes one in MEM/WB. -/
theorem memwb_filled {e : ExMemPayload} {first : List Request} (he : s.exmem = some e) (hb : e.bubble = false)
    (hlog : t.history = first ++ s.history) (hgranted : ∀ r ∈ first, r.granted = true) :
    ∃ m, t.memwb = some m ∧ m.bubble = false := by
  obtain ⟨s1, mw, em, target, out, hdone, _, _, rfl⟩ :=
    full_cycle_of_log hl hstep hlog (dataRequestsGranted_of_all hgranted)
  exact ⟨_, (commit_memwb ..).trans (hdone.of_some he).1, hb⟩

end

/-- A cycle with MEM/WB empty commits nothing and retires nothing. -/
theorem step_of_memwb_none {s t : State} (hl : s.optLevel = .pipelined) (hstep : step s = .next t)
    (h : s.memwb = none) (k : Nat) :
    t.pc = s.pc ∧ SameRegisters s t ∧ instrRetirements (k + 1) s = instrRetirements k t := by
  obtain ⟨hpc, hregs⟩ := (writeBackIsTheOnlyCommit s t hl hstep).2.1 h
  refine ⟨hpc, hregs, ?_⟩
  rw [instrRetirements_succ hstep, retiresInstr_of_none h, if_neg (by decide), Nat.zero_add]

/-- Settles O59: one latch a cycle, MEM/WB empty until the fifth, and an empty MEM/WB commits nothing. -/
theorem firstRetirementIsInTheFifthCycle : Obligations.FirstRetirementIsInTheFifthCycle := by
  unfold Obligations.FirstRetirementIsInTheFifthCycle
  intro s t u new hl0 hdrained hrun4 hrun5 hlog0 hgranted
  obtain ⟨s1, n1, r1, st1, run1, log1, hlog1, rfl⟩ := run_succ_log hrun5 hlog0
  obtain ⟨s2, n2, r2, st2, run2, log2, hlog2, rfl⟩ := run_succ_log run1 hlog1
  obtain ⟨s3, n3, r3, st3, run3, log3, hlog3, rfl⟩ := run_succ_log run2 hlog2
  obtain ⟨s4, n4, r4, st4, run4, log4, _, rfl⟩ := run_succ_log run3 hlog3
  obtain ⟨s5, st5, _⟩ := run_succ run4
  have hsteps : core.run 4 s = .next s4 := by
    rw [run_succ_of_step st1 3, run_succ_of_step st2 2, run_succ_of_step st3 1, run_succ_of_step st4 0]
    rfl
  obtain rfl : t = s4 := Host.Outcome.next.inj (hrun4.symm.trans hsteps)
  have hl1 := (configurationIsFixedForARun s s1 st1).1.trans hl0
  have hl2 := (configurationIsFixedForARun s1 s2 st2).1.trans hl1
  have hl3 := (configurationIsFixedForARun s2 s3 st3).1.trans hl2
  obtain ⟨wb1, ex1, id1⟩ := emptySlotsMoveDown s s1 hl0 st1
  obtain ⟨wb2, ex2, _⟩ := emptySlotsMoveDown s1 s2 hl1 st2
  obtain ⟨wb3, _, _⟩ := emptySlotsMoveDown s2 s3 hl2 st3
  have hm0 := State.memCompletes_of_none hdrained.exmem
  have hex1 := ex1 hm0 hdrained.idex
  have hid1 := id1 hm0 hdrained.ifid
  have hex2 := ex2 (State.memCompletes_of_none hex1) hid1
  obtain ⟨f, hf⟩ := ifid_filled hl0 st1 hdrained.idex log1 fun r hr => hgranted r (by simp [hr])
  obtain ⟨d, hd, hdb⟩ := idex_filled hl1 st2 hf hid1 hex1
  obtain ⟨e, he, heb⟩ := exmem_filled hl2 st3 hd hdb hex2
  obtain ⟨m, hm, hmb⟩ := memwb_filled hl3 st4 he heb log4 fun r hr => hgranted r (by simp [hr])
  have quiet0 := step_of_memwb_none hl0 st1 hdrained.memwb
  have quiet1 := step_of_memwb_none hl1 st2 (wb1 hdrained.exmem)
  have quiet2 := step_of_memwb_none hl2 st3 (wb2 hex1)
  have quiet3 := step_of_memwb_none hl3 st4 (wb3 hex2)
  have hcount : ∀ k, instrRetirements (k + 4) s = instrRetirements k t := fun k => by
    rw [(quiet0 _).2.2, (quiet1 _).2.2, (quiet2 _).2.2, (quiet3 _).2.2]
  refine ⟨hcount 0, ?_, fun r => ?_, ?_⟩
  · rw [(quiet3 0).1, (quiet2 0).1, (quiet1 0).1, (quiet0 0).1]
  · rw [(quiet3 0).2.1 r, (quiet2 0).2.1 r, (quiet1 0).2.1 r, (quiet0 0).2.1 r]
  · rw [hcount 1, instrRetirements_succ st5, retiresInstr_of_some hm, hmb]
    rfl

end Sys2Proof.Machine
end

section
/-! PROOFS. The pipeline computes what the single-cycle model computes (R222). The single-cycle run is laid out as a
sequence of states `R 0, R 1, ...`; a simulation relation says which instruction of that sequence each latch holds, and
every cycle, full or stalled, keeps it. -/

namespace Sys2Proof.Machine

/-! ## One step of the reference run, as a record of the pipeline -/

/-- The ID/EX record of the instruction a state is about to run. -/
def State.nextRecord (u : State) : IdExPayload := decodeOut ⟨u.memory.readWord u.pc, u.pcPlus4⟩ u

/-- The step from `u` to `v` of the reference run is what EX, MEM and WB make of the EX/MEM record `e`. -/
structure StepRecord (u v : State) (e : ExMemPayload) : Prop where
  aligned : Aligned u.pc
  made : ∃ out, execute u.nextRecord none none = .ok out ∧ out.exmem = e
  memory : v.memory = e.stored u.memory
  pc : v.pc = e.pcCommit
  reg : ∀ r, v.reg r = (u.retire (memOut e (e.loaded u.memory))).reg r
  store : e.memRead = false → e.memWrite = true →
    Aligned e.aluResult ∧ ∃ value, ⟨.dwrite value, e.aluResult, true⟩ ∈ v.history

/-- A completed store leaves its DWRITE in the log. -/
theorem memStage_store_log {e : ExMemPayload} {s t : State} {d : Word} (h : memStage e s = .granted d t)
    (hr : e.memRead = false) (hw : e.memWrite = true) :
    Aligned e.aluResult ∧ ∃ value, ⟨.dwrite value, e.aluResult, true⟩ ∈ t.history := by
  unfold memStage at h
  rcases dataAccess_cases e.memRead e.memWrite e.byte e.halfword e.aluResult e.writeData s with
    ⟨_, hno, _⟩ | ⟨_, _, heq⟩ | ⟨_, _, _, heq⟩ | ⟨_, _, _, _, _, _, heq⟩ | ⟨hload, _⟩ | ⟨_, _, _, _, ha, hg, heq⟩ |
    ⟨_, _, _, ha, hg, h1, heq⟩
  · cases hw.symm.trans hno
  · rw [heq] at h; cases h
  · rw [heq] at h; cases h
  · rw [heq] at h; cases h
  · cases hr.symm.trans hload
  · rw [heq] at h
    cases h
    exact ⟨ha, e.writeData, by simp [hg]⟩
  · rw [heq] at h
    cases h
    have hholds := ((s.grantsNow_iff _).1 hg).2
    refine ⟨ha, storedWord e.byte e.halfword (s.memory.readWord e.aluResult) e.writeData, ?_⟩
    rw [State.written_history, State.grantsNow_asked, h1, hholds]
    exact List.mem_cons_self

/-- A step of the reference run had its fetch granted, and its data requests. -/
theorem referenceStep_some {u v : State} (h : referenceStep u = some v) :
    singleCycleStep u.withAnswers = .next v ∧ ∀ r ∈ v.history, r.granted = true := by
  unfold referenceStep at h
  split at h
  case h_1 t ht =>
    split at h
    case isTrue hall =>
      cases h
      exact ⟨ht, List.all_eq_true.1 hall⟩
    case isFalse => cases h
  case h_2 => cases h
  case h_3 => cases h

theorem referenceStep_record {u v : State} (h : referenceStep u = some v) : ∃ e, StepRecord u v e := by
  obtain ⟨hstep, hall⟩ := referenceStep_some h
  rcases singleCycleStep_cases hstep with ⟨hdenied, rfl⟩ | ⟨hg, out, hout, hm | ⟨d, s1, hm, rfl⟩⟩
  · cases hdenied.symm.trans (hall _ List.mem_cons_self)
  · obtain ⟨new, hlog, _, r, hr, hdenied⟩ := memStage_denied_log hm
    cases hdenied.symm.trans (hall r (hlog ▸ List.mem_append_left _ hr))
  · obtain ⟨rfl, hmem, hcore⟩ := memStage_granted hm
    refine ⟨out.exmem, State.aligned_of_grantsNow hg, ⟨out, hout, rfl⟩, ?_, rfl, fun r => ?_, fun hr hw => ?_⟩
    · exact (State.retire_memory _ _).trans hmem
    · have hreg : s1.reg r = u.reg r := State.reg_congr hcore.regs r
      rw [State.reg_retire, State.reg_retire, hreg]
      rfl
    · rw [State.retire_history]
      exact memStage_store_log hm hr hw

section
variable {u v : State} {e : ExMemPayload} (h : StepRecord u v e)
include h

/-- EX decides the record: whatever EX makes of the instruction is `e`. -/
theorem StepRecord.eq_of_execute {out : ExOut} (hout : execute u.nextRecord none none = .ok out) :
    out.exmem = e := by
  obtain ⟨out', hout', rfl⟩ := h.made
  rw [Except.ok.inj (hout.symm.trans hout')]

theorem StepRecord.legal : e.Legal := by
  obtain ⟨out, hout, rfl⟩ := h.made
  exact execute_legal (.inr ⟨_, decodeOut_fromWord _ _ _⟩) hout

theorem StepRecord.not_bubble : e.bubble = false := by
  obtain ⟨out, hout, rfl⟩ := h.made
  exact (execute_copies hout).bubble

theorem StepRecord.writes :
    e.regWrite = (controlWord (u.memory.readWord u.pc)).regWrite ∧
      e.writeReg = destination (controlWord (u.memory.readWord u.pc)) (rtOf (u.memory.readWord u.pc))
        (rdOf (u.memory.readWord u.pc)) ∧
      e.memRead = (controlWord (u.memory.readWord u.pc)).memRead ∧
      e.memWrite = (controlWord (u.memory.readWord u.pc)).memWrite := by
  obtain ⟨out, hout, rfl⟩ := h.made
  have hcopy := execute_copies hout
  exact ⟨hcopy.regWrite, hcopy.writeReg, hcopy.memRead, hcopy.memWrite⟩

/-- The written value is the memory data of a load, and EX's result otherwise. -/
theorem StepRecord.value (d : Word) : (memOut e d).value = if e.memToReg then d else e.aluResult := by
  rw [MemWbPayload.value_eq]
  cases hl : e.link with
  | false => simp [memOut, hl]
  | true =>
    obtain ⟨_, _, hread, _⟩ := h.legal.linkTarget hl
    simp [memOut, hl, h.legal.loadIffMemToReg.trans hread]

end

/-! ## The reference run as a sequence -/

/-- A sequence of states each of which is a reference step from the one before. -/
def IsReferenceRun (R : Nat → State) : Prop := ∀ n, ∃ e, StepRecord (R n) (R (n + 1)) e

/-- The word of the `n`-th instruction. -/
def wordAt (R : Nat → State) (n : Nat) : Word := (R n).memory.readWord (R n).pc

/-- Assumption 3 of R222 on the sequence. -/
def NoNearStore (R : Nat → State) : Prop :=
  ∀ n d, 1 ≤ d → d ≤ 2 → (R (n + 1)).memory.readWord (R (n + d)).pc = (R n).memory.readWord (R (n + d)).pc

/-- The second alternative of assumption 4 on the sequence. -/
def NoLoss (R : Nat → State) : Prop :=
  ∀ n, let w0 := wordAt R n
    (controlWord w0).regWrite = true → destination (controlWord w0) (rtOf w0) (rdOf w0) ≠ 0 →
    ((controlWord (wordAt R (n + 1))).memRead = true ∨ (controlWord (wordAt R (n + 1))).memWrite = true) →
    rsOf (wordAt R (n + 2)) ≠ destination (controlWord w0) (rtOf w0) (rdOf w0) ∧
      rtOf (wordAt R (n + 2)) ≠ destination (controlWord w0) (rtOf w0) (rdOf w0)

/-! ## What each latch holds -/

section
variable (R : Nat → State)

/-- MEM/WB when `r` instructions have retired; `m` instructions have then passed MEM. -/
inductive WbSlot (r : Nat) : Option MemWbPayload → Nat → Prop where
  | empty : WbSlot r none r
  | bubble {w : MemWbPayload} (isBubble : w.bubble = true) (noWrite : w.regWrite = false)
      (pc : w.pcCommit = (R r).pc) : WbSlot r (some w) r
  | instr {e : ExMemPayload} (step : StepRecord (R r) (R (r + 1)) e) :
      WbSlot r (some (memOut e (e.loaded (R r).memory))) (r + 1)

/-- EX/MEM when `m` instructions have passed MEM; `x` have then passed EX. -/
inductive MemSlot (m : Nat) : Option ExMemPayload → Nat → Prop where
  | empty : MemSlot m none m
  | bubble {e : ExMemPayload} (isBubble : e.bubble = true) (noWrite : e.regWrite = false)
      (noAccess : e.accesses = false) (pc : e.pcCommit = (R m).pc) : MemSlot m (some e) m
  | instr {e : ExMemPayload} (step : StepRecord (R m) (R (m + 1)) e) : MemSlot m (some e) (m + 1)

/-- The record of the `x`-th instruction, whose operands forwarding makes right. -/
structure Carries (x : Nat) (em : Option ExMemPayload) (mw : Option MemWbPayload) (d : IdExPayload) : Prop where
  word : d.FromWord (wordAt R x)
  pcPlus4 : d.pcPlus4 = (R x).pc + 4
  operand1 : fwd em mw d.rs d.readData1 = (R x).reg d.rs
  operand2 : fwd em mw d.rt d.readData2 = (R x).reg d.rt

/-- ID/EX when `x` instructions have passed EX; `y` have then passed ID. -/
inductive ExSlot (x : Nat) (em : Option ExMemPayload) (mw : Option MemWbPayload) :
    Option IdExPayload → Nat → Prop where
  | empty : ExSlot x em mw none x
  | bubble : ExSlot x em mw (some (bubblePayload (R x).pc)) x
  | instr {d : IdExPayload} (carries : Carries R x em mw d) : ExSlot x em mw (some d) (x + 1)

/-- IF/ID and the fetch pointer when `y` instructions have passed ID and the path fetched is the right one. -/
inductive FrontSlot (y : Nat) : Option IfIdPayload → Word → Prop where
  | empty : FrontSlot y none (R y).pc
  | fetched : FrontSlot y (some ⟨wordAt R y, (R y).pc + 4⟩) ((R y).pc + 4)

/-- The instruction in ID/EX, if any, goes on to the next address: what was fetched behind it is on the path. -/
def OnPath (y : Nat) (idex : Option IdExPayload) : Prop :=
  ∀ d, idex = some d → d.bubble = false → d.pcPlus4 = (R y).pc

/-- The simulation relation: `r` instructions have retired, `m` passed MEM, `x` passed EX, `y` passed ID. -/
structure Simulates (r m x y : Nat) (s : State) : Prop where
  regs : SameRegisters (R r) s
  pc : s.pc = (R r).pc
  memory : s.memory = (R m).memory
  wb : WbSlot R r s.memwb m
  mem : MemSlot R m s.exmem x
  ex : ExSlot R x s.exmem s.memwb s.idex y
  front : OnPath R y s.idex → FrontSlot R y s.ifid s.fetchPc

end

/-! ## The stages keep the slots -/

section
variable {R : Nat → State} {r m x y : Nat} {s : State}

/-- WB brings the registers and `pc` to the state after the instruction in MEM/WB. -/
theorem WbSlot.commits (h : WbSlot R r s.memwb m) (hregs : SameRegisters (R r) s) (hpc : s.pc = (R r).pc) :
    SameRegisters (R m) (writeBack s) ∧ (writeBack s).pc = (R m).pc := by
  generalize hw : s.memwb = mw at h
  cases h with
  | empty =>
    rw [writeBack_none hw]
    exact ⟨hregs, hpc⟩
  | bubble _ hno hcommit =>
    rw [writeBack_eq_retire hw]
    refine ⟨fun q => ?_, hcommit⟩
    rw [State.reg_retire, if_neg (by simp [hno])]
    exact hregs q
  | instr hstep =>
    rw [writeBack_eq_retire hw]
    refine ⟨fun q => ?_, hstep.pc.symm⟩
    rw [hstep.reg, State.reg_retire, State.reg_retire, hregs q]

/-- How many instructions have retired after the cycle. -/
theorem WbSlot.retires (h : WbSlot R r s.memwb m) : m = r + if s.retiresInstr then 1 else 0 := by
  generalize hw : s.memwb = mw at h
  cases h with
  | empty => simp [retiresInstr_of_none hw]
  | bubble hb => simp [retiresInstr_of_some hw, hb]
  | instr hstep => simp [retiresInstr_of_some hw, memOut, hstep.not_bubble]

/-- MEM hands its instruction to WB, and stores for it. -/
theorem MemSlot.completes (h : MemSlot R m s.exmem x) (hmem : s.memory = (R m).memory) {s1 : State}
    {mw : Option MemWbPayload} (hdone : MemDone s s1 mw) : WbSlot R m mw x ∧ s1.memory = (R x).memory := by
  generalize he : s.exmem = em at h
  cases h with
  | empty =>
    obtain ⟨rfl, rfl⟩ := hdone.of_none he
    exact ⟨.empty, (writeBack_memory s).trans hmem⟩
  | bubble hb hno hacc hpc =>
    obtain ⟨rfl, hstored⟩ := hdone.of_some he
    have hmw := (Bool.or_eq_false_iff.1 hacc).2
    rw [ExMemPayload.stored_of_not_memWrite hmw] at hstored
    exact ⟨.bubble hb hno hpc, hstored.trans hmem⟩
  | instr hstep =>
    obtain ⟨rfl, hstored⟩ := hdone.of_some he
    rw [hmem] at hstored ⊢
    exact ⟨.instr hstep, hstored.trans hstep.memory.symm⟩

/-- EX hands its instruction to MEM, and resolves the path behind it. -/
theorem ExSlot.resolves (hR : IsReferenceRun R) (h : ExSlot R x s.exmem s.memwb s.idex y)
    {em : Option ExMemPayload} {target : Option Word} (hx : exStage s = .ok (em, target)) :
    MemSlot R x em y ∧ (∀ t, target = some t → t = (R y).pc) ∧ (target = none → OnPath R y s.idex) := by
  generalize hd : s.idex = d at h
  cases h with
  | empty =>
    cases (exStage_none hd).symm.trans hx
    exact ⟨.empty, (fun t h => nomatch h), fun _ d h => nomatch h⟩
  | bubble =>
    obtain ⟨out, hout, rfl, rfl⟩ := exStage_of_idex hd hx
    obtain ⟨hb, hwrite, hacc, hnone, hcommit⟩ := execute_bubble hout
    refine ⟨.bubble hb hwrite hacc hcommit, (fun t h => nomatch hnone.symm.trans h), fun _ d h hb => ?_⟩
    cases Option.some.inj h
    cases hb
  | instr hc =>
    obtain ⟨out, hout, rfl, rfl⟩ := exStage_of_idex hd hx
    obtain ⟨e, hstep⟩ := hR x
    have hout' := hout
    rw [hc.word.execute_eq (s := R x) (hc.word.rs ▸ hc.operand1) (hc.word.rt ▸ hc.operand2), hc.pcPlus4] at hout'
    obtain rfl := hstep.eq_of_execute hout'
    obtain ⟨_, _, hcommit⟩ := execute_resolves hout
    refine ⟨.instr hstep, fun t ht => ?_, fun hnone d' hd' _ => ?_⟩
    · rw [ht] at hcommit
      exact hcommit.symm.trans hstep.pc.symm
    · obtain rfl := Option.some.inj hd'
      rw [hnone] at hcommit
      exact hcommit.symm.trans hstep.pc.symm

/-! ## Forwarding -/

/-- A record of MEM/WB that does not write the register is passed over. -/
theorem fwd_of_memwb_misses {mw : Option MemWbPayload} {src : Reg}
    (h : ∀ w, mw = some w → w.regWrite = true → w.writeReg = src → src = 0) (em : Option ExMemPayload) (v : Word) :
    fwd em mw src v = fwd em none src v := by
  by_cases hs : src = 0
  · subst hs
    rw [fwd_zero, fwd_zero]
  · have hmiss : fwd none mw src v = v :=
      fwd_none_of_memwb_misses (fun ⟨w, hw, hwrite, hreg⟩ => hs (h w hw hwrite hreg)) v
    by_cases hem : ∃ e, em = some e ∧ e.regWrite = true ∧ e.writeReg = src
    · obtain ⟨e, rfl, hwrite, hreg⟩ := hem
      rw [fwd_exmem hs hwrite hreg, fwd_exmem hs hwrite hreg]
    · rw [fwd_of_exmem_misses hem, fwd_of_exmem_misses hem, hmiss]
      rfl

/-- What a step of the reference run leaves in a register other than x[0]. -/
theorem StepRecord.reg_ne_zero {u v : State} {e : ExMemPayload} (h : StepRecord u v e) {src : Reg} (hs : src ≠ 0) :
    v.reg src = if e.regWrite = true ∧ e.writeReg = src then (if e.memToReg then e.loaded u.memory else e.aluResult)
      else u.reg src := by
  rw [h.reg, State.reg_retire, h.value]
  exact if_congr (and_congr_right fun _ => and_iff_left hs) rfl rfl

/-- The value MEM/WB forwards is the register's after its instruction. -/
theorem WbSlot.forwards {w : Option MemWbPayload} (h : WbSlot R r w m) {src : Reg} (hs : src ≠ 0) :
    fwd none w src ((R r).reg src) = (R m).reg src := by
  cases h with
  | empty => rfl
  | bubble _ hno =>
    refine fwd_none_of_memwb_misses ?_ _
    rintro ⟨w', hw', hwrite, _⟩
    cases hw'
    cases hno.symm.trans hwrite
  | @instr e hstep =>
    rw [hstep.reg_ne_zero hs]
    split
    case isTrue hw => exact fwd_none_memwb hs hw.1 hw.2 _
    case isFalse hw =>
      refine fwd_none_of_memwb_misses ?_ _
      rintro ⟨w', hw', hwrite⟩
      cases hw'
      exact hw hwrite

/-- The operand forwarding gives is the register's after the instructions in MEM/WB and EX/MEM, unless the latter is
a load of that register. -/
theorem MemSlot.forwards {e : Option ExMemPayload} {w : Option MemWbPayload} (hw : WbSlot R r w m)
    (h : MemSlot R m e x) {src : Reg}
    (hno : ∀ e', e = some e' → e'.memRead = true → e'.writeReg = src → src = 0) :
    fwd e w src ((R r).reg src) = (R x).reg src := by
  by_cases hs : src = 0
  · subst hs
    exact fwd_zero _ _ _
  cases h with
  | empty => exact hw.forwards hs
  | @bubble e' _ hnw _ _ =>
    have hmiss : ¬ ∃ e'', some e' = some e'' ∧ e''.regWrite = true ∧ e''.writeReg = src := by
      rintro ⟨e'', he, hwrite, _⟩
      cases he
      cases hnw.symm.trans hwrite
    rw [fwd_of_exmem_misses hmiss]
    exact hw.forwards hs
  | @instr e' hstep =>
    rw [hstep.reg_ne_zero hs]
    split
    case isTrue hwrite =>
      have hread : e'.memRead = false := by
        cases hr : e'.memRead with
        | false => rfl
        | true => exact absurd (hno e' rfl hr hwrite.2) hs
      rw [fwd_exmem hs hwrite.1 hwrite.2, hstep.legal.loadIffMemToReg.trans hread]
      rfl
    case isFalse hwrite =>
      have hmiss : ¬ ∃ e'', some e' = some e'' ∧ e''.regWrite = true ∧ e''.writeReg = src := by
        rintro ⟨e'', he, hw'⟩
        cases he
        exact hwrite hw'
      rw [fwd_of_exmem_misses hmiss]
      exact hw.forwards hs

/-! ## ID and IF -/

/-- The word fetched two instructions early is the one the reference run fetches. -/
theorem wordAt_early (hnear : NoNearStore R) {n : Nat} (h1 : x ≤ n) (h2 : n ≤ x + 2) :
    (R x).memory.readWord (R n).pc = wordAt R n := by
  obtain rfl | rfl | rfl : n = x ∨ n = x + 1 ∨ n = x + 2 := by omega
  · rfl
  · exact (hnear x 1 (by decide) (by decide)).symm
  · exact (hnear x 2 (by decide) (by decide)).symm.trans (hnear (x + 1) 1 (by decide) (by decide)).symm

/-- What IF leaves, when the word it asks for is the next instruction. -/
theorem ifStage_front {s1 : State} {out : IfOut} (hi : ifStage false s1 = .ok out) (hpc : s1.fetchPc = (R y).pc)
    (hword : s1.memory.readWord (R y).pc = wordAt R y) : FrontSlot R y out.ifid out.fetchPc := by
  obtain ⟨h, _⟩ | ⟨_, _, _, rfl⟩ | ⟨_, _, _, rfl⟩ := ifStage_cases hi
  · cases h
  · simp only [hpc, hword]
    exact .fetched
  · simp only [hpc]
    exact .empty

theorem ExSlot.le {e : Option ExMemPayload} {w : Option MemWbPayload} {d : Option IdExPayload}
    (h : ExSlot R x e w d y) : x ≤ y ∧ y ≤ x + 1 := by
  cases h <;> omega

/-- A load in ID/EX is an instruction's record: a bubble loads nothing. -/
theorem ExSlot.of_load {e : Option ExMemPayload} {w : Option MemWbPayload} {d : IdExPayload}
    (h : ExSlot R x e w (some d) y) (hread : d.ctl.memRead = true) : Carries R x e w d := by
  cases h with
  | bubble => cases hread
  | instr hc => exact hc

/-- Without a load-use stall EX/MEM receives no load of a register that the word in IF/ID names (R194, R196). -/
theorem ExSlot.no_load_hazard (h : ExSlot R x s.exmem s.memwb s.idex y) {em : Option ExMemPayload}
    {target : Option Word} (hx : exStage s = .ok (em, target)) {f : IfIdPayload} (hf : s.ifid = some f)
    (hs : s.loadUseStall = false) {src : Reg} (hsrc : src = rsOf f.instruction ∨ src = rtOf f.instruction) :
    ∀ e, em = some e → e.memRead = true → e.writeReg = src → src = 0 := by
  intro e he hload hreg
  rcases exStage_cases hx with ⟨_, hnone, _⟩ | ⟨d, out, hd, hout, hem, _⟩
  · cases hnone.symm.trans he
  · obtain rfl := Option.some.inj (hem.symm.trans he)
    have hread : d.ctl.memRead = true := (execute_copies hout).memRead.symm.trans hload
    rw [hd] at h
    obtain ⟨_, hdest, _, _⟩ := execute_load (h.of_load hread).word hread hout
    by_contra hne
    have hrt : d.rt = src := hdest.symm.trans hreg
    have huse : loadUse s.idex f.instruction = true :=
      (loadUse_eq_true_iff _ _).2 ⟨d, hd, hread, hrt ▸ hne, hrt ▸ hsrc⟩
    cases hs.symm.trans ((State.loadUseStall_eq_true_iff s).2 ⟨f, hf, huse⟩)

/-! ## The two kinds of cycle -/

/-- A full cycle moves every instruction on by one stage. -/
theorem Simulates.full_cycle (hR : IsReferenceRun R) (hnear : NoNearStore R) (h : Simulates R r m x y s)
    {s1 : State} {mw : Option MemWbPayload} {em : Option ExMemPayload} {target : Option Word} {out : IfOut}
    (hdone : MemDone s s1 mw) (hx : exStage s = .ok (em, target)) (hi : ifStage s.loadUseStall s1 = .ok out) :
    ∃ y', Simulates R m x y y' (commit target out (idStage s s1) em mw) := by
  obtain ⟨hregs, hpc⟩ := h.wb.commits h.regs h.pc
  obtain ⟨hwb, hmem⟩ := h.mem.completes h.memory hdone
  obtain ⟨hmemslot, htarget, hpath⟩ := h.ex.resolves hR hx
  obtain ⟨hle, hle'⟩ := h.ex.le
  obtain ⟨hifcore, hifmem⟩ := ifStage_core hi
  have hcore := hdone.core.trans hifcore
  have hfetchPc : s1.fetchPc = s.fetchPc := hdone.core.fetchPc.trans (writeBack_fetchPc s)
  have hs1 : SameRegisters (R m) s1 := fun q => (State.reg_congr hdone.core.regs q).trans (hregs q)
  have assemble : ∀ y', ExSlot R y em mw (commit target out (idStage s s1) em mw).idex y' →
      (OnPath R y' (commit target out (idStage s s1) em mw).idex →
        FrontSlot R y' (commit target out (idStage s s1) em mw).ifid
          (commit target out (idStage s s1) em mw).fetchPc) →
      Simulates R m x y y' (commit target out (idStage s s1) em mw) := by
    intro y' hex hfront
    refine ⟨fun q => ?_, ?_, ?_, ?_, ?_, ?_, hfront⟩
    · exact (State.reg_congr ((commit_regs ..).trans hcore.regs) q).trans (hregs q)
    · rw [commit_pc, hcore.pc, hpc]
    · rw [commit_memory, hifmem, hmem]
    · rw [commit_memwb]
      exact hwb
    · rw [commit_exmem]
      exact hmemslot
    · rw [commit_exmem, commit_memwb]
      exact hex
  cases target with
  | some t =>
    obtain rfl := htarget t rfl
    exact ⟨y, assemble y .empty fun _ => .empty⟩
  | none =>
    have hfront := h.front (hpath rfl)
    cases hs : s.loadUseStall with
    | true =>
      obtain ⟨_, d, _, hd, hread, _⟩ := loadUseStall_cases hs
      have hbubble : d.bubble = false := ((hd ▸ h.ex).of_load hread).word.bubble
      have hnext : d.pcPlus4 = (R y).pc := hpath rfl d hd hbubble
      rw [hs] at hi
      obtain ⟨_, rfl⟩ | ⟨h, _⟩ | ⟨h, _⟩ := ifStage_cases hi
      case inr.inl | inr.inr => cases h
      refine ⟨y, assemble y ?_ fun _ => ?_⟩
      · rw [commit_none_idex, idStage_stall hs hd, hnext]
        exact .bubble
      · rw [commit_none_ifid, commit_none_fetchPc, hdone.core.ifid, writeBack_ifid, hfetchPc]
        exact hfront
    | false =>
      rw [hs] at hi
      cases hf : s.ifid with
      | none =>
        rw [hf] at hfront
        generalize hp : s.fetchPc = p at hfront
        cases hfront
        refine ⟨y, assemble y ?_ fun _ => ?_⟩
        · rw [commit_none_idex, idStage_none hf]
          exact .empty
        · refine ifStage_front hi (hfetchPc.trans hp) ?_
          rw [hmem]
          exact wordAt_early hnear hle (by omega)
      | some f =>
        rw [hf] at hfront
        generalize hp : s.fetchPc = p at hfront
        cases hfront
        have hdec := idStage_decode (t := s1) hs hf
        have hcarries : Carries R y em mw (decodeOut ⟨wordAt R y, (R y).pc + 4⟩ s1) :=
          { word := decodeOut_fromWord _ _ _
            pcPlus4 := rfl
            operand1 := (congrArg (fwd em mw _) (hs1 _)).trans
              (hmemslot.forwards hwb (h.ex.no_load_hazard hx hf hs (.inl rfl)))
            operand2 := (congrArg (fwd em mw _) (hs1 _)).trans
              (hmemslot.forwards hwb (h.ex.no_load_hazard hx hf hs (.inr rfl))) }
        refine ⟨y + 1, assemble (y + 1) ?_ fun hon => ?_⟩
        · rw [commit_none_idex, hdec]
          exact .instr hcarries
        · rw [commit_none_idex, hdec] at hon
          have hnext : (R y).pc + 4 = (R (y + 1)).pc := hon _ rfl rfl
          refine ifStage_front hi (hfetchPc.trans (hp.trans hnext)) ?_
          rw [hmem]
          exact wordAt_early hnear (by omega) (by omega)

/-- Assumption 4's second alternative: what MEM/WB holds while the access in EX/MEM is denied is no operand of the
instruction behind it (R206). -/
theorem WbSlot.no_loss (hloss : NoLoss R) {w : Option MemWbPayload} (h : WbSlot R r w m) {e : ExMemPayload}
    (hstep : StepRecord (R m) (R (m + 1)) e) (hacc : e.accesses = true) {src : Reg}
    (hsrc : src = rsOf (wordAt R (m + 1)) ∨ src = rtOf (wordAt R (m + 1))) :
    ∀ w', w = some w' → w'.regWrite = true → w'.writeReg = src → src = 0 := by
  intro w' hw' hwrite hreg
  cases h with
  | empty => cases hw'
  | bubble _ hno =>
    cases hw'
    cases hno.symm.trans hwrite
  | instr hstep0 =>
    cases hw'
    obtain ⟨hwrite0, hdest0, _, _⟩ := hstep0.writes
    obtain ⟨_, _, hread1, hstore1⟩ := hstep.writes
    by_contra hne
    have hdest : destination _ _ _ = src := hdest0.symm.trans hreg
    obtain ⟨hrs, hrt⟩ := hloss r (hwrite0.symm.trans hwrite) (fun h0 => hne (hdest.symm.trans h0))
      ((Bool.or_eq_true _ _).mp (hread1 ▸ hstore1 ▸ hacc))
    rcases hsrc with h | h
    · exact hrs (h.symm.trans hdest.symm)
    · exact hrt (h.symm.trans hdest.symm)

/-- An operand that MEM/WB did not supply needs no MEM/WB. -/
theorem ExSlot.after_stall {e : Option ExMemPayload} {w : Option MemWbPayload} {d : Option IdExPayload}
    (h : ExSlot R x e w d y)
    (hkept : ∀ src, src = rsOf (wordAt R x) ∨ src = rtOf (wordAt R x) →
      ∀ w', w = some w' → w'.regWrite = true → w'.writeReg = src → src = 0) : ExSlot R x e none d y := by
  cases h with
  | empty => exact .empty
  | bubble => exact .bubble
  | instr hc =>
    have h1 := fwd_of_memwb_misses (hkept _ (.inl hc.word.rs)) e
    have h2 := fwd_of_memwb_misses (hkept _ (.inr hc.word.rt)) e
    exact .instr ⟨hc.word, hc.pcPlus4, (h1 _).symm.trans hc.operand1, (h2 _).symm.trans hc.operand2⟩

/-- A memory stall retires what WB holds and keeps every other instruction where it is. -/
theorem Simulates.memory_stall (hloss : NoLoss R) (h : Simulates R r m x y s) {e : ExMemPayload} {s1 : State}
    (he : s.exmem = some e) (hd : memStage e (writeBack s) = .denied s1) :
    Simulates R m m x y { s1 with memwb := none } := by
  obtain ⟨hregs, hpc⟩ := h.wb.commits h.regs h.pc
  obtain ⟨hcore, hmem⟩ := dataAccess_denied_core _ _ _ _ _ _ _ hd
  have hacc : e.accesses = true := by
    cases hno : e.accesses with
    | true => rfl
    | false => cases (memStage_no_access hno _).symm.trans hd
  have hidex : s1.idex = s.idex := hcore.idex.trans (writeBack_idex s)
  have hexmem : s1.exmem = s.exmem := hcore.exmem.trans (writeBack_exmem s)
  have hifid : s1.ifid = s.ifid := hcore.ifid.trans (writeBack_ifid s)
  have hfetchPc : s1.fetchPc = s.fetchPc := hcore.fetchPc.trans (writeBack_fetchPc s)
  refine ⟨fun q => (State.reg_congr hcore.regs q).trans (hregs q), hcore.pc.trans hpc, ?_, .empty, ?_, ?_, ?_⟩
  · exact hmem.trans ((writeBack_memory s).trans h.memory)
  · exact hexmem ▸ h.mem
  · rw [hexmem, hidex]
    refine h.ex.after_stall ?_
    have hmemslot := h.mem
    rw [he] at hmemslot
    cases hmemslot with
    | bubble _ _ hno => cases hno.symm.trans hacc
    | instr hstep => exact fun src hsrc => h.wb.no_loss hloss hstep hacc hsrc
  · rw [hidex, hifid, hfetchPc]
    exact h.front

/-! ## Runs -/

/-- One cycle keeps the relation, under either alternative of assumption 4. -/
theorem Simulates.step (hR : IsReferenceRun R) (hnear : NoNearStore R) (hl : s.optLevel = .pipelined)
    (h : Simulates R r m x y s) {t : State} {first : List Request} (hstep : step s = .next t)
    (hlog : t.history = first ++ s.history) (hdata : DataRequestsGranted first ∨ NoLoss R) :
    ∃ m' x' y', Simulates R m m' x' y' t := by
  have full : (∃ s1 mw em target out, MemDone s s1 mw ∧ exStage s = .ok (em, target) ∧
      ifStage s.loadUseStall s1 = .ok out ∧ t = commit target out (idStage s s1) em mw) →
      ∃ m' x' y', Simulates R m m' x' y' t := by
    rintro ⟨s1, mw, em, target, out, hdone, hx, hi, rfl⟩
    exact ⟨x, y, h.full_cycle hR hnear hdone hx hi⟩
  rcases hdata with hgranted | hloss
  · exact full (full_cycle_of_log hl hstep hlog hgranted)
  · rcases advance_cases ((step_pipelined hl).symm.trans hstep) with ⟨e, s1, he, hd, rfl⟩ | hfull
    · exact ⟨m, x, y, h.memory_stall hloss he hd⟩
    · exact full hfull

/-- Any number of cycles keeps the relation, with as many instructions retired as the run counts. -/
theorem Simulates.run (hR : IsReferenceRun R) (hnear : NoNearStore R) {k : Nat} {t : State} {new : List Request}
    (hl : s.optLevel = .pipelined) (h : Simulates R r m x y s) (hrun : core.run k s = .next t)
    (hlog : t.history = new ++ s.history) (hdata : DataRequestsGranted new ∨ NoLoss R) :
    ∃ m' x' y', Simulates R (r + instrRetirements k s) m' x' y' t := by
  induction k generalizing s r m x y new with
  | zero =>
    rw [run_zero hrun]
    exact ⟨m, x, y, h⟩
  | succ k ih =>
    obtain ⟨s', first, rest, hstep, hrest, hfirst, hlog', rfl⟩ := run_succ_log hrun hlog
    have hl' : s'.optLevel = .pipelined := (configurationIsFixedForARun s s' hstep).1.trans hl
    obtain ⟨m', x', y', h'⟩ := h.step hR hnear hl hstep hfirst
      (hdata.imp_left fun hg q hq => hg q (List.mem_append_right _ hq))
    obtain ⟨m'', x'', y'', hfinal⟩ := ih hl' h' hrest hlog'
      (hdata.imp_left fun hg q hq => hg q (List.mem_append_left _ hq))
    rw [instrRetirements_succ hstep, ← Nat.add_assoc, ← h.wb.retires]
    exact ⟨m'', x'', y'', hfinal⟩

end

/-! ## The statement -/

section
variable {s : State} (h : ReferenceRuns s)

/-- The states of a reference run that never stops (R222, assumption 1). -/
def referenceTrace (n : Nat) : State := (referenceRun n s).get (h n)

theorem referenceRun_eq_trace (n : Nat) : referenceRun n s = some (referenceTrace h n) :=
  (Option.some_get (h n)).symm

theorem referenceStep_trace (n : Nat) : referenceStep (referenceTrace h n) = some (referenceTrace h (n + 1)) := by
  have hnext : referenceRun (n + 1) s = (referenceRun n s).bind referenceStep := rfl
  rw [referenceRun_eq_trace h, referenceRun_eq_trace h] at hnext
  exact hnext.symm

theorem isReferenceRun_trace : IsReferenceRun (referenceTrace h) := fun n =>
  referenceStep_record (referenceStep_trace h n)

/-- A store leaves the words the next two instructions are fetched from. -/
theorem noNearStore_trace (hnear : NoNearSelfModification s) : NoNearStore (referenceTrace h) := by
  intro n d h1 h2
  obtain ⟨e, hstep⟩ := isReferenceRun_trace h n
  obtain ⟨_, hlater⟩ := isReferenceRun_trace h (n + d)
  rw [hstep.memory, ExMemPayload.stored]
  split
  case isFalse => rfl
  case isTrue hstore =>
    obtain ⟨ha, value, hmem⟩ := hstep.store hstore.1 hstore.2
    have hne := hnear n d _ _ h1 h2 (referenceRun_eq_trace h (n + 1)) (referenceRun_eq_trace h (n + d)) _ hmem value rfl
    exact Memory.readWord_writeWord_ne _ _ _ _ ha hlater.aligned hne.symm

theorem streamWord_trace (n : Nat) : streamWord s n = some (wordAt (referenceTrace h) n) := by
  unfold streamWord
  rw [referenceRun_eq_trace h]
  rfl

theorem noLoss_trace (hloss : NoForwardingLossPattern s) : NoLoss (referenceTrace h) := fun n =>
  hloss n _ _ _ (streamWord_trace h n) (streamWord_trace h (n + 1)) (streamWord_trace h (n + 2))

/-- At the start nothing has retired and nothing is in flight. -/
theorem simulates_start (hd : s.Drained) (hpc : s.fetchPc = s.pc) : Simulates (referenceTrace h) 0 0 0 0 s where
  regs _ := rfl
  pc := rfl
  memory := rfl
  wb := hd.memwb ▸ .empty
  mem := hd.exmem ▸ .empty
  ex := hd.idex ▸ .empty
  front _ := by
    rw [hd.ifid, hpc]
    exact .empty

end

/-- Settles O60: the simulation over the run; memory is the reference's after the instructions that have passed MEM,
those retired and perhaps the one in MEM/WB. -/
theorem pipelineRefinesTheSingleCycleModel : Obligations.PipelineRefinesTheSingleCycleModel := by
  unfold Obligations.PipelineRefinesTheSingleCycleModel
  intro s t new k hl hd hpc hruns hnear hrun hlog hdata
  obtain ⟨m, x, y, hsim⟩ := (simulates_start hruns hd hpc).run (isReferenceRun_trace hruns)
    (noNearStore_trace hruns hnear) hl hrun hlog (hdata.imp_right (noLoss_trace hruns))
  rw [Nat.zero_add] at hsim
  refine ⟨_, _, referenceRun_eq_trace hruns _, referenceStep_trace hruns _, hsim.regs, hsim.pc, ?_⟩
  have hm := hsim.wb.retires
  rw [hsim.memory, hm]
  split
  · exact .inr rfl
  · exact .inl rfl

end Sys2Proof.Machine
end
